-- ==== Sys2Proof/Word.lean ====
section
/-!
DEFINITION. The bit vectors and the Sample of the unit: 32-bit command and response words, 16-bit input samples,
one-bit registers and selectors, binary32 patterns, and a complex pair of components.
-/

namespace Sys2Proof

/-- A word of CMD or RSP (R30, R32), and a payload word (R82). -/
abbrev Word := BitVec 32

/-- A word of SMP: a Digital Input Sample in [0, 65535] (R31). -/
abbrev Half := BitVec 16

/-- One bit: `IN_SEL`, a role selector `r`, a physical Buffer number (R24, R52). -/
abbrev Bit := BitVec 1

/-- An IEEE 754 binary32 bit pattern (R110): bit 31 the sign, 30:23 the exponent, 22:0 the fraction. -/
abbrev F32 := BitVec 32

/-- A Sample `(re, im)` (R11, R51) over a component type: `F32` in the hardware, a number field in the ideal
numerics of R125. -/
structure Sample (F : Type) where
  re : F
  im : F
deriving DecidableEq, Repr

end Sys2Proof
end

