-- ==== Sys2Proof/Config.lean ====
section
/-!
DEFINITION. What an implementation fixes, and the values the spec leaves free: the build's bit-width `BW`, the record
`NUM` of numeric primitives (R125), and the draw of a NaN's sign and payload (R111, U6).
-/

namespace Sys2Proof

/-- The build-time bit-width `BW = log2 N`, `2 ≤ BW ≤ 24` (R6, D17). An illegal width cannot be expressed (U8). -/
structure BitWidth where
  val : Nat
  low : 2 ≤ val
  high : val ≤ 24
deriving DecidableEq, Repr

/-- `N = 2^BW`, the transform length (R6). -/
def BitWidth.size (bw : BitWidth) : Nat := 2 ^ bw.val

/-- The reference configuration `BW = 12`, `N = 4096` (R6). -/
def Config.referenceWidth : BitWidth := ⟨12, by decide, by decide⟩

/-- Where one rounded operation stands in a run: the CMD position of its command word, the stage `bp`, the block, the
butterfly or bin, and the number of the operation inside it. Two operations of a run have two sites (log entry 5). -/
structure Site where
  cmd : Nat
  stage : Nat
  block : Nat
  lane : Nat
  op : Nat
deriving DecidableEq, Repr

/-- The same place, operation number `k`. -/
def Site.nth (site : Site) (k : Nat) : Site := { site with op := k }

/-- FREE VALUE. The sign and payload of the NaN an operation at a site produces (R111: "a NaN whose sign and payload are
unspecified: the model takes them as a draw"). No body: nothing can prove a value of it. `Machine.nanAt` makes a NaN
of it, whatever it is. -/
opaque Config.freeNaN : Site → BitVec 32

/-- The record `NUM` of R125: the numeric primitives every command is written over. Each rounded operation is told its
site, which only the choice of a NaN may look at. -/
structure Num (F : Type) where
  /-- `+0.0`. -/
  zero : F
  fadd : Site → F → F → F
  fsub : Site → F → F → F
  fmul : Site → F → F → F
  fdiv : Site → F → F → F
  fsqrt : Site → F → F
  fge : F → F → Bool
  u16tof : Half → F
  itof : Nat → F
  /-- The twiddle ROM `TW[t]` of a build (R122). -/
  tw : BitWidth → Nat → Sample F

end Sys2Proof
end

