-- ==== Sys2Proof/Syntax.lean ====
section
/-!
DEFINITION. The 15 commands of SFFT-CMD v1 (R83), with the operands of their formats at the formats' widths (R81, R82)
and the payload words that follow them (R85).
-/

namespace Sys2Proof

/-- One constructor per row of the opcode map (R83). -/
inductive Instr where
  /-- `LOAD` (R190), opcode 0x1, format Z. -/
  | load
  /-- `FFT` (R177), opcode 0x2, format Z. -/
  | fft
  /-- `FINDF r, fs` (R205), opcode 0x3, format R, one payload word. -/
  | findf (r : Bit) (fs : F32)
  /-- `RDB r, idx` (R191), opcode 0x4, format X. -/
  | rdb (r : Bit) (idx : BitVec 24)
  /-- `WRB r, idx, re, im` (R192), opcode 0x5, format X, two payload words. -/
  | wrb (r : Bit) (idx : BitVec 24) (re im : F32)
  /-- `STAT` (R208), opcode 0x6, format Z. -/
  | stat
  /-- `BITREV nb, v` (R141), opcode 0x7, format V. -/
  | bitrev (nb : BitVec 5) (v : BitVec 23)
  /-- `PINIT` (R175), opcode 0x8, format Z. -/
  | pinit
  /-- `SDEC` (R163), opcode 0x9, format Z. -/
  | sdec
  /-- `TDEC` (R164), opcode 0xA, format Z. -/
  | tdec
  /-- `REBIND` (R179), opcode 0xB, format Z. -/
  | rebind
  /-- `SSTG bp` (R161), opcode 0xC, format S. -/
  | sstg (bp : BitVec 5)
  /-- `TSTG bp` (R162), opcode 0xD, format S. -/
  | tstg (bp : BitVec 5)
  /-- `SCOMB bp, blk` (R146), opcode 0xE, format B. -/
  | scomb (bp : BitVec 5) (blk : BitVec 23)
  /-- `TCOMB bp, blk` (R148), opcode 0xF, format B. -/
  | tcomb (bp : BitVec 5) (blk : BitVec 23)
deriving DecidableEq, Repr

end Sys2Proof
end

