-- ==== Sys2Proof/WellFormed.lean ====
section
/-!
DEFINITION. The legal operand ranges of R84, for a build of bit-width `bw`. A word outside them is a range violation
(`OperandRange`), not an illegal encoding (R87).
-/

namespace Sys2Proof

/-- `idx < N` (R84, `RDB` and `WRB`). -/
def idxInRange (bw : BitWidth) (idx : BitVec 24) : Bool := decide (idx.toNat < bw.size)

/-- `bp ≤ BW − 1` (R84, the stage and combine commands); `BW ≥ 2`, so this is `bp < BW`. -/
def stageInRange (bw : BitWidth) (bp : BitVec 5) : Bool := decide (bp.toNat < bw.val)

/-- `blk < 2^bp` (R84, the combine commands). -/
def blockInRange (bp : BitVec 5) (blk : BitVec 23) : Bool := decide (blk.toNat < 2 ^ bp.toNat)

/-- R84, one row per command. The payload words take no part in it. -/
def Instr.wf (bw : BitWidth) : Instr → Bool
  | .load => true
  | .fft => true
  | .findf _ _ => true
  | .rdb _ idx => idxInRange bw idx
  | .wrb _ idx _ _ => idxInRange bw idx
  | .stat => true
  | .bitrev _ _ => true
  | .pinit => true
  | .sdec => true
  | .tdec => true
  | .rebind => true
  | .sstg bp => stageInRange bw bp
  | .tstg bp => stageInRange bw bp
  | .scomb bp blk => stageInRange bw bp && blockInRange bp blk
  | .tcomb bp blk => stageInRange bw bp && blockInRange bp blk

end Sys2Proof
end

