-- ==== Sys2Proof/Decode.lean ====
section
/-!
DEFINITION. Decoding of command words (R80 to R91) and the encoder, both written from the formats of R81 and the opcode
map of R83. Decoding is total on any list of CMD words; an illegal word is named, never read as a neighbour.
-/

namespace Sys2Proof

/-! ## Fields (R82) -/

/-- `op`, bits 31:28. -/
def fieldOp (w : Word) : BitVec 4 := w.extractLsb' 28 4

/-- `r`, bit 24. -/
def fieldR (w : Word) : Bit := w.extractLsb' 24 1

/-- `idx`, bits 23:0. -/
def fieldIdx (w : Word) : BitVec 24 := w.extractLsb' 0 24

/-- `bp` and `nb`, bits 27:23. -/
def fieldBp (w : Word) : BitVec 5 := w.extractLsb' 23 5

/-- `blk` and `v`, bits 22:0. -/
def fieldBlk (w : Word) : BitVec 23 := w.extractLsb' 0 23

/-! ## Must-be-zero fields of the formats (R81, R87) -/

/-- Format Z: bits 27:0 are zero. -/
def mbzZ (w : Word) : Bool := w.extractLsb' 0 28 == 0#28

/-- Format R: bits 27:25 and 23:0 are zero. -/
def mbzR (w : Word) : Bool := w.extractLsb' 25 3 == 0#3 && w.extractLsb' 0 24 == 0#24

/-- Format X: bits 27:25 are zero. -/
def mbzX (w : Word) : Bool := w.extractLsb' 25 3 == 0#3

/-- Format S: bits 22:0 are zero. -/
def mbzS (w : Word) : Bool := w.extractLsb' 0 23 == 0#23

/-! ## Decoding -/

/-- The command of the command word `w`, with `p` and `q` for its payload words where it has any (R91). `none`: the word
is illegal (R87). -/
def decodeWord (w p q : Word) : Option Instr :=
  match (fieldOp w).toNat with
  | 0x1 => if mbzZ w then some .load else none
  | 0x2 => if mbzZ w then some .fft else none
  | 0x3 => if mbzR w then some (.findf (fieldR w) p) else none
  | 0x4 => if mbzX w then some (.rdb (fieldR w) (fieldIdx w)) else none
  | 0x5 => if mbzX w then some (.wrb (fieldR w) (fieldIdx w) p q) else none
  | 0x6 => if mbzZ w then some .stat else none
  | 0x7 => some (.bitrev (fieldBp w) (fieldBlk w))
  | 0x8 => if mbzZ w then some .pinit else none
  | 0x9 => if mbzZ w then some .sdec else none
  | 0xA => if mbzZ w then some .tdec else none
  | 0xB => if mbzZ w then some .rebind else none
  | 0xC => if mbzS w then some (.sstg (fieldBp w)) else none
  | 0xD => if mbzS w then some (.tstg (fieldBp w)) else none
  | 0xE => some (.scomb (fieldBp w) (fieldBlk w))
  | 0xF => some (.tcomb (fieldBp w) (fieldBlk w))
  | _ => none

/-- The length of a command in CMD words is a function of `op` alone (R88). -/
def opLength (w : Word) : Nat :=
  match (fieldOp w).toNat with
  | 0x3 => 2
  | 0x5 => 3
  | _ => 1

/-- What the front of CMD holds. -/
inductive Decoded where
  /-- No word: the unit is idle (R223). -/
  | empty
  /-- The first word is illegal (R87). -/
  | illegal (w : Word)
  /-- A legal command word whose payload words have not all arrived (R88). The absent ones read as zero in `i`; nothing
  looks at them. -/
  | partialCmd (i : Instr)
  /-- A whole command, and the words after it. -/
  | whole (i : Instr) (rest : List Word)
deriving DecidableEq, Repr

/-- The decode procedure of R91 on the words at the front of CMD. The range checks of R84 are `Instr.wf`; the step makes
them next, before any payload word is taken. -/
def decode : List Word → Decoded
  | [] => .empty
  | w :: rest =>
    match decodeWord w (rest.getD 0 0#32) (rest.getD 1 0#32) with
    | none => .illegal w
    | some i =>
      if rest.length + 1 < opLength w then .partialCmd i else .whole i (rest.drop (opLength w - 1))

/-! ## The encoder -/

/-- Format Z. -/
def encZ (op : BitVec 4) : Word := op ++ 0#28

/-- Format R. -/
def encR (op : BitVec 4) (r : Bit) : Word := op ++ 0#3 ++ r ++ 0#24

/-- Format X. -/
def encX (op : BitVec 4) (r : Bit) (idx : BitVec 24) : Word := op ++ 0#3 ++ r ++ idx

/-- Format S. -/
def encS (op : BitVec 4) (bp : BitVec 5) : Word := op ++ bp ++ 0#23

/-- Formats B and V. -/
def encB (op : BitVec 4) (bp : BitVec 5) (blk : BitVec 23) : Word := op ++ bp ++ blk

/-- The command word of a command (R81, R83). -/
def encodeHead : Instr → Word
  | .load => encZ 0x1#4
  | .fft => encZ 0x2#4
  | .findf r _ => encR 0x3#4 r
  | .rdb r idx => encX 0x4#4 r idx
  | .wrb r idx _ _ => encX 0x5#4 r idx
  | .stat => encZ 0x6#4
  | .bitrev nb v => encB 0x7#4 nb v
  | .pinit => encZ 0x8#4
  | .sdec => encZ 0x9#4
  | .tdec => encZ 0xA#4
  | .rebind => encZ 0xB#4
  | .sstg bp => encS 0xC#4 bp
  | .tstg bp => encS 0xD#4 bp
  | .scomb bp blk => encB 0xE#4 bp blk
  | .tcomb bp blk => encB 0xF#4 bp blk

/-- The payload words of a command, in CMD order (R85). -/
def payload : Instr → List Word
  | .load => []
  | .fft => []
  | .findf _ fs => [fs]
  | .rdb _ _ => []
  | .wrb _ _ re im => [re, im]
  | .stat => []
  | .bitrev _ _ => []
  | .pinit => []
  | .sdec => []
  | .tdec => []
  | .rebind => []
  | .sstg _ => []
  | .tstg _ => []
  | .scomb _ _ => []
  | .tcomb _ _ => []

/-- All CMD words of a command. -/
def encode (i : Instr) : List Word := encodeHead i :: payload i

/-- The length of a command in CMD words (R88, column `len` of R83). -/
def cmdLength : Instr → Nat
  | .load => 1
  | .fft => 1
  | .findf _ _ => 2
  | .rdb _ _ => 1
  | .wrb _ _ _ _ => 3
  | .stat => 1
  | .bitrev _ _ => 1
  | .pinit => 1
  | .sdec => 1
  | .tdec => 1
  | .rebind => 1
  | .sstg _ => 1
  | .tstg _ => 1
  | .scomb _ _ => 1
  | .tcomb _ _ => 1

/-! ## The opcode table's numbering of bits -/

/-- The CMD words of an instruction whose bits are `w`, bit 0 the least significant bit of the first word, a later
word's bits counting on from it; bits from `nbits` up are zero. As many words as the opcode asks for (R88). -/
def tableWords (nbits w : Nat) : List Word :=
  let b := w % 2 ^ nbits
  let first := BitVec.ofNat 32 b
  [first, BitVec.ofNat 32 (b >>> 32), BitVec.ofNat 32 (b >>> 64)].take (opLength first)

/-- The command the decoder reads from an instruction whose bits are `w` (log entry 11). -/
def decodeTableWord (nbits w : Nat) : Option Instr :=
  match decode (tableWords nbits w) with
  | .whole i _ => some i
  | .partialCmd _ => none
  | .illegal _ => none
  | .empty => none

end Sys2Proof
end

