-- ==== Sys2Proof/Machine/State.lean ====
section
/-!
DEFINITION. The complete state of the unit (R20), the faults of R222, and the state after reset (R35, R250).
-/

namespace Sys2Proof.Machine

/-- One of the two `N`-element memories `BUF[b]` (R22): the elements that hold a Sample, as pairs of index and Sample,
indices strictly rising. An index that is not listed holds no value (R23); the smallest thing the unit addresses is a
whole element (R51, R53; log entry 2). -/
abbrev Memory (F : Type) := List (Nat × Sample F)

/-- The two physical Buffers (R22). -/
structure Bufs (F : Type) where
  buf0 : Memory F
  buf1 : Memory F
deriving DecidableEq, Repr

/-- The complete state of the unit: R20, with `CP` (R27), the build's `BW` (R29) and the sequencer (R35). -/
structure State where
  /-- The build's bit-width, a hardwired constant (R29, R33). No step writes it (log entry 1). -/
  bw : BitWidth
  /-- `BUF[0]` and `BUF[1]` (R22, R23). -/
  bufs : Bufs F32
  /-- `IN_SEL`: `BUF[IN_SEL]` is bound "input" (R24). -/
  inSel : Bit
  /-- `PAR`, the parity counter (R25). -/
  par : BitVec 8
  /-- `PKIDX`, index of the largest magnitude seen (R26). -/
  pkidx : BitVec 24
  /-- `PKMAG`, the largest magnitude seen (R26). -/
  pkmag : F32
  /-- CMD: words the host has sent and the unit has not taken, front first (R30). -/
  cmd : List Word
  /-- SMP: samples not yet taken, front first (R31). -/
  smp : List Half
  /-- RSP: words the unit has pushed and the host has not removed, oldest first (R32). -/
  rsp : List Word
  /-- The sequencer (R35): empty when idle; otherwise the words, already taken off CMD, of the command that waits for a
  payload word or for samples (R223; log entry 3). -/
  taken : List Word
  /-- `CP`, the number of CMD words taken so far (R27). -/
  cp : Nat
deriving DecidableEq, Repr

/-- Why the machine stops. The hardware reports none of these; each stands for behaviour the spec leaves undefined
(R221, R222). All three are safe: the model stops where real hardware would do something unstated. -/
inductive Fault where
  /-- Code 1. Raised by the step when a word taken as a command word is illegal (R87), with that word and its CP. Safe. -/
  | illegalCommand (w : Word) (pos : Nat)
  /-- Code 2. Raised by the step and by `RDB`, `WRB`, `SSTG`, `TSTG`, `SCOMB`, `TCOMB` when an operand is outside R84,
  with the command word and its CP. Safe. -/
  | operandRange (w : Word) (pos : Nat)
  /-- Code 3. Raised by `RDB`, `SCOMB`, `TCOMB`, `SSTG`, `TSTG`, `SDEC`, `TDEC`, `FFT`, `FINDF` on reading an element
  that holds no value (R56), with the physical Buffer and the index. Safe. -/
  | uninitRead (b : Bit) (i : Nat)
deriving DecidableEq, Repr

/-- Why an instruction has no meaning in the model. Every command has one, so nothing raises this. -/
inductive Refusal where
  /-- An arm of `exec` whose command is not modelled. Raised by no arm. Safe. -/
  | notModelled (mnemonic : String)
deriving DecidableEq, Repr

/-- The state after reset of a build of bit-width `bw` (R35, R250). -/
def State.resetAt (bw : BitWidth) : State :=
  { bw := bw
    bufs := ⟨[], []⟩
    inSel := 0#1
    par := 0#8
    pkidx := 0#24
    pkmag := 0#32
    cmd := []
    smp := []
    rsp := []
    taken := []
    cp := 0 }

/-- The state after reset of the reference build (R6, R35). -/
def State.reset : State := State.resetAt Config.referenceWidth

end Sys2Proof.Machine
end

