-- ==== Sys2Proof/Machine/Ops.lean ====
section
/-!
DEFINITION. The named operations over Buffers, streams and the sequencer that every meaning is built from, and what the
host may do to the unit. The spec describes no exception that software could take and no return from one (R220, R226,
R227), so no such operation stands here.
-/

namespace Sys2Proof.Machine

/-! ## Buffers (R22, R23, R56, R57) -/

/-- The Sample at an index, or `none` where the element holds no value (R23). -/
def Memory.read {F : Type} : Memory F → Nat → Option (Sample F)
  | [], _ => none
  | (k, v) :: rest, i => if k = i then some v else Memory.read rest i

/-- `BufWrite` (R57): the element holds `v` afterwards; nothing else changes. Keeps the indices strictly rising. -/
def Memory.write {F : Type} : Memory F → Nat → Sample F → Memory F
  | [], i, v => [(i, v)]
  | (k, u) :: rest, i, v =>
    if i < k then (i, v) :: (k, u) :: rest
    else if i = k then (i, v) :: rest
    else (k, u) :: Memory.write rest i v

/-- Indices strictly rise from `lo` on and stay below `n`. -/
def Memory.wfFrom {F : Type} (n : Nat) : Nat → Memory F → Bool
  | _, [] => true
  | lo, (k, _) :: rest => decide (lo ≤ k) && decide (k < n) && Memory.wfFrom n (k + 1) rest

/-- The canonical form of a Buffer of `n` elements: strictly rising indices below `n`. An index that is not listed holds
no value, so no entry can equal what an unlisted index reads as. -/
def Memory.wf {F : Type} (n : Nat) (m : Memory F) : Bool := Memory.wfFrom n 0 m

/-- The physical Buffer `BUF[b]` (R22). -/
def Bufs.get {F : Type} (m : Bufs F) (b : Bit) : Memory F := if b = 0#1 then m.buf0 else m.buf1

/-- Replace the contents of `BUF[b]`; the other Buffer is distinct storage (R22). -/
def Bufs.set {F : Type} (m : Bufs F) (b : Bit) (d : Memory F) : Bufs F :=
  if b = 0#1 then { m with buf0 := d } else { m with buf1 := d }

/-- `BufRead` (R56): the Sample bit for bit, or `UninitRead(b, i)`. -/
def bufRead {F : Type} (b : Bit) (m : Memory F) (i : Nat) : Except Fault (Sample F) :=
  match Memory.read m i with
  | some v => .ok v
  | none => .error (.uninitRead b i)

/-! ## Loops (R9: `for i in a..b`) -/

/-- `for i in start .. start + n − 1`, ascending, stopping at the first fault. -/
def loop {σ : Type} (body : Nat → σ → Except Fault σ) : (n start : Nat) → σ → Except Fault σ
  | 0, _, x => .ok x
  | n + 1, i, x =>
    match body i x with
    | .ok y => loop body n (i + 1) y
    | .error e => .error e

/-! ## CMD, SMP, RSP and the sequencer (R30 to R32, R35) -/

/-- The words of the command the unit stands at: those it has taken, then those still on CMD. -/
def State.window (s : State) : List Word := s.taken ++ s.cmd

/-- `CP` of the command word the unit stands at. -/
def State.cmdPos (s : State) : Nat := s.cp - s.taken.length

/-- A command of `n` words is complete: its words are off CMD, `CP` has passed them, the sequencer is idle (R27, R88). -/
def State.retire (s : State) (n : Nat) : State :=
  { s with taken := [], cmd := s.window.drop n, cp := s.cmdPos + n }

/-- The unit has taken the first `n` words of a command, as far as they are there, and waits (R30, R223). -/
def State.hold (s : State) (n : Nat) : State :=
  { s with
    taken := s.window.take n
    cmd := s.window.drop n
    cp := s.cmdPos + (s.window.take n).length }

/-- `RspPush`, one word after the other (R32). -/
def State.push (s : State) (ws : List Word) : State := { s with rsp := s.rsp ++ ws }

/-- Are there at least `n` words in a stream? -/
def hasAtLeast {α : Type} : Nat → List α → Bool
  | 0, _ => true
  | _ + 1, [] => false
  | n + 1, _ :: rest => hasAtLeast n rest

/-! ## Outcomes -/

/-- A computation that may fault, as the outcome of a step (R221). -/
def outcomeOf : Except Fault State → Host.Outcome State Fault Refusal
  | .ok s => .next s
  | .error e => .fault e

/-- The range check of R84, before any state change (R91): `OperandRange` with the command word and its CP, or go on. -/
def ranged (i : Instr) (s : State) (k : Host.Outcome State Fault Refusal) : Host.Outcome State Fault Refusal :=
  if i.wf s.bw then k else .fault (.operandRange (encodeHead i) s.cmdPos)

/-! ## What a step does when it runs no command -/

/-- CMD is empty at a command boundary: the unit is idle (R223, R229; log entry 3). -/
def idleStep (s : State) : Host.Outcome State Fault Refusal := .next s

/-- A word taken as a command word is illegal (R87, R222). -/
def illegalStep (w : Word) (s : State) : Host.Outcome State Fault Refusal :=
  .fault (.illegalCommand w s.cmdPos)

/-- A legal command word whose payload words have not all arrived: the range check, then the unit takes what is there and
waits (R88, R91, R223, R224). -/
def awaitStep (i : Instr) (s : State) : Host.Outcome State Fault Refusal :=
  ranged i s (.next (s.hold s.window.length))

/-! ## What the host may do between steps (R262, R250) -/

/-- The host appends words to CMD (R30). -/
def State.pushCmd (s : State) (ws : List Word) : State := { s with cmd := s.cmd ++ ws }

/-- The host appends samples to SMP (R31). -/
def State.pushSmp (s : State) (ns : List Half) : State := { s with smp := s.smp ++ ns }

/-- The host removes up to `n` words from the front of RSP (R32). -/
def State.popRsp (s : State) (n : Nat) : State := { s with rsp := s.rsp.drop n }

/-- The reset input: any running command is abandoned, the build stays what it is (R35, R250). -/
def State.hostReset (s : State) : State := State.resetAt s.bw

/-- Lay an instruction numbered as the opcode table numbers it at the front of CMD, at a command boundary. -/
def State.placeCommand (s : State) (nbits w : Nat) : State :=
  { s with taken := [], cmd := tableWords nbits w ++ s.cmd }

end Sys2Proof.Machine
end

