-- ==== Sys2Proof/Machine/Operands.lean ====
section
/-!
DEFINITION. The addressing forms of R59: the role selector (R52), the block geometry of a stage (R145), bit reversal
(R140) and the twiddle ROM address (R147).
-/

namespace Sys2Proof.Machine

/-- `phys(r) = IN_SEL xor r` (R52). -/
def phys (inSel r : Bit) : Bit := inSel ^^^ r

/-- `rev(v, nb)`: the `nb` low bits of `v` in reverse order (R140), by `rev(v, nb + 1) = 2·rev(v, nb) + v[nb]`. -/
def rev (v : Nat) : Nat → Nat
  | 0 => 0
  | nb + 1 => 2 * rev v nb + v / 2 ^ nb % 2

/-- `M = N >> bp`, the block size of stage `bp` (R145). -/
def blockSize (bw : BitWidth) (bp : Nat) : Nat := bw.size >>> bp

/-- `base = blk · M`, the block offset (R145). -/
def blockBase (bw : BitWidth) (bp blk : Nat) : Nat := blk * blockSize bw bp

/-- `t = rev(blk, bp) << (BW − 1 − bp)`, the ROM address of a block (R147). -/
def twiddleIndex (bw : BitWidth) (bp blk : Nat) : Nat := rev blk bp <<< (bw.val - 1 - bp)

end Sys2Proof.Machine
end

