-- ==== Sys2Proof/Machine/Bitrev.lean ====
section
/-!
DEFINITION. The bit-reversal utility as a command: `BITREV` (R141).
-/

namespace Sys2Proof.Machine

/-- `BITREV nb, v` (R141). -/
def execBitrev (nb : BitVec 5) (v : BitVec 23) (s : State) : Host.Outcome State Fault Refusal :=
  .next ((s.push [BitVec.ofNat 32 (rev v.toNat nb.toNat)]).retire 1)

end Sys2Proof.Machine
end

