-- ==== Sys2Proof/Machine/Flags.lean ====
section
/-!
DEFINITION. The unit has no condition codes and no floating-point flags (R28, R127). Its only single-bit status is
`IN_SEL` and `PAR[0]`: here is what reads and sets them, and the status word of `STAT` (R29).
-/

namespace Sys2Proof.Machine

/-- `PAR[0]`: the physical Buffer that is source of the next stage (R25, R145). -/
def sourceOf (par : BitVec 8) : Bit := par.extractLsb' 0 1

/-- `1 − PAR[0]`: the destination (R145). -/
def destOf (par : BitVec 8) : Bit := ~~~ sourceOf par

/-- `PAR + 1 mod 256` (R25, R161). -/
def nextPar (par : BitVec 8) : BitVec 8 := par + 1#8

/-- `zext_8(IN_SEL)` (R175). -/
def initialPar (inSel : Bit) : BitVec 8 := inSel.setWidth 8

/-- `NOT PAR[0]`, the new `IN_SEL` (R179). -/
def reboundInSel (par : BitVec 8) : Bit := ~~~ sourceOf par

/-- `zext_32(1 − IN_SEL)`: the physical index of the Buffer bound "output" (R86, R177). -/
def outputWord (inSel : Bit) : Word := (~~~ inSel).setWidth 32

/-- The status word `{0[31:21], BW[4:0], PAR[7:0], 0[7:1], IN_SEL}` (R29, R208). -/
def statusWord (bw : BitWidth) (par : BitVec 8) (inSel : Bit) : Word :=
  0#11 ++ BitVec.ofNat 5 bw.val ++ par ++ 0#7 ++ inSel

end Sys2Proof.Machine
end

