-- ==== Sys2Proof/Machine/Numerics.lean ====
section
/-!
DEFINITION. The numeric primitives (R110 to R123): binary32 arithmetic rounded once to nearest, ties to even, computed
exactly on integers and then narrowed; the complex primitives over any `Num`; the twiddle ROM.
-/

namespace Sys2Proof.Machine

/-! ## The format (R110) -/

/-- The sign bit, bit 31. -/
def f32Neg (a : F32) : Bool := decide (2 ^ 31 ≤ a.toNat)

/-- The biased exponent, bits 30:23. -/
def f32Exp (a : F32) : Nat := a.toNat / 2 ^ 23 % 2 ^ 8

/-- The fraction, bits 22:0. -/
def f32Frac (a : F32) : Nat := a.toNat % 2 ^ 23

/-- Exponent 255, fraction not 0. -/
def isNaN (a : F32) : Bool := f32Exp a == 255 && f32Frac a != 0

/-- Exponent 255, fraction 0. -/
def isInf (a : F32) : Bool := f32Exp a == 255 && f32Frac a == 0

/-- The magnitude of a number in units of `2^-149`, the smallest subnormal. (An infinity comes out above every finite
number, which is what a comparison needs.) -/
def f32Mag (a : F32) : Nat :=
  if f32Exp a = 0 then f32Frac a else (2 ^ 23 + f32Frac a) * 2 ^ (f32Exp a - 1)

/-- The signed value in units of `2^-149`. -/
def f32Val (a : F32) : Int := if f32Neg a then -(f32Mag a : Int) else (f32Mag a : Int)

/-- The pattern of `+inf`. -/
def infBits : Nat := 255 * 2 ^ 23

/-- A sign and the 31 bits below it. -/
def packF32 (neg : Bool) (bits : Nat) : F32 := BitVec.ofNat 32 ((if neg then 2 ^ 31 else 0) + bits)

/-- The NaN of a draw: its sign and fraction, with exponent 255; a zero fraction becomes 1, so that it is a NaN. -/
def nanOfDraw (d : BitVec 32) : F32 :=
  packF32 (f32Neg d) (infBits + if f32Frac d = 0 then 1 else f32Frac d)

/-- The NaN an operation at a site produces: sign and payload are free (R111, U6; log entry 5). -/
def nanAt (site : Site) : F32 := nanOfDraw (Config.freeNaN site)

/-! ## Rounding (R111) -/

/-- Round half to even: the natural nearest to `a / d` (`d > 0`). -/
def nearestEven (a d : Nat) : Nat :=
  if 2 * (a % d) > d ∨ (2 * (a % d) = d ∧ a / d % 2 = 1) then a / d + 1 else a / d

/-- The 31 low bits of the binary32 number nearest to `a / d` units of `2^-149` (`d > 0`), ties to even, overflow to
infinity. The quantum is `2^k` units, `k = 0` for subnormal results (gradual underflow, R110); `k·2^23 + n` is the
pattern of `n` quanta, a carry into the exponent included. -/
def roundUnits (a d : Nat) : Nat :=
  let k := (a / d).log2 - 23
  min (k * 2 ^ 23 + nearestEven a (d * 2 ^ k)) infBits

/-- The integer square root of `x`, bit by bit from bit `b − 1` down, on top of `r`. -/
def isqrtBits : (b x r : Nat) → Nat
  | 0, _, r => r
  | b + 1, x, r => isqrtBits b x (if (r + 2 ^ b) * (r + 2 ^ b) ≤ x then r + 2 ^ b else r)

/-- The 31 low bits of the binary32 number nearest to the square root of `m` units of `2^-149`, ties to even (`m > 0`).
`x = m·2^149` is the square of the root in units; `q` is the root in quanta of `2^k` units, rounded down. -/
def sqrtUnits (m : Nat) : Nat :=
  let x := m * 2 ^ 149
  let k := x.log2 / 2 - 23
  let q := isqrtBits 24 (x / 4 ^ k) 0
  let mid := (2 * q + 1) * (2 * q + 1) * 4 ^ k
  k * 2 ^ 23 + if 4 * x > mid ∨ (4 * x = mid ∧ q % 2 = 1) then q + 1 else q

/-! ## Scalar primitives (R112 to R119) -/

/-- `negate` flips bit 31 (R113). -/
def f32Negate (a : F32) : F32 := a ^^^ 0x80000000#32

/-- `fadd` (R112): `RNE(a + b)`; an exact zero sum is `-0` only when both operands are `-0`. -/
def f32Add (site : Site) (a b : F32) : F32 :=
  if isNaN a || isNaN b then nanAt site
  else if isInf a then (if isInf b && f32Neg a != f32Neg b then nanAt site else a)
  else if isInf b then b
  else if f32Val a + f32Val b = 0 then packF32 (f32Neg a && f32Neg b) 0
  else packF32 (decide (f32Val a + f32Val b < 0)) (roundUnits (f32Val a + f32Val b).natAbs 1)

/-- `fsub` (R113): the same as `fadd(a, negate(b))`. -/
def f32Sub (site : Site) (a b : F32) : F32 := f32Add site a (f32Negate b)

/-- `fmul` (R114): `RNE(a × b)`, sign the exclusive or of the signs; `inf × 0` is invalid. -/
def f32Mul (site : Site) (a b : F32) : F32 :=
  if isNaN a || isNaN b then nanAt site
  else if isInf a || isInf b then
    (if f32Mag a = 0 || f32Mag b = 0 then nanAt site else packF32 (f32Neg a ^^ f32Neg b) infBits)
  else packF32 (f32Neg a ^^ f32Neg b) (roundUnits (f32Mag a * f32Mag b) (2 ^ 149))

/-- `fdiv` (R115): `RNE(a ÷ b)`; `inf ÷ inf` and `0 ÷ 0` are invalid, a finite number divided by an infinity is a zero,
a number other than zero divided by zero is an infinity (R111, R115). -/
def f32Div (site : Site) (a b : F32) : F32 :=
  if isNaN a || isNaN b then nanAt site
  else if isInf a then (if isInf b then nanAt site else packF32 (f32Neg a ^^ f32Neg b) infBits)
  else if isInf b then packF32 (f32Neg a ^^ f32Neg b) 0
  else if f32Mag b = 0 then
    (if f32Mag a = 0 then nanAt site else packF32 (f32Neg a ^^ f32Neg b) infBits)
  else packF32 (f32Neg a ^^ f32Neg b) (roundUnits (f32Mag a * 2 ^ 149) (f32Mag b))

/-- `fsqrt` (R116): `RNE(√a)`; a zero is its own root (of `-0` PRESUMED, IEEE 754; never met, log entry 6); a negative
number other than zero is invalid. -/
def f32Sqrt (site : Site) (a : F32) : F32 :=
  if isNaN a then nanAt site
  else if f32Mag a = 0 then a
  else if f32Neg a then nanAt site
  else if isInf a then a
  else packF32 false (sqrtUnits (f32Mag a))

/-- `fge` (R117): the quiet `a ≥ b`, false on a NaN; `-0` and `+0` are equal. -/
def f32Ge (a b : F32) : Bool := !isNaN a && !isNaN b && decide (f32Val b ≤ f32Val a)

/-- `itof` (R119): the number `n`, exact for `n ≤ 2^24`. -/
def f32OfNat (n : Nat) : F32 := packF32 false (roundUnits (n * 2 ^ 149) 1)

/-- `u16tof` (R118): the value of an unsigned sample, exact. -/
def f32OfHalf (n : Half) : F32 := f32OfNat n.toNat

/-! ## The twiddle ROM (R122)

Entry `t` is `(RNE(cos(2πt/N)), RNE(−sin(2πt/N)))`. The angle is folded into the first octant, where cosine and sine are
summed in fixed point with 128 fraction bits; `u = 0` gives 1 and 0 exactly, which the fold carries to every exact entry.
Log entry 7 says how the correct rounding of every entry of every build was checked. -/

/-- `π` in fixed point with 128 fraction bits, rounded down. -/
def piFixed : Nat := 0x3243F6A8885A308D313198A2E03707344

/-- `1` in fixed point with 128 fraction bits. -/
def oneFixed : Nat := 2 ^ 128

/-- Horner's sum `1 − x²/(p(p+1))·(1 − x²/((p+2)(p+3))·(…))` of `n` terms with `p = 2k − 1 + off`: `off = 0` is the
cosine series, `off = 1` the sine series divided by `x`. `x2` is `x²` in fixed point. -/
def hornerFixed (x2 off : Nat) : (n k : Nat) → Nat
  | 0, _ => oneFixed
  | n + 1, k =>
    oneFixed - x2 * hornerFixed x2 off n (k + 1) / 2 ^ 128 / ((2 * k - 1 + off) * (2 * k + off))

/-- The angle `2πu/N` in fixed point. -/
def angleFixed (bw : BitWidth) (u : Nat) : Nat := piFixed * 2 * u / bw.size

/-- `x²` of that angle in fixed point. -/
def angleSquared (bw : BitWidth) (u : Nat) : Nat := angleFixed bw u * angleFixed bw u / 2 ^ 128

/-- `cos(2πu/N)` in fixed point, for an angle in the first octant. -/
def cosFixed (bw : BitWidth) (u : Nat) : Nat := hornerFixed (angleSquared bw u) 0 20 1

/-- `sin(2πu/N)` in fixed point, for an angle in the first octant. -/
def sinFixed (bw : BitWidth) (u : Nat) : Nat :=
  angleFixed bw u * hornerFixed (angleSquared bw u) 1 20 1 / 2 ^ 128

/-- The binary32 number nearest to a fixed-point magnitude, at most 1 (`0x3F800000`); a zero is `+0` (R122). -/
def roundFixed (neg : Bool) (v : Nat) : F32 :=
  packF32 (neg && v != 0) (min (roundUnits (v * 2 ^ 21) 1) 0x3F800000)

/-- `TW[t]` (R122), for `t < N/2`. -/
def twiddle (bw : BitWidth) (t : Nat) : Sample F32 :=
  if 8 * t ≤ bw.size then
    ⟨roundFixed false (cosFixed bw t), roundFixed true (sinFixed bw t)⟩
  else if 8 * t ≤ 2 * bw.size then
    ⟨roundFixed false (sinFixed bw (bw.size / 4 - t)), roundFixed true (cosFixed bw (bw.size / 4 - t))⟩
  else if 8 * t ≤ 3 * bw.size then
    ⟨roundFixed true (sinFixed bw (t - bw.size / 4)), roundFixed true (cosFixed bw (t - bw.size / 4))⟩
  else
    ⟨roundFixed true (cosFixed bw (bw.size / 2 - t)), roundFixed true (sinFixed bw (bw.size / 2 - t))⟩

/-- The hardware instance of `NUM` (R125): rules R110 to R123. -/
def binary32 : Num F32 :=
  { zero := 0#32
    fadd := f32Add
    fsub := f32Sub
    fmul := f32Mul
    fdiv := f32Div
    fsqrt := f32Sqrt
    fge := f32Ge
    u16tof := f32OfHalf
    itof := f32OfNat
    tw := twiddle }

/-! ## Complex primitives over any numerics (R120, R121, R123) -/

/-- `cadd` (R120). Operations `k`, `k + 1` of the site. -/
def cadd {F : Type} (num : Num F) (site : Site) (k : Nat) (a p : Sample F) : Sample F :=
  ⟨num.fadd (site.nth k) a.re p.re, num.fadd (site.nth (k + 1)) a.im p.im⟩

/-- `csub` (R120). Operations `k`, `k + 1` of the site. -/
def csub {F : Type} (num : Num F) (site : Site) (k : Nat) (a p : Sample F) : Sample F :=
  ⟨num.fsub (site.nth k) a.re p.re, num.fsub (site.nth (k + 1)) a.im p.im⟩

/-- `cmul(b, W)` (R121): four products, one subtraction, one addition, each rounded. Operations 0 to 5 of the site. -/
def cmul {F : Type} (num : Num F) (site : Site) (b w : Sample F) : Sample F :=
  ⟨num.fsub (site.nth 4) (num.fmul (site.nth 0) b.re w.re) (num.fmul (site.nth 1) b.im w.im),
   num.fadd (site.nth 5) (num.fmul (site.nth 2) b.re w.im) (num.fmul (site.nth 3) b.im w.re)⟩

/-- `cabs` (R123): the root of the sum of the squares, unscaled. Operations 0 to 3 of the site. -/
def cabs {F : Type} (num : Num F) (site : Site) (v : Sample F) : F :=
  num.fsqrt (site.nth 3)
    (num.fadd (site.nth 2) (num.fmul (site.nth 0) v.re v.re) (num.fmul (site.nth 1) v.im v.im))

end Sys2Proof.Machine
end

