-- ==== Sys2Proof/Machine/Loader.lean ====
section
/-!
DEFINITION. The real-input loader and element access: `LOAD` (R190), `RDB` (R191), `WRB` (R192).
-/

namespace Sys2Proof.Machine

/-- Write samples to ascending indices from `i` on, each as `(u16tof(n), +0.0)` (R190). -/
def loadFrom {F : Type} (num : Num F) : List Half → Nat → Memory F → Memory F
  | [], _, m => m
  | n :: ns, i, m => loadFrom num ns (i + 1) (Memory.write m i ⟨num.u16tof n, num.zero⟩)

/-- `LOAD` (R190). With fewer than `N` samples on SMP the unit has taken the command word and waits (R223). -/
def execLoad (s : State) : Host.Outcome State Fault Refusal :=
  if hasAtLeast s.bw.size s.smp then
    .next ({ s with
      bufs := s.bufs.set s.inSel (loadFrom binary32 (s.smp.take s.bw.size) 0 (s.bufs.get s.inSel))
      smp := s.smp.drop s.bw.size }.retire 1)
  else .next (s.hold 1)

/-- `RDB r, idx` (R191). -/
def execRdb (r : Bit) (idx : BitVec 24) (s : State) : Host.Outcome State Fault Refusal :=
  ranged (.rdb r idx) s
    (match bufRead (phys s.inSel r) (s.bufs.get (phys s.inSel r)) idx.toNat with
     | .ok v => .next ((s.push [v.re, v.im]).retire 1)
     | .error e => .fault e)

/-- `WRB r, idx, re, im` (R192). -/
def execWrb (r : Bit) (idx : BitVec 24) (re im : F32) (s : State) : Host.Outcome State Fault Refusal :=
  ranged (.wrb r idx re im) s
    (.next ({ s with
      bufs := s.bufs.set (phys s.inSel r)
        (Memory.write (s.bufs.get (phys s.inSel r)) idx.toNat ⟨re, im⟩) }.retire 3))

end Sys2Proof.Machine
end

