-- ==== Sys2Proof/Machine/Peak.lean ====
section
/-!
DEFINITION. The spectral magnitude accumulator and peak detector, over any numerics (R125): `FINDF` (R205), and the
status command `STAT` (R208).
-/

namespace Sys2Proof.Machine

/-- What the peak finder works on: the Buffer it scans and the peak registers (R26, R205). -/
structure Peak (F : Type) where
  mem : Memory F
  pkidx : BitVec 24
  pkmag : F
deriving DecidableEq, Repr

/-- One visited bin: its magnitude replaces it as `(m, +0.0)`, and becomes the peak if it is at least the peak so far
(R205). -/
def peakBin {F : Type} (num : Num F) (pos : Nat) (b : Bit) (i : Nat) (x : Peak F) : Except Fault (Peak F) :=
  match bufRead b x.mem i with
  | .error e => .error e
  | .ok v =>
    let m := cabs num ⟨pos, 0, 0, i, 0⟩ v
    if num.fge m x.pkmag then .ok ⟨Memory.write x.mem i ⟨m, num.zero⟩, BitVec.ofNat 24 i, m⟩
    else .ok ⟨Memory.write x.mem i ⟨m, num.zero⟩, x.pkidx, x.pkmag⟩

/-- Bins `1 .. N/2 − 1`, ascending, from `PKIDX = 0` and `PKMAG = +0.0` (R205). -/
def peakScan {F : Type} (num : Num F) (bw : BitWidth) (pos : Nat) (b : Bit) (m : Memory F) : Except Fault (Peak F) :=
  loop (peakBin num pos b) (bw.size / 2 - 1) 1 ⟨m, 0#24, num.zero⟩

/-- `fdiv(fmul(fs, itof(PKIDX)), itof(N))` (R205, R207). Lane 0 is no visited bin, so the sites are its own. -/
def frequency {F : Type} (num : Num F) (bw : BitWidth) (pos : Nat) (fs : F) (pkidx : BitVec 24) : F :=
  num.fdiv ⟨pos, 0, 0, 0, 1⟩ (num.fmul ⟨pos, 0, 0, 0, 0⟩ fs (num.itof pkidx.toNat)) (num.itof bw.size)

/-- `FINDF r, fs` (R205). -/
def execFindf (r : Bit) (fs : F32) (s : State) : Host.Outcome State Fault Refusal :=
  match peakScan binary32 s.bw s.cmdPos (phys s.inSel r) (s.bufs.get (phys s.inSel r)) with
  | .ok x =>
    .next ((({ s with bufs := s.bufs.set (phys s.inSel r) x.mem, pkidx := x.pkidx, pkmag := x.pkmag }).push
      [frequency binary32 s.bw s.cmdPos fs x.pkidx]).retire 2)
  | .error e => .fault e

/-- `STAT` (R208). -/
def execStat (s : State) : Host.Outcome State Fault Refusal :=
  .next ((s.push [statusWord s.bw s.par s.inSel, s.pkidx.setWidth 32, s.pkmag]).retire 1)

end Sys2Proof.Machine
end

