-- ==== Sys2Proof/Machine/Butterfly.lean ====
section
/-!
DEFINITION. The butterfly primitives: `SCOMB` (R146) and `TCOMB` (R148), over any numerics (R125), and the two commands.
-/

namespace Sys2Proof.Machine

/-- The two combine operations (R146, R148). -/
inductive Combine where
  /-- Straight combine: even/odd de-interleave, no arithmetic. -/
  | straight
  /-- Twiddle combine: the radix-2 butterfly. -/
  | twiddle
deriving DecidableEq, Repr

/-- The two Samples butterfly `lane` of block `blk` of stage `bp` writes, lower half first, from its even and odd source
elements (R146, R148). The product is computed once and used for both outputs. -/
def butterfly {F : Type} (num : Num F) (kind : Combine) (bw : BitWidth) (pos bp blk lane : Nat)
    (a b : Sample F) : Sample F × Sample F :=
  match kind with
  | .straight => (a, b)
  | .twiddle =>
    let site : Site := ⟨pos, bp, blk, lane, 0⟩
    let p := cmul num site b (num.tw bw (twiddleIndex bw bp blk))
    (cadd num site 6 a p, csub num site 8 a p)

/-- One butterfly of a block with offset `base` and half size `half`: read elements `base + 2i`, `base + 2i + 1` of the
source `BUF[b]`, write elements `base + i`, `base + half + i` of the destination (R59, R146, R148). -/
def butterflyStep {F : Type} (f : Nat → Sample F → Sample F → Sample F × Sample F) (b : Bit) (src : Memory F)
    (base half i : Nat) (dst : Memory F) : Except Fault (Memory F) :=
  match bufRead b src (base + 2 * i) with
  | .error e => .error e
  | .ok x =>
    match bufRead b src (base + 2 * i + 1) with
    | .error e => .error e
    | .ok y => .ok (Memory.write (Memory.write dst (base + i) (f i x y).1) (base + half + i) (f i x y).2)

/-- One combine: the destination Buffer after block `blk` of stage `bp` (R145, R146, R148). -/
def combineBlock {F : Type} (num : Num F) (kind : Combine) (bw : BitWidth) (pos bp : Nat) (b : Bit) (src : Memory F)
    (blk : Nat) (dst : Memory F) : Except Fault (Memory F) :=
  loop (butterflyStep (butterfly num kind bw pos bp blk) b src (blockBase bw bp blk) (blockSize bw bp / 2))
    (blockSize bw bp / 2) 0 dst

/-- `SCOMB` and `TCOMB`: one block from `BUF[PAR[0]]` to `BUF[1 − PAR[0]]`; `PAR` is not changed (R146, R148). -/
def runCombine (kind : Combine) (bp : BitVec 5) (blk : BitVec 23) (s : State) : Except Fault State :=
  match combineBlock binary32 kind s.bw s.cmdPos bp.toNat (sourceOf s.par) (s.bufs.get (sourceOf s.par)) blk.toNat
      (s.bufs.get (destOf s.par)) with
  | .ok d => .ok ({ s with bufs := s.bufs.set (destOf s.par) d }.retire 1)
  | .error e => .error e

/-- `SCOMB bp, blk` (R146). -/
def execScomb (bp : BitVec 5) (blk : BitVec 23) (s : State) : Host.Outcome State Fault Refusal :=
  ranged (.scomb bp blk) s (outcomeOf (runCombine .straight bp blk s))

/-- `TCOMB bp, blk` (R148). -/
def execTcomb (bp : BitVec 5) (blk : BitVec 23) (s : State) : Host.Outcome State Fault Refusal :=
  ranged (.tcomb bp blk) s (outcomeOf (runCombine .twiddle bp blk s))

end Sys2Proof.Machine
end

