-- ==== Sys2Proof/Machine/Decimation.lean ====
section
/-!
DEFINITION. The decimation driver: one stage (R160 to R162) and a whole decimation (R163, R164), over any numerics
(R125), and the commands `SSTG`, `TSTG`, `SDEC`, `TDEC`.
-/

namespace Sys2Proof.Machine

/-- What the decimation driver works on: the Buffers and the parity counter. -/
structure Pipeline (F : Type) where
  bufs : Bufs F
  par : BitVec 8
deriving DecidableEq, Repr

/-- One stage `bp`: every block of `BUF[PAR[0]]`, ascending, into `BUF[1 − PAR[0]]`, then `PAR + 1` (R160 to R162). -/
def stage {F : Type} (num : Num F) (kind : Combine) (bw : BitWidth) (pos bp : Nat) (x : Pipeline F) :
    Except Fault (Pipeline F) :=
  match loop (combineBlock num kind bw pos bp (sourceOf x.par) (x.bufs.get (sourceOf x.par))) (2 ^ bp) 0
      (x.bufs.get (destOf x.par)) with
  | .ok d => .ok ⟨x.bufs.set (destOf x.par) d, nextPar x.par⟩
  | .error e => .error e

/-- Stages `0 .. count − 1`, ascending, each after the previous one (R163, R164, C1). -/
def decimate {F : Type} (num : Num F) (kind : Combine) (bw : BitWidth) (pos count : Nat) (x : Pipeline F) :
    Except Fault (Pipeline F) :=
  loop (stage num kind bw pos) count 0 x

/-- Straight decimation: `BW − 1` stages (R163). -/
def straightDecimation {F : Type} (num : Num F) (bw : BitWidth) (pos : Nat) (x : Pipeline F) :
    Except Fault (Pipeline F) :=
  decimate num .straight bw pos (bw.val - 1) x

/-- Twiddle decimation: `BW` stages (R164). -/
def twiddleDecimation {F : Type} (num : Num F) (bw : BitWidth) (pos : Nat) (x : Pipeline F) :
    Except Fault (Pipeline F) :=
  decimate num .twiddle bw pos bw.val x

/-- The Buffers and `PAR` of the machine. -/
def State.pipeline (s : State) : Pipeline F32 := ⟨s.bufs, s.par⟩

/-- Write the Buffers and `PAR` back. -/
def State.setPipeline (s : State) (x : Pipeline F32) : State := { s with bufs := x.bufs, par := x.par }

/-- A command of one word that transforms Buffers and `PAR` and nothing else (R161 to R164). -/
def runPipeline (f : Pipeline F32 → Except Fault (Pipeline F32)) (s : State) : Except Fault State :=
  match f s.pipeline with
  | .ok x => .ok ((s.setPipeline x).retire 1)
  | .error e => .error e

/-- `SSTG bp` (R161). -/
def execSstg (bp : BitVec 5) (s : State) : Host.Outcome State Fault Refusal :=
  ranged (.sstg bp) s (outcomeOf (runPipeline (stage binary32 .straight s.bw s.cmdPos bp.toNat) s))

/-- `TSTG bp` (R162). -/
def execTstg (bp : BitVec 5) (s : State) : Host.Outcome State Fault Refusal :=
  ranged (.tstg bp) s (outcomeOf (runPipeline (stage binary32 .twiddle s.bw s.cmdPos bp.toNat) s))

/-- `SDEC` (R163). -/
def execSdec (s : State) : Host.Outcome State Fault Refusal :=
  outcomeOf (runPipeline (straightDecimation binary32 s.bw s.cmdPos) s)

/-- `TDEC` (R164). -/
def execTdec (s : State) : Host.Outcome State Fault Refusal :=
  outcomeOf (runPipeline (twiddleDecimation binary32 s.bw s.cmdPos) s)

end Sys2Proof.Machine
end

