-- ==== Sys2Proof/Machine/Transform.lean ====
section
/-!
DEFINITION. The transform orchestrator: `PINIT` (R175), `REBIND` (R179), the transform over any numerics (R125, R177),
and `FFT`.
-/

namespace Sys2Proof.Machine

/-- `PINIT` (R175). -/
def execPinit (s : State) : Host.Outcome State Fault Refusal :=
  .next ({ s with par := initialPar s.inSel }.retire 1)

/-- `REBIND` (R179). -/
def execRebind (s : State) : Host.Outcome State Fault Refusal :=
  .next ({ s with inSel := reboundInSel s.par }.retire 1)

/-- What `FFT` does to the Buffers and `PAR`: `PINIT`, `SDEC`, `TDEC`, `SDEC` (R177). The data read is in `BUF[inSel]`;
the spectrum ends in `BUF[PAR[0]]`. -/
def transform {F : Type} (num : Num F) (bw : BitWidth) (pos : Nat) (inSel : Bit) (m : Bufs F) :
    Except Fault (Pipeline F) :=
  match straightDecimation num bw pos ⟨m, initialPar inSel⟩ with
  | .error e => .error e
  | .ok x =>
    match twiddleDecimation num bw pos x with
    | .error e => .error e
    | .ok y => straightDecimation num bw pos y

/-- `FFT` (R177): the transform, then the effect of `REBIND`, then the response with the new `IN_SEL`. -/
def execFft (s : State) : Host.Outcome State Fault Refusal :=
  match transform binary32 s.bw s.cmdPos s.inSel s.bufs with
  | .ok x =>
    .next ((({ s with bufs := x.bufs, par := x.par, inSel := reboundInSel x.par }).push
      [outputWord (reboundInSel x.par)]).retire 1)
  | .error e => .fault e

end Sys2Proof.Machine
end

