-- ==== Sys2Proof/Machine/Dispatch.lean ====
section
/-!
DEFINITION. The dispatch of a decoded command to its meaning, one arm per row of the opcode map (R83).
-/

namespace Sys2Proof.Machine

def exec (i : Instr) (s : State) : Host.Outcome State Fault Refusal :=
  match i with
  | .load => Sys2Proof.Machine.execLoad s
  | .fft => Sys2Proof.Machine.execFft s
  | .findf r fs => Sys2Proof.Machine.execFindf r fs s
  | .rdb r idx => Sys2Proof.Machine.execRdb r idx s
  | .wrb r idx re im => Sys2Proof.Machine.execWrb r idx re im s
  | .stat => Sys2Proof.Machine.execStat s
  | .bitrev nb v => Sys2Proof.Machine.execBitrev nb v s
  | .pinit => Sys2Proof.Machine.execPinit s
  | .sdec => Sys2Proof.Machine.execSdec s
  | .tdec => Sys2Proof.Machine.execTdec s
  | .rebind => Sys2Proof.Machine.execRebind s
  | .sstg bp => Sys2Proof.Machine.execSstg bp s
  | .tstg bp => Sys2Proof.Machine.execTstg bp s
  | .scomb bp blk => Sys2Proof.Machine.execScomb bp blk s
  | .tcomb bp blk => Sys2Proof.Machine.execTcomb bp blk s

end Sys2Proof.Machine
end

