-- ==== Sys2Proof/Machine/Step.lean ====
section
/-!
DEFINITION. One step of the unit: decode what stands at the front of CMD and run it (R10, R91). Everything a step does is
a named operation of another file.
-/

namespace Sys2Proof.Machine

/-- One step (R10, R91, R223): a whole command runs; a command that lacks a word waits; an empty CMD leaves the unit idle;
an illegal word is a fault. -/
def step (s : State) : Host.Outcome State Fault Refusal :=
  match decode s.window with
  | .empty => idleStep s
  | .illegal w => illegalStep w s
  | .partialCmd i => awaitStep i s
  | .whole i _ => exec i s

/-- `s` with an instruction, numbered as the opcode table numbers it, at the front of CMD at a command boundary, so that
`step` runs it (log entry 11). -/
def State.withFetchWord (s : State) (nbits w : Nat) : State := s.placeCommand nbits w

end Sys2Proof.Machine
end

