-- ==== Sys2Proof/Ideal.lean ====
section
/-!
DEFINITION. The ideal instance of the numerics (R125): the real numbers with exact operations, and the discrete Fourier
transform it is compared with (R166, R180). No step of the machine uses it.
-/

namespace Sys2Proof

/-- The ideal instance of `NUM` (R125): `F32` replaced by the reals, every primitive by the exact operation, `TW[t]` by
`exp(−j·2π·t/N)`. -/
noncomputable def ideal : Num ℝ :=
  { zero := 0
    fadd := fun _ a b => a + b
    fsub := fun _ a b => a - b
    fmul := fun _ a b => a * b
    fdiv := fun _ a b => a / b
    fsqrt := fun _ a => Real.sqrt a
    fge := fun a b => @decide (b ≤ a) (Classical.propDecidable _)
    u16tof := fun n => (n.toNat : ℝ)
    itof := fun n => (n : ℝ)
    tw := fun bw t =>
      ⟨Real.cos (2 * Real.pi * t / bw.size), -Real.sin (2 * Real.pi * t / bw.size)⟩ }

/-- A real Sample as a complex number. -/
noncomputable def toComplex (v : Sample ℝ) : ℂ := ⟨v.re, v.im⟩

/-- `X[k] = Σ x[m]·exp(−j·2π·m·k/n)`, `m` from 0 to `n − 1`: the unnormalised forward transform (R166, R180). -/
noncomputable def dft (n : Nat) (x : Nat → ℂ) (k : Nat) : ℂ :=
  ∑ m ∈ Finset.range n, x m * Complex.exp (-(2 * Real.pi * m * k / n : ℝ) * Complex.I)

end Sys2Proof
end

