-- ==== Sys2Proof/Safety.lean ====
section
/-!
DEFINITION. What counts as a safe state and a safe run, in the terms the statements use: the invariant of R36, waiting
and final states (R223, R263), what a command leaves unchanged, and what "rounded to nearest" means (R111).
-/

namespace Sys2Proof.Machine

/-! ## The invariant -/

/-- The sequencer is idle, or has taken the words of a legal command that lacks a payload word, or of a `LOAD` (R35,
R91, R223). -/
def State.sequencerOk (s : State) : Bool :=
  match decode s.taken with
  | .empty => true
  | .illegal _ => false
  | .partialCmd i => i.wf s.bw
  | .whole i rest => i == .load && rest == []

/-- What every step keeps: the Buffers are in canonical form with indices below `N` (R22), `PKIDX < N/2` and `PKMAG` is
neither NaN nor negative (R36), `CP` counts the words taken (R27), and the sequencer is consistent. -/
def State.wf (s : State) : Bool :=
  Memory.wf s.bw.size s.bufs.buf0 && Memory.wf s.bw.size s.bufs.buf1
    && decide (s.pkidx.toNat < s.bw.size / 2)
    && !isNaN s.pkmag && !f32Neg s.pkmag
    && decide (s.taken.length ≤ s.cp)
    && s.sequencerOk

/-! ## Waiting, stopping, ending -/

/-- Nothing can happen until the host acts (R223): CMD is empty, or the command the sequencer has taken lacks a payload
word that is not on CMD, or it is a `LOAD` with too few samples. -/
def State.waits (s : State) : Bool :=
  match decode s.window with
  | .empty => true
  | .illegal _ => false
  | .partialCmd i => i.wf s.bw && s.cmd == []
  | .whole i _ => i == .load && s.taken.length == 1 && !hasAtLeast s.bw.size s.smp

/-- The end of a run (R263): a command boundary with CMD empty. -/
def State.final (s : State) : Bool := s.taken == [] && s.cmd == []

/-- A safe step: no fault (R221: "every claim about a program takes 'no fault occurred' as a premise"). -/
def State.safeStep (s : State) : Bool :=
  match step s with
  | .next _ => true
  | .fault _ => false
  | .refused _ => false

/-! ## What a command leaves unchanged -/

/-- The command of `n` words has left CMD and `CP` has passed it (R27, R88). -/
def Retired (n : Nat) (s t : State) : Prop :=
  t.taken = [] ∧ t.cmd = s.window.drop n ∧ t.cp = s.cmdPos + n

/-- The peak registers are unchanged, and so is the build. -/
def SamePeak (s t : State) : Prop := t.pkidx = s.pkidx ∧ t.pkmag = s.pkmag ∧ t.bw = s.bw

/-- `IN_SEL` and `PAR` are unchanged. -/
def SameRoles (s t : State) : Prop := t.inSel = s.inSel ∧ t.par = s.par

/-- Every element of `BUF[b]` reads as before. -/
def SameBuf (b : Bit) (s t : State) : Prop :=
  ∀ i, Memory.read (t.bufs.get b) i = Memory.read (s.bufs.get b) i

/-- Every element of both Buffers reads as before. -/
def SameBufs (s t : State) : Prop := ∀ b, SameBuf b s t

/-- Elements `lo .. hi − 1` of a Buffer all hold a value (R23). -/
def Holds (m : Memory F32) (lo hi : Nat) : Prop :=
  ∀ i < hi, lo ≤ i → (Memory.read m i).isSome = true

/-! ## Rounding (R111) -/

/-- `r` is the binary32 number nearest to `num / den` units of `2^-149`, ties to the even pattern, overflow to an infinity
of its sign: a number at least half a unit in the last place above the largest finite one becomes an infinity; otherwise
`r` is finite, no finite `x` is nearer, and one as near is the odd one of the two. -/
def RoundedTo (num : Int) (den : Nat) (r : F32) : Prop :=
  if (2 ^ 25 - 1) * 2 ^ 253 * (den : Int) ≤ 2 * |num| then
    isInf r = true ∧ f32Neg r = decide (num < 0)
  else
    isNaN r = false ∧ isInf r = false ∧
    ∀ x : F32, isNaN x = false → isInf x = false →
      |num - f32Val r * den| ≤ |num - f32Val x * den| ∧
      (|num - f32Val r * den| = |num - f32Val x * den| → f32Val x ≠ f32Val r → f32Frac r % 2 = 0)

end Sys2Proof.Machine
end

