-- ==== Sys2Proof/Certificates/Slice0/Obligations.lean ====
section
/-!
DEFINITION. The statements about the machine, each after a numbered rule of spec/. They speak of every build (`BW` from 2
to 24), every state and every operand their hypotheses allow. "Completes" means: `exec` answers a next state.
-/

open Sys2Proof Sys2Proof.Machine

/-! ## Encoding and decoding -/

/-- The worked encodings of R92, all eighteen. -/
def Obligations.WorkedEncodingsDecode : Prop :=
  decode [0x10000000#32] = .whole .load [] ∧
  decode [0x20000000#32] = .whole .fft [] ∧
  decode [0x31000000#32, 0x43FA0000#32] = .whole (.findf 1#1 0x43FA0000#32) [] ∧
  decode [0x30000000#32, 0x44FA0000#32] = .whole (.findf 0#1 0x44FA0000#32) [] ∧
  decode [0x41000400#32] = .whole (.rdb 1#1 1024#24) [] ∧
  decode [0x40000000#32] = .whole (.rdb 0#1 0#24) [] ∧
  decode [0x50000003#32, 0x3F800000#32, 0xC0000000#32] = .whole (.wrb 0#1 3#24 0x3F800000#32 0xC0000000#32) [] ∧
  decode [0x60000000#32] = .whole .stat [] ∧
  decode [0x76000001#32] = .whole (.bitrev 12#5 1#23) [] ∧
  decode [0x80000000#32] = .whole .pinit [] ∧
  decode [0x90000000#32] = .whole .sdec [] ∧
  decode [0xA0000000#32] = .whole .tdec [] ∧
  decode [0xB0000000#32] = .whole .rebind [] ∧
  decode [0xC0000000#32] = .whole (.sstg 0#5) [] ∧
  decode [0xC1800000#32] = .whole (.sstg 3#5) [] ∧
  decode [0xD5800000#32] = .whole (.tstg 11#5) [] ∧
  decode [0xE0800001#32] = .whole (.scomb 1#5 1#23) [] ∧
  decode [0xF1000003#32] = .whole (.tcomb 2#5 3#23) []

/-- R81, R83, R85, R88: the words of any command, whatever follows them, decode to it. No operand bit is lost. -/
def Obligations.DecodeOfEncodedCommand : Prop :=
  ∀ (i : Instr) (rest : List Word), decode (encode i ++ rest) = .whole i rest

/-- R81, R87: a list of words that decodes to a command begins with that command's words, so every word has at most one
meaning and no bit of it is ignored. -/
def Obligations.EncodeOfDecodedCommand : Prop :=
  ∀ (ws : List Word) (i : Instr) (rest : List Word), decode ws = .whole i rest → encode i ++ rest = ws

/-- R87: a word taken as a command word is illegal exactly when its opcode is 0 or a must-be-zero field is not zero; the
step faults on it, whatever stands after it. That the fault names the word's own position on CMD is R222 as log entry 8 reads
it. -/
def Obligations.IllegalWordsFault : Prop :=
  ∀ (s : State) (w : Word) (rest : List Word), s.window = w :: rest →
    (step s = .fault (.illegalCommand w s.cmdPos) ↔
      w.toNat / 2 ^ 28 = 0 ∨
      (w.toNat / 2 ^ 28 ∈ [0x1, 0x2, 0x6, 0x8, 0x9, 0xA, 0xB] ∧ w.toNat % 2 ^ 28 ≠ 0) ∨
      (w.toNat / 2 ^ 28 = 0x3 ∧ (w.toNat / 2 ^ 25 % 2 ^ 3 ≠ 0 ∨ w.toNat % 2 ^ 24 ≠ 0)) ∨
      (w.toNat / 2 ^ 28 ∈ [0x4, 0x5] ∧ w.toNat / 2 ^ 25 % 2 ^ 3 ≠ 0) ∨
      (w.toNat / 2 ^ 28 ∈ [0xC, 0xD] ∧ w.toNat % 2 ^ 23 ≠ 0))

/-- R84: a step on a legal command word, its payload there or not, faults with `OperandRange` exactly when an
operand is outside the ranges: the check comes before the payload (R91, R224). That the fault names the word's own position on
CMD is R222 as log entry 8 reads it. -/
def Obligations.OperandsOutOfRangeFault : Prop :=
  ∀ (s : State) (w : Word) (ws : List Word) (i : Instr), s.window = w :: ws →
    ((∃ rest, decode s.window = .whole i rest) ∨ decode s.window = .partialCmd i) →
    (step s = .fault (.operandRange w s.cmdPos) ↔
      match i with
      | .rdb _ idx => s.bw.size ≤ idx.toNat
      | .wrb _ idx _ _ => s.bw.size ≤ idx.toNat
      | .sstg bp => s.bw.val - 1 < bp.toNat
      | .tstg bp => s.bw.val - 1 < bp.toNat
      | .scomb bp blk => s.bw.val - 1 < bp.toNat ∨ 2 ^ bp.toNat ≤ blk.toNat
      | .tcomb bp blk => s.bw.val - 1 < bp.toNat ∨ 2 ^ bp.toNat ≤ blk.toNat
      | .load | .fft | .findf _ _ | .stat | .bitrev _ _ | .pinit | .sdec | .tdec | .rebind => False)

/-! ## The step -/

/-- R10, R91, R223: a step with a whole command at the front of CMD is `exec` of it at that state, with nothing around it;
with a legal command that lacks a payload word the unit takes the words there are and nothing else changes; with CMD
empty at a boundary nothing changes (log entry 3). -/
def Obligations.StepRunsTheDecodedCommand : Prop :=
  ∀ (s : State),
    (∀ i rest, decode s.window = .whole i rest → step s = exec i s) ∧
    (∀ i, decode s.window = .partialCmd i → i.wf s.bw = true →
      step s = .next { s with taken := s.window, cmd := [], cp := s.cmdPos + s.window.length }) ∧
    (s.window = [] → step s = .next s)

/-- No step of the unit is refused: every command has a meaning. -/
def Obligations.NothingIsRefused : Prop :=
  ∀ (s : State) (r : Refusal), step s ≠ .refused r

/-- R27, R88: a command that completes has left CMD, `CP` has advanced by its length and the sequencer is idle; the build
is unchanged. -/
def Obligations.CompletedCommandLeavesTheStream : Prop :=
  ∀ (i : Instr) (s t : State), exec i s = .next t → (i = .load → s.bw.size ≤ s.smp.length) →
    t.taken = [] ∧ t.cmd = s.window.drop (cmdLength i) ∧ t.cp = s.cmdPos + cmdLength i ∧ t.bw = s.bw

/-- R83, R86, R32: a command only appends to RSP, as many words as the opcode map says. -/
def Obligations.ResponseWordCounts : Prop :=
  ∀ (i : Instr) (s t : State), exec i s = .next t →
    ∃ ws : List Word, t.rsp = s.rsp ++ ws ∧
      ws.length = match i with
        | .fft | .findf _ _ | .bitrev _ _ => 1
        | .rdb _ _ => 2
        | .stat => 3
        | .load | .wrb _ _ _ _ | .pinit | .sdec | .tdec | .rebind | .sstg _ | .tstg _ | .scomb _ _ | .tcomb _ _ => 0

/-- R20, column "written by": which command can change which piece of state. -/
def Obligations.OnlyItsWritersChangeARegister : Prop :=
  ∀ (i : Instr) (s t : State), exec i s = .next t →
    t.bw = s.bw ∧
    (t.inSel ≠ s.inSel → i = .rebind ∨ i = .fft) ∧
    (t.par ≠ s.par → i = .pinit ∨ i = .sdec ∨ i = .tdec ∨ i = .fft ∨ ∃ bp, i = .sstg bp ∨ i = .tstg bp) ∧
    (t.pkidx ≠ s.pkidx ∨ t.pkmag ≠ s.pkmag → ∃ r fs, i = .findf r fs) ∧
    (t.smp ≠ s.smp → i = .load) ∧
    (t.bufs ≠ s.bufs → i = .load ∨ i = .fft ∨ i = .sdec ∨ i = .tdec ∨ (∃ r fs, i = .findf r fs) ∨
      (∃ r idx re im, i = .wrb r idx re im) ∨ (∃ bp, i = .sstg bp ∨ i = .tstg bp) ∨
      ∃ bp blk, i = .scomb bp blk ∨ i = .tcomb bp blk)

/-- R222 code 3, R56: when a command faults with `UninitRead(b, j)`, element `j` of `BUF[b]` exists and held no value when
the command started. -/
def Obligations.UninitReadNamesAnEmptyElement : Prop :=
  ∀ (i : Instr) (s : State) (b : Bit) (j : Nat), exec i s = .fault (.uninitRead b j) →
    j < s.bw.size ∧ Memory.read (s.bufs.get b) j = none

/-! ## Reset and the invariant -/

/-- R35, R250: the state after reset of every build, reached from any state by the reset input; no element can be read. -/
def Obligations.ResetLeavesTheStatedValues : Prop :=
  ∀ (s : State),
    s.hostReset.bw = s.bw ∧ s.hostReset.inSel = 0#1 ∧ s.hostReset.par = 0#8 ∧ s.hostReset.pkidx = 0#24 ∧
    s.hostReset.pkmag = 0x00000000#32 ∧ s.hostReset.cmd = [] ∧ s.hostReset.smp = [] ∧ s.hostReset.rsp = [] ∧
    s.hostReset.cp = 0 ∧ s.hostReset.taken = [] ∧ (∀ b i, Memory.read (s.hostReset.bufs.get b) i = none) ∧
    State.reset = State.resetAt ⟨12, by decide, by decide⟩ ∧ State.reset.bw.size = 4096

/-- R36: the invariant holds after reset, in every build. -/
def Obligations.ResetMeetsTheInvariant : Prop :=
  ∀ (bw : BitWidth), (State.resetAt bw).wf = true

/-- R36, R22: every step keeps the invariant: the Buffers stay in canonical form with indices below `N`, `PKIDX < N/2`,
`PKMAG` is neither NaN nor negative, and the sequencer stays consistent. -/
def Obligations.StepKeepsTheInvariant : Prop :=
  ∀ (s t : State), s.wf = true → step s = .next t → t.wf = true

/-! ## Waiting -/

/-- R223: in a state that meets the invariant the unit makes no progress exactly when the host owes it a word: CMD empty at
a boundary, a payload word missing, or fewer than `N` samples for a `LOAD` it has taken (log entry 3). -/
def Obligations.NoProgressExactlyWhenTheHostOwesAWord : Prop :=
  ∀ (s : State), s.wf = true → (step s = .next s ↔ s.waits = true)

/-- R223: a command that waited has the effect it would have had without waiting; that a waiting command's words have left
CMD is the model's form (log entry 3). -/
def Obligations.WaitingDoesNotChangeTheResult : Prop :=
  ∀ (i : Instr) (s : State) (n : Nat), exec i (s.hold n) = exec i s

/-- R30, R223: the wait for a payload word ends when the host appends the missing words: the next step runs the command
(log entry 3). -/
def Obligations.TheWaitEndsWhenTheWordsArrive : Prop :=
  ∀ (s : State) (i : Instr) (ws : List Word), s.window ≠ [] → s.window ++ ws = encode i →
    step (s.pushCmd ws) = exec i (s.pushCmd ws)

/-! ## Loader and element access -/

/-- R190: with `N` samples on SMP `LOAD` completes: element `i` of `BUF[IN_SEL]` becomes `(u16tof(sample i), +0.0)`, the
samples are off SMP, and nothing else changes. -/
def Obligations.LoadFillsTheInputBuffer : Prop :=
  ∀ (s : State), s.bw.size ≤ s.smp.length →
    ∃ t, exec .load s = .next t ∧ Retired 1 s t ∧
      (∀ i < s.bw.size, ∃ n, s.smp[i]? = some n ∧
        Memory.read (t.bufs.get s.inSel) i = some ⟨f32OfHalf n, 0x00000000#32⟩) ∧
      (∀ i, s.bw.size ≤ i → Memory.read (t.bufs.get s.inSel) i = Memory.read (s.bufs.get s.inSel) i) ∧
      SameBuf (~~~s.inSel) s t ∧ t.smp = s.smp.drop s.bw.size ∧ t.rsp = s.rsp ∧ SameRoles s t ∧ SamePeak s t

/-- R190, R223: with fewer samples `LOAD` waits: its command word is taken, nothing else changes
(log entries 3 and 4). -/
def Obligations.LoadWaitsForSamples : Prop :=
  ∀ (s : State), s.smp.length < s.bw.size →
    exec .load s = .next { s with
      taken := s.window.take 1, cmd := s.window.drop 1, cp := s.cmdPos + (s.window.take 1).length }

/-- R191: `RDB` of an element that holds a value completes with its two words, bit for bit, and changes nothing; of an
element that holds none it faults. -/
def Obligations.RdbAnswersTheElement : Prop :=
  ∀ (s : State) (r : Bit) (idx : BitVec 24), idx.toNat < s.bw.size →
    (∀ v, Memory.read (s.bufs.get (s.inSel ^^^ r)) idx.toNat = some v →
      ∃ t, exec (.rdb r idx) s = .next t ∧ Retired 1 s t ∧ t.rsp = s.rsp ++ [v.re, v.im] ∧ SameBufs s t ∧
        t.smp = s.smp ∧ SameRoles s t ∧ SamePeak s t) ∧
    (Memory.read (s.bufs.get (s.inSel ^^^ r)) idx.toNat = none →
      exec (.rdb r idx) s = .fault (.uninitRead (s.inSel ^^^ r) idx.toNat))

/-- R192: `WRB` completes; one element of the Buffer bound to the role becomes `(re, im)`, bit for bit; every other element
of both Buffers is unchanged. -/
def Obligations.WrbStoresTheElement : Prop :=
  ∀ (s : State) (r : Bit) (idx : BitVec 24) (re im : F32), idx.toNat < s.bw.size →
    ∃ t, exec (.wrb r idx re im) s = .next t ∧ Retired 3 s t ∧
      Memory.read (t.bufs.get (s.inSel ^^^ r)) idx.toNat = some ⟨re, im⟩ ∧
      (∀ i, i ≠ idx.toNat → Memory.read (t.bufs.get (s.inSel ^^^ r)) i = Memory.read (s.bufs.get (s.inSel ^^^ r)) i) ∧
      SameBuf (~~~(s.inSel ^^^ r)) s t ∧ t.smp = s.smp ∧ t.rsp = s.rsp ∧ SameRoles s t ∧ SamePeak s t

/-- R191, R192: what `WRB` stores through a role, `RDB` through that role answers. -/
def Obligations.RdbAfterWrbAnswersWhatWasStored : Prop :=
  ∀ (s : State) (r : Bit) (idx : BitVec 24) (re im : F32), idx.toNat < s.bw.size →
    ∃ t u, exec (.wrb r idx re im) s = .next t ∧ exec (.rdb r idx) t = .next u ∧ u.rsp = s.rsp ++ [re, im]

/-! ## Bit reversal -/

/-- R140: `rev(v, nb)` is the sum over `k < nb` of `v[k]·2^(nb−1−k)`; bit `k` of `v` becomes bit `nb − 1 − k`, higher bits
of the result are zero, higher bits of `v` do not matter, and `rev(v, 0) = 0`. -/
def Obligations.BitReversalIsTheStatedSum : Prop :=
  ∀ (v nb : Nat),
    rev v nb = ∑ k ∈ Finset.range nb, (v.testBit k).toNat * 2 ^ (nb - 1 - k) ∧
    (∀ k < nb, (rev v nb).testBit (nb - 1 - k) = v.testBit k) ∧
    (∀ k, nb ≤ k → (rev v nb).testBit k = false) ∧
    (∀ v', (∀ k < nb, v'.testBit k = v.testBit k) → rev v' nb = rev v nb) ∧
    rev v 0 = 0

/-- R142, laws 1 to 5. -/
def Obligations.BitReversalLaws : Prop :=
  (∀ v nb, rev v nb < 2 ^ nb) ∧
  (∀ v nb, rev v nb = rev (v % 2 ^ nb) nb) ∧
  (∀ v nb, rev (rev v nb) nb = v % 2 ^ nb) ∧
  (∀ b s, b < 2 ^ s → rev (2 * b) (s + 1) = rev b s ∧ rev (2 * b + 1) (s + 1) = rev b s + 2 ^ s) ∧
  (∀ q nb, 1 ≤ nb → q < 2 ^ (nb - 1) →
    rev q nb = 2 * rev q (nb - 1) ∧ rev (q + 2 ^ (nb - 1)) nb = 2 * rev q (nb - 1) + 1)

/-- R141: `BITREV` completes for every operand with the reversed value as its response, and changes nothing else. -/
def Obligations.BitrevAnswersTheReversedValue : Prop :=
  ∀ (s : State) (nb : BitVec 5) (v : BitVec 23),
    ∃ t w, exec (.bitrev nb v) s = .next t ∧ Retired 1 s t ∧ t.rsp = s.rsp ++ [w] ∧
      w.toNat = ∑ k ∈ Finset.range nb.toNat, (v.toNat.testBit k).toNat * 2 ^ (nb.toNat - 1 - k) ∧
      SameBufs s t ∧ t.smp = s.smp ∧ SameRoles s t ∧ SamePeak s t

/-! ## Roles, parity, status -/

/-- R175: `PINIT` completes; `PAR` becomes `IN_SEL` (0 or 1), so the next source is the Buffer bound "input"; nothing else
changes. -/
def Obligations.PinitSeedsTheParity : Prop :=
  ∀ (s : State),
    ∃ t, exec .pinit s = .next t ∧ Retired 1 s t ∧ t.par.toNat = s.inSel.toNat ∧ sourceOf t.par = s.inSel ∧
      t.inSel = s.inSel ∧ SameBufs s t ∧ t.smp = s.smp ∧ t.rsp = s.rsp ∧ SamePeak s t

/-- R179: `REBIND` completes; `IN_SEL` becomes NOT `PAR[0]`, so the Buffer bound "output" is `BUF[PAR[0]]`; nothing else
changes. -/
def Obligations.RebindNamesTheLiveBuffer : Prop :=
  ∀ (s : State),
    ∃ t, exec .rebind s = .next t ∧ Retired 1 s t ∧ t.inSel.toNat = 1 - s.par.toNat % 2 ∧
      ~~~t.inSel = sourceOf s.par ∧ t.par = s.par ∧ SameBufs s t ∧ t.smp = s.smp ∧ t.rsp = s.rsp ∧ SamePeak s t

/-- R208, R29: `STAT` completes with the status word, `PKIDX` and `PKMAG`, and changes nothing. -/
def Obligations.StatReportsTheControlState : Prop :=
  ∀ (s : State),
    ∃ t w i, exec .stat s = .next t ∧ Retired 1 s t ∧ t.rsp = s.rsp ++ [w, i, s.pkmag] ∧
      w.toNat = s.inSel.toNat + 2 ^ 8 * s.par.toNat + 2 ^ 16 * s.bw.val ∧ i.toNat = s.pkidx.toNat ∧
      SameBufs s t ∧ t.smp = s.smp ∧ SameRoles s t ∧ SamePeak s t

/-! ## Butterflies and stages -/

/-- R145, R150: the blocks of a stage tile the Buffer; in a block the source indices `base + 2i + h` and the destination
indices `base + h·M/2 + i` are each element of the block exactly once; two blocks of a stage are disjoint. -/
def Obligations.BlocksCoverTheBufferOnce : Prop :=
  ∀ (bw : BitWidth) (bp : Nat), bp < bw.val →
    let m := blockSize bw bp
    2 ≤ m ∧ m ≤ bw.size ∧
    (∀ p < bw.size, ∃! blk, blk < 2 ^ bp ∧ blk * m ≤ p ∧ p < blk * m + m) ∧
    (∀ blk < 2 ^ bp, blk * m + m ≤ bw.size ∧
      ∀ p, blk * m ≤ p → p < blk * m + m →
        (∃! ih : Nat × Nat, ih.1 < m / 2 ∧ ih.2 < 2 ∧ p = blk * m + 2 * ih.1 + ih.2) ∧
        (∃! ih : Nat × Nat, ih.1 < m / 2 ∧ ih.2 < 2 ∧ p = blk * m + ih.2 * (m / 2) + ih.1)) ∧
    (∀ blk < 2 ^ bp, ∀ i < m / 2, ∀ h < 2,
      blk * m ≤ blk * m + 2 * i + h ∧ blk * m + 2 * i + h < blk * m + m ∧
      blk * m ≤ blk * m + h * (m / 2) + i ∧ blk * m + h * (m / 2) + i < blk * m + m)

/-- R146: `SCOMB` of a block whose source elements hold values completes: even elements to the lower half, odd elements to
the upper half, bit for bit; nothing outside the destination block changes, `PAR` included. -/
def Obligations.ScombDeinterleavesTheBlock : Prop :=
  ∀ (s : State) (bp : BitVec 5) (blk : BitVec 23), bp.toNat < s.bw.val → blk.toNat < 2 ^ bp.toNat →
    let m := blockSize s.bw bp.toNat
    let base := blk.toNat * m
    let src := s.bufs.get (sourceOf s.par)
    Holds src base (base + m) →
    ∃ t, exec (.scomb bp blk) s = .next t ∧ Retired 1 s t ∧
      (∀ i < m / 2,
        Memory.read (t.bufs.get (destOf s.par)) (base + i) = Memory.read src (base + 2 * i) ∧
        Memory.read (t.bufs.get (destOf s.par)) (base + m / 2 + i) = Memory.read src (base + 2 * i + 1)) ∧
      (∀ p, p < base ∨ base + m ≤ p →
        Memory.read (t.bufs.get (destOf s.par)) p = Memory.read (s.bufs.get (destOf s.par)) p) ∧
      SameBuf (sourceOf s.par) s t ∧ t.smp = s.smp ∧ t.rsp = s.rsp ∧ SameRoles s t ∧ SamePeak s t

/-- R120, R121, R147, R148: `TCOMB` of a block whose source elements are `a i`, `b i` completes: with `W = TW[rev(blk, bp) <<
(BW − 1 − bp)]` and `p = cmul(b i, W)` the lower half gets `cadd(a i, p)` and the upper half `csub(a i, p)`, ten operations,
each rounded; nothing else changes. The sites, by which the model draws the sign and payload of a NaN, are log entry 5. -/
def Obligations.TcombIsTheButterfly : Prop :=
  ∀ (s : State) (bp : BitVec 5) (blk : BitVec 23) (a b : Nat → Sample F32),
    bp.toNat < s.bw.val → blk.toNat < 2 ^ bp.toNat →
    let m := blockSize s.bw bp.toNat
    let base := blk.toNat * m
    let w := twiddle s.bw (rev blk.toNat bp.toNat * 2 ^ (s.bw.val - 1 - bp.toNat))
    let site := fun i k : Nat => (⟨s.cmdPos, bp.toNat, blk.toNat, i, k⟩ : Site)
    let p := fun i : Nat => (⟨
      f32Sub (site i 4) (f32Mul (site i 0) (b i).re w.re) (f32Mul (site i 1) (b i).im w.im),
      f32Add (site i 5) (f32Mul (site i 2) (b i).re w.im) (f32Mul (site i 3) (b i).im w.re)⟩ : Sample F32)
    (∀ i < m / 2, Memory.read (s.bufs.get (sourceOf s.par)) (base + 2 * i) = some (a i) ∧
      Memory.read (s.bufs.get (sourceOf s.par)) (base + 2 * i + 1) = some (b i)) →
    ∃ t, exec (.tcomb bp blk) s = .next t ∧ Retired 1 s t ∧
      (∀ i < m / 2,
        Memory.read (t.bufs.get (destOf s.par)) (base + i) =
          some ⟨f32Add (site i 6) (a i).re (p i).re, f32Add (site i 7) (a i).im (p i).im⟩ ∧
        Memory.read (t.bufs.get (destOf s.par)) (base + m / 2 + i) =
          some ⟨f32Sub (site i 8) (a i).re (p i).re, f32Sub (site i 9) (a i).im (p i).im⟩) ∧
      (∀ p, p < base ∨ base + m ≤ p →
        Memory.read (t.bufs.get (destOf s.par)) p = Memory.read (s.bufs.get (destOf s.par)) p) ∧
      SameBuf (sourceOf s.par) s t ∧ t.smp = s.smp ∧ t.rsp = s.rsp ∧ SameRoles s t ∧ SamePeak s t

/-- R56, R224: a combine of a block with a source element that holds no value faults with `UninitRead` on the first such
element of the block (in ascending order, log entry 15). -/
def Obligations.CombineFaultsAtTheFirstMissingElement : Prop :=
  ∀ (s : State) (bp : BitVec 5) (blk : BitVec 23) (j : Nat), bp.toNat < s.bw.val → blk.toNat < 2 ^ bp.toNat →
    blk.toNat * blockSize s.bw bp.toNat ≤ j → j < blk.toNat * blockSize s.bw bp.toNat + blockSize s.bw bp.toNat →
    Memory.read (s.bufs.get (sourceOf s.par)) j = none →
    Holds (s.bufs.get (sourceOf s.par)) (blk.toNat * blockSize s.bw bp.toNat) j →
    exec (.scomb bp blk) s = .fault (.uninitRead (sourceOf s.par) j) ∧
    exec (.tcomb bp blk) s = .fault (.uninitRead (sourceOf s.par) j)

/-- R161: `SSTG` with a full source completes: `new BUF[d][base + h·M/2 + i] = old BUF[s][base + 2i + h]` for every block,
`PAR + 1 mod 256`, the source and everything else unchanged. -/
def Obligations.SstgPermutesTheBuffer : Prop :=
  ∀ (s : State) (bp : BitVec 5), bp.toNat < s.bw.val → Holds (s.bufs.get (sourceOf s.par)) 0 s.bw.size →
    let m := blockSize s.bw bp.toNat
    ∃ t, exec (.sstg bp) s = .next t ∧ Retired 1 s t ∧
      (∀ blk < 2 ^ bp.toNat, ∀ h < 2, ∀ i < m / 2,
        Memory.read (t.bufs.get (destOf s.par)) (blk * m + h * (m / 2) + i) =
          Memory.read (s.bufs.get (sourceOf s.par)) (blk * m + 2 * i + h)) ∧
      (∀ p, s.bw.size ≤ p →
        Memory.read (t.bufs.get (destOf s.par)) p = Memory.read (s.bufs.get (destOf s.par)) p) ∧
      SameBuf (sourceOf s.par) s t ∧ t.par.toNat = (s.par.toNat + 1) % 256 ∧
      t.inSel = s.inSel ∧ t.smp = s.smp ∧ t.rsp = s.rsp ∧ SamePeak s t

/-- R162: `TSTG` with a full source `x` completes: every block's butterflies with that block's twiddle factor, `PAR + 1
mod 256`, the source and everything else unchanged (sites: log entry 5). -/
def Obligations.TstgAppliesEveryButterfly : Prop :=
  ∀ (s : State) (bp : BitVec 5) (x : Nat → Sample F32), bp.toNat < s.bw.val →
    (∀ j < s.bw.size, Memory.read (s.bufs.get (sourceOf s.par)) j = some (x j)) →
    let m := blockSize s.bw bp.toNat
    let w := fun blk : Nat => twiddle s.bw (rev blk bp.toNat * 2 ^ (s.bw.val - 1 - bp.toNat))
    let site := fun blk i : Nat => (⟨s.cmdPos, bp.toNat, blk, i, 0⟩ : Site)
    ∃ t, exec (.tstg bp) s = .next t ∧ Retired 1 s t ∧
      (∀ blk < 2 ^ bp.toNat, ∀ i < m / 2,
        Memory.read (t.bufs.get (destOf s.par)) (blk * m + i) =
          some (cadd binary32 (site blk i) 6 (x (blk * m + 2 * i))
            (cmul binary32 (site blk i) (x (blk * m + 2 * i + 1)) (w blk))) ∧
        Memory.read (t.bufs.get (destOf s.par)) (blk * m + m / 2 + i) =
          some (csub binary32 (site blk i) 8 (x (blk * m + 2 * i))
            (cmul binary32 (site blk i) (x (blk * m + 2 * i + 1)) (w blk)))) ∧
      (∀ p, s.bw.size ≤ p →
        Memory.read (t.bufs.get (destOf s.par)) p = Memory.read (s.bufs.get (destOf s.par)) p) ∧
      SameBuf (sourceOf s.par) s t ∧ t.par.toNat = (s.par.toNat + 1) % 256 ∧
      t.inSel = s.inSel ∧ t.smp = s.smp ∧ t.rsp = s.rsp ∧ SamePeak s t

/-- R60: the butterflies of a stage may be processed in any order: where the ascending order (blocks, then butterflies inside a
block) completes, the butterflies in any order of the pairs `(blk, i)`, each once, complete too and leave the same
destination. -/
def Obligations.ButterfliesOfAStageInAnyOrder : Prop :=
  ∀ (kind : Combine) (bw : BitWidth) (pos bp : Nat) (b : Bit) (src dst d : Memory F32) (order : List (Nat × Nat)),
    bp < bw.val → order.Nodup → (∀ p, p ∈ order ↔ p.1 < 2 ^ bp ∧ p.2 < blockSize bw bp / 2) →
    loop (combineBlock binary32 kind bw pos bp b src) (2 ^ bp) 0 dst = .ok d →
    ∃ d', order.foldl (fun (acc : Except Fault (Memory F32)) p =>
        acc.bind (butterflyStep (butterfly binary32 kind bw pos bp p.1) b src (blockBase bw bp p.1)
          (blockSize bw bp / 2) p.2)) (Except.ok dst) = Except.ok d' ∧
      ∀ p, Memory.read d' p = Memory.read d p

/-- R163, R165: `SDEC` with a full source completes and is the bit-reversal permutation, bit for bit; `PAR` has advanced by
`BW − 1` (mod 256), with `BW = 2` the source is unchanged, no index outside `0 .. N − 1` changes, and nothing else changes. -/
def Obligations.SdecIsTheBitReversalPermutation : Prop :=
  ∀ (s : State), Holds (s.bufs.get (sourceOf s.par)) 0 s.bw.size →
    ∃ t, exec .sdec s = .next t ∧ Retired 1 s t ∧
      (∀ p < s.bw.size, Memory.read (t.bufs.get (sourceOf t.par)) p =
        Memory.read (s.bufs.get (sourceOf s.par)) (rev p s.bw.val)) ∧
      (∀ b p, s.bw.size ≤ p → Memory.read (t.bufs.get b) p = Memory.read (s.bufs.get b) p) ∧
      (s.bw.val = 2 → SameBuf (sourceOf s.par) s t) ∧
      t.par.toNat = (s.par.toNat + (s.bw.val - 1)) % 256 ∧
      t.inSel = s.inSel ∧ t.smp = s.smp ∧ t.rsp = s.rsp ∧ SamePeak s t

/-- R164: `TDEC` with a full source completes as its `BW` twiddle stages in ascending order, each on what the one before
left; `PAR` has advanced by `BW`; the Buffer it names holds `N` values; nothing else changes. -/
def Obligations.TdecRunsItsStagesInOrder : Prop :=
  ∀ (s : State), Holds (s.bufs.get (sourceOf s.par)) 0 s.bw.size →
    ∃ (t : State) (c : Nat → Pipeline F32), exec .tdec s = .next t ∧ Retired 1 s t ∧
      c 0 = ⟨s.bufs, s.par⟩ ∧ c s.bw.val = ⟨t.bufs, t.par⟩ ∧
      (∀ k < s.bw.val, stage binary32 .twiddle s.bw s.cmdPos k (c k) = .ok (c (k + 1))) ∧
      t.par.toNat = (s.par.toNat + s.bw.val) % 256 ∧ Holds (t.bufs.get (sourceOf t.par)) 0 s.bw.size ∧
      (∀ b p, s.bw.size ≤ p → Memory.read (t.bufs.get b) p = Memory.read (s.bufs.get b) p) ∧
      t.inSel = s.inSel ∧ t.smp = s.smp ∧ t.rsp = s.rsp ∧ SamePeak s t

/-! ## The transform -/

/-- R176, R177: `FFT` with a full input Buffer completes as `PINIT`, `SDEC`, `TDEC`, `SDEC`, `REBIND`: `PAR` ends at the old
`IN_SEL` plus `3·BW − 2`, `IN_SEL` at NOT `PAR[0]`, the roles swap exactly when `BW` is even, the response is `1 − IN_SEL`
(new), both Buffers hold `N` values, and nothing else changes. -/
def Obligations.FftRunsItsPhasesAndRebinds : Prop :=
  ∀ (s : State), Holds (s.bufs.get s.inSel) 0 s.bw.size →
    ∃ (t : State) (x y : Pipeline F32) (w : Word), exec .fft s = .next t ∧ Retired 1 s t ∧
      straightDecimation binary32 s.bw s.cmdPos ⟨s.bufs, s.inSel.setWidth 8⟩ = .ok x ∧
      twiddleDecimation binary32 s.bw s.cmdPos x = .ok y ∧
      straightDecimation binary32 s.bw s.cmdPos y = .ok ⟨t.bufs, t.par⟩ ∧
      t.par.toNat = s.inSel.toNat + (3 * s.bw.val - 2) ∧
      t.inSel.toNat = 1 - t.par.toNat % 2 ∧
      (t.inSel ≠ s.inSel ↔ s.bw.val % 2 = 0) ∧
      t.rsp = s.rsp ++ [w] ∧ w.toNat = 1 - t.inSel.toNat ∧
      (∀ b, Holds (t.bufs.get b) 0 s.bw.size) ∧
      (∀ b p, s.bw.size ≤ p → Memory.read (t.bufs.get b) p = Memory.read (s.bufs.get b) p) ∧
      t.smp = s.smp ∧ SamePeak s t

/-- R56, R177, R224: a command that reads a Buffer in which an element it reads holds no value faults with `UninitRead` on the
first such element, in ascending order (the order inside a stage is log entry 15): `FFT` on the Buffer bound "input", the
stages and decimations on `BUF[PAR[0]]`, `FINDF` on the bins `1 .. N/2 − 1` of its Buffer. -/
def Obligations.FirstMissingElementFaults : Prop :=
  ∀ (s : State) (j : Nat),
    (j < s.bw.size → Memory.read (s.bufs.get s.inSel) j = none → Holds (s.bufs.get s.inSel) 0 j →
      exec .fft s = .fault (.uninitRead s.inSel j)) ∧
    (j < s.bw.size → Memory.read (s.bufs.get (sourceOf s.par)) j = none → Holds (s.bufs.get (sourceOf s.par)) 0 j →
      exec .sdec s = .fault (.uninitRead (sourceOf s.par) j) ∧
      exec .tdec s = .fault (.uninitRead (sourceOf s.par) j) ∧
      ∀ bp : BitVec 5, bp.toNat < s.bw.val →
        exec (.sstg bp) s = .fault (.uninitRead (sourceOf s.par) j) ∧
        exec (.tstg bp) s = .fault (.uninitRead (sourceOf s.par) j)) ∧
    (∀ (r : Bit) (fs : F32), 1 ≤ j → j < s.bw.size / 2 → Memory.read (s.bufs.get (s.inSel ^^^ r)) j = none →
      Holds (s.bufs.get (s.inSel ^^^ r)) 1 j →
      exec (.findf r fs) s = .fault (.uninitRead (s.inSel ^^^ r) j))

/-- R177: "An all-zero input gives an output whose every component is `+0.0` or `-0.0`"; by the signed zeros of R112 to R114,
the butterfly of R120 and R121 and the finite ROM of R122, every component of both Buffers is `+0.0`, in every build. -/
def Obligations.FftOfZerosIsZero : Prop :=
  ∀ (s : State),
    (∀ i < s.bw.size, Memory.read (s.bufs.get s.inSel) i = some ⟨0x00000000#32, 0x00000000#32⟩) →
    ∃ t, exec .fft s = .next t ∧
      ∀ b, ∀ i < s.bw.size, Memory.read (t.bufs.get b) i = some ⟨0x00000000#32, 0x00000000#32⟩

/-- R180, R184: the spectrum is a function of the input data alone: neither the physical Buffer that holds it nor the
contents of the other Buffer matter (a NaN's sign and payload are drawn by the site alone, log entry 5). -/
def Obligations.SpectrumDependsOnTheInputDataAlone : Prop :=
  ∀ (bw : BitWidth) (pos : Nat) (a b : Bit) (m m' : Bufs F32) (y y' : Pipeline F32),
    (∀ i < bw.size, Memory.read (m.get a) i = Memory.read (m'.get b) i) →
    transform binary32 bw pos a m = .ok y → transform binary32 bw pos b m' = .ok y' →
    ∀ p < bw.size, Memory.read (y.bufs.get (sourceOf y.par)) p = Memory.read (y'.bufs.get (sourceOf y'.par)) p

/-- R182: after `FFT` the Buffer bound "input" holds the source of the last straight stage (blocks of four): the result in
the Buffer bound "output" is that stage's image of it. -/
def Obligations.FftLeavesTheLastStagesSource : Prop :=
  ∀ (s t : State), exec .fft s = .next t →
    ∀ blk < 2 ^ (s.bw.val - 2), ∀ h < 2, ∀ i < 2,
      Memory.read (t.bufs.get (~~~t.inSel)) (blk * 4 + h * 2 + i) =
        Memory.read (t.bufs.get t.inSel) (blk * 4 + 2 * i + h)

/-- R253, R176: a `LOAD` after an `FFT` writes the other Buffer: every element of the Buffer bound "output" stays, and the
roles stay. -/
def Obligations.LoadAfterFftKeepsTheResult : Prop :=
  ∀ (s t u : State), exec .fft s = .next t → exec .load t = .next u →
    ~~~t.inSel = sourceOf t.par ∧ u.inSel = t.inSel ∧ SameBuf (~~~t.inSel) t u

/-- R166, in the ideal numerics of R125 (log entry 16): if the source holds `x` in bit-reversed order, the twiddle decimation leaves the
discrete Fourier transform of `x` in bit-reversed order. -/
def Obligations.IdealTwiddleDecimationIsTheTransformReversed : Prop :=
  ∀ (bw : BitWidth) (pos : Nat) (d : Pipeline ℝ) (x : Nat → Sample ℝ),
    (∀ p < bw.size, Memory.read (d.bufs.get (sourceOf d.par)) p = some (x (rev p bw.val))) →
    ∃ y, twiddleDecimation ideal bw pos d = .ok y ∧
      ∀ p < bw.size, ∃ z, Memory.read (y.bufs.get (sourceOf y.par)) p = some z ∧
        toComplex z = dft bw.size (fun n => toComplex (x n)) (rev p bw.val)

/-- R180, in the ideal numerics of R125 (log entry 16): what `FFT` does to the Buffers is the unnormalised forward discrete Fourier
transform of the Buffer bound "input", in natural order, in the Buffer `BUF[PAR[0]]` that `REBIND` binds "output". -/
def Obligations.IdealTransformIsTheDiscreteFourierTransform : Prop :=
  ∀ (bw : BitWidth) (pos : Nat) (inSel : Bit) (m : Bufs ℝ) (x : Nat → Sample ℝ),
    (∀ i < bw.size, Memory.read (m.get inSel) i = some (x i)) →
    ∃ y, transform ideal bw pos inSel m = .ok y ∧
      ∀ k < bw.size, ∃ z, Memory.read (y.bufs.get (sourceOf y.par)) k = some z ∧
        toComplex z = dft bw.size (fun n => toComplex (x n)) k

/-! ## The peak finder -/

/-- R205: `FINDF` on a Buffer whose bins `1 .. N/2 − 1` hold values completes: those bins become `(cabs, +0.0)`, every other
element of both Buffers stays, and the response is `fdiv(fmul(fs, itof(PKIDX)), itof(N))` with the new `PKIDX`
(sites: log entry 5). -/
def Obligations.FindfReplacesTheBinsByMagnitudes : Prop :=
  ∀ (s : State) (r : Bit) (fs : F32) (v : Nat → Sample F32),
    let b := s.inSel ^^^ r
    (∀ i, 1 ≤ i → i < s.bw.size / 2 → Memory.read (s.bufs.get b) i = some (v i)) →
    ∃ t, exec (.findf r fs) s = .next t ∧ Retired 2 s t ∧
      (∀ i, 1 ≤ i → i < s.bw.size / 2 → Memory.read (t.bufs.get b) i =
        some ⟨cabs binary32 ⟨s.cmdPos, 0, 0, i, 0⟩ (v i), 0x00000000#32⟩) ∧
      (∀ i, i = 0 ∨ s.bw.size / 2 ≤ i → Memory.read (t.bufs.get b) i = Memory.read (s.bufs.get b) i) ∧
      SameBuf (~~~b) s t ∧
      t.rsp = s.rsp ++ [f32Div ⟨s.cmdPos, 0, 0, 0, 1⟩
        (f32Mul ⟨s.cmdPos, 0, 0, 0, 0⟩ fs (f32OfNat t.pkidx.toNat)) (f32OfNat s.bw.size)] ∧
      t.smp = s.smp ∧ SameRoles s t ∧ t.bw = s.bw

/-- R206, R205: the peak is the highest-indexed bin among those of the largest magnitude that is a number, its magnitude is
`PKMAG`, and it is never bin 0 nor at or above `N/2`; if every magnitude is a NaN, `PKIDX = 0` and `PKMAG = +0.0` (U7;
sites: log entry 5). -/
def Obligations.PeakIsTheHighestBinOfTheLargestMagnitude : Prop :=
  ∀ (s t : State) (r : Bit) (fs : F32) (v : Nat → Sample F32),
    (∀ i, 1 ≤ i → i < s.bw.size / 2 → Memory.read (s.bufs.get (s.inSel ^^^ r)) i = some (v i)) →
    exec (.findf r fs) s = .next t →
    let m := fun i : Nat => cabs binary32 ⟨s.cmdPos, 0, 0, i, 0⟩ (v i)
    let k := t.pkidx.toNat
    ((∃ i, 1 ≤ i ∧ i < s.bw.size / 2 ∧ isNaN (m i) = false) →
      1 ≤ k ∧ k < s.bw.size / 2 ∧ t.pkmag = m k ∧ isNaN (m k) = false ∧
      ∀ j, 1 ≤ j → j < s.bw.size / 2 → isNaN (m j) = false →
        f32Ge (m k) (m j) = true ∧ (k < j → f32Ge (m j) (m k) = false)) ∧
    ((∀ i, 1 ≤ i → i < s.bw.size / 2 → isNaN (m i) = true) → k = 0 ∧ t.pkmag = 0x00000000#32)

/-! ## Numerics -/

/-- R112: `fadd` of two finite numbers is the exact sum rounded to nearest, ties to even; the exact zero sums have the
stated signs; an infinity plus a number that is not the opposite infinity is that infinity (log entry 6). -/
def Obligations.FaddIsTheRoundedSum : Prop :=
  ∀ (site : Site) (a b : F32),
    (isNaN a = false → isInf a = false → isNaN b = false → isInf b = false →
      RoundedTo (f32Val a + f32Val b) 1 (f32Add site a b) ∧
      (f32Val a + f32Val b = 0 →
        f32Add site a b = if a = 0x80000000#32 ∧ b = 0x80000000#32 then 0x80000000#32 else 0x00000000#32)) ∧
    (isInf a = true → isNaN b = false → (isInf b = true → b = a) → f32Add site a b = a ∧ f32Add site b a = a)

/-- R113: `fsub` is `fadd` of the negated operand; of two finite numbers it is the exact difference rounded; `x − x = +0`
for finite `x`. -/
def Obligations.FsubIsTheRoundedDifference : Prop :=
  ∀ (site : Site) (a b : F32),
    f32Sub site a b = f32Add site a (b ^^^ 0x80000000#32) ∧
    (isNaN a = false → isInf a = false → f32Sub site a a = 0x00000000#32) ∧
    (isNaN a = false → isInf a = false → isNaN b = false → isInf b = false →
      RoundedTo (f32Val a - f32Val b) 1 (f32Sub site a b))

/-- R114: `fmul` of two finite numbers is the exact product rounded; of an infinity and a number other than zero it is an
infinity (log entry 6); the sign is the exclusive or of the signs, zeros included, so `(+0) × (−3) = −0`. -/
def Obligations.FmulIsTheRoundedProduct : Prop :=
  ∀ (site : Site) (a b : F32),
    (isNaN a = false → isInf a = false → isNaN b = false → isInf b = false →
      RoundedTo (f32Val a * f32Val b) (2 ^ 149) (f32Mul site a b) ∧
      f32Neg (f32Mul site a b) = (f32Neg a ^^ f32Neg b)) ∧
    (isInf a = true → isNaN b = false → f32Val b ≠ 0 →
      (isInf (f32Mul site a b) = true ∧ f32Neg (f32Mul site a b) = (f32Neg a ^^ f32Neg b)) ∧
      (isInf (f32Mul site b a) = true ∧ f32Neg (f32Mul site b a) = (f32Neg a ^^ f32Neg b))) ∧
    f32Mul site 0x00000000#32 0xC0400000#32 = 0x80000000#32

/-- R115: `fdiv` of a finite number by a finite number other than zero is the exact quotient rounded; a finite number other
than zero divided by zero is an infinity. The rest is log entry 6: the sign of every quotient of two numbers that is not
invalid is the exclusive or of the signs; an infinity divided by a finite number, zero included, is an infinity; a finite
number divided by an infinity is a zero. -/
def Obligations.FdivIsTheRoundedQuotient : Prop :=
  ∀ (site : Site) (a b : F32), isNaN a = false → isNaN b = false →
    (isInf a = false → isInf b = false → f32Val b ≠ 0 →
      RoundedTo ((if f32Neg b then -1 else 1) * f32Val a * 2 ^ 149) (f32Mag b) (f32Div site a b)) ∧
    (isInf a = false → f32Val a ≠ 0 → f32Val b = 0 → isInf (f32Div site a b) = true) ∧
    (isInf a = true → isInf b = false → isInf (f32Div site a b) = true) ∧
    (isInf a = false → isInf b = true → isNaN (f32Div site a b) = false ∧ f32Mag (f32Div site a b) = 0) ∧
    (¬(isInf a = true ∧ isInf b = true) → ¬(f32Val a = 0 ∧ f32Val b = 0) →
      f32Neg (f32Div site a b) = (f32Neg a ^^ f32Neg b))

/-- R116: `fsqrt` of a number that is not negative is its root rounded to nearest: finite, and no binary32 number is nearer
to the root; `fsqrt(+0) = +0`, `fsqrt(+inf) = +inf`, of a NaN or a negative number other than zero a NaN. -/
def Obligations.FsqrtIsTheRoundedRoot : Prop :=
  ∀ (site : Site) (a : F32),
    (isNaN a = false → isInf a = false → f32Neg a = false →
      isNaN (f32Sqrt site a) = false ∧ isInf (f32Sqrt site a) = false ∧ f32Neg (f32Sqrt site a) = false ∧
      ∀ x : F32, isNaN x = false → isInf x = false →
        |Real.sqrt ((f32Mag a : ℝ) * 2 ^ 149) - (f32Val (f32Sqrt site a) : ℝ)| ≤
          |Real.sqrt ((f32Mag a : ℝ) * 2 ^ 149) - (f32Val x : ℝ)|) ∧
    f32Sqrt site 0x00000000#32 = 0x00000000#32 ∧ f32Sqrt site 0x7F800000#32 = 0x7F800000#32 ∧
    (isNaN a = true ∨ (f32Neg a = true ∧ f32Mag a ≠ 0) → isNaN (f32Sqrt site a) = true)

/-- R117: `fge` is false on a NaN; otherwise it compares the values, the two zeros equal, `+inf` above and `-inf` below
everything else that is not a NaN, and each infinity equal to itself. -/
def Obligations.FgeIsTheQuietComparison : Prop :=
  ∀ (a b : F32),
    (isNaN a = true ∨ isNaN b = true → f32Ge a b = false) ∧
    (isNaN a = false → isNaN b = false → (f32Ge a b = true ↔ f32Val b ≤ f32Val a)) ∧
    f32Ge 0x80000000#32 0x00000000#32 = true ∧ f32Ge 0x00000000#32 0x80000000#32 = true ∧
    (isNaN a = false →
      f32Ge 0x7F800000#32 a = true ∧ f32Ge a 0xFF800000#32 = true ∧
      (f32Ge a 0x7F800000#32 = true ↔ a = 0x7F800000#32) ∧ (f32Ge 0xFF800000#32 a = true ↔ a = 0xFF800000#32))

/-- R118: `u16tof` is exact for every sample, with the four stated patterns. -/
def Obligations.SamplesConvertExactly : Prop :=
  (∀ n : Half, isNaN (f32OfHalf n) = false ∧ isInf (f32OfHalf n) = false ∧ f32Neg (f32OfHalf n) = false ∧
    f32Val (f32OfHalf n) = n.toNat * 2 ^ 149) ∧
  f32OfHalf 0#16 = 0x00000000#32 ∧ f32OfHalf 1#16 = 0x3F800000#32 ∧ f32OfHalf 1000#16 = 0x447A0000#32 ∧
  f32OfHalf 65535#16 = 0x477FFF00#32

/-- R119: `itof` is exact for every natural up to `2^24`. -/
def Obligations.IndicesConvertExactly : Prop :=
  (∀ n : Nat, n ≤ 2 ^ 24 → isNaN (f32OfNat n) = false ∧ isInf (f32OfNat n) = false ∧ f32Neg (f32OfNat n) = false ∧
    f32Val (f32OfNat n) = n * 2 ^ 149) ∧
  f32OfNat 4096 = 0x45800000#32

/-- R111: an operation with a NaN operand, and every invalid operation (`inf − inf`, `0 × inf`, the root of a negative number
other than zero, `0 / 0`, `inf / inf`), gives a NaN, whatever its sign and payload (log entry 5). -/
def Obligations.InvalidOperationsGiveNan : Prop :=
  ∀ (site : Site) (a b : F32),
    (isNaN a = true ∨ isNaN b = true →
      isNaN (f32Add site a b) = true ∧ isNaN (f32Sub site a b) = true ∧ isNaN (f32Mul site a b) = true ∧
      isNaN (f32Div site a b) = true) ∧
    (isNaN a = true → isNaN (f32Sqrt site a) = true) ∧
    (f32Neg a = true → f32Mag a ≠ 0 → isNaN (f32Sqrt site a) = true) ∧
    (isInf a = true → isInf b = true →
      (f32Neg a = f32Neg b → isNaN (f32Sub site a b) = true) ∧
      (f32Neg a ≠ f32Neg b → isNaN (f32Add site a b) = true) ∧ isNaN (f32Div site a b) = true) ∧
    (isInf a = true → f32Mag b = 0 → isNaN (f32Mul site a b) = true ∧ isNaN (f32Mul site b a) = true) ∧
    (f32Mag a = 0 → f32Mag b = 0 → isNaN (f32Div site a b) = true)

/-- R123: `cabs` is the root of the sum of the squares of the components, four operations, each rounded; it is a NaN exactly
when a component is; otherwise it is never negative and never `-0.0`, and `+inf` when a component is infinite. In the ideal
numerics of R125 (log entry 16) it is the absolute value of the complex number. -/
def Obligations.MagnitudesAreNeverNegative : Prop :=
  (∀ (site : Site) (v : Sample F32),
    cabs binary32 site v = f32Sqrt (site.nth 3)
      (f32Add (site.nth 2) (f32Mul (site.nth 0) v.re v.re) (f32Mul (site.nth 1) v.im v.im)) ∧
    (isNaN (cabs binary32 site v) = true ↔ isNaN v.re = true ∨ isNaN v.im = true) ∧
    (isNaN (cabs binary32 site v) = false → f32Neg (cabs binary32 site v) = false) ∧
    (isNaN v.re = false → isNaN v.im = false → isInf v.re = true ∨ isInf v.im = true →
      cabs binary32 site v = 0x7F800000#32)) ∧
  ∀ (site : Site) (v : Sample ℝ), cabs ideal site v = ‖toComplex v‖

/-- R122: the two exact entries of the ROM, in every build, and the other entries the rule lists: the whole ROM of `N = 8` and
`N = 16`, and those of `N = 4096`. -/
def Obligations.RomHoldsItsExactEntries : Prop :=
  (∀ (bw : BitWidth),
    twiddle bw 0 = ⟨0x3F800000#32, 0x00000000#32⟩ ∧ twiddle bw (bw.size / 4) = ⟨0x00000000#32, 0xBF800000#32⟩) ∧
  (∀ (bw : BitWidth), bw.val = 3 →
    twiddle bw 1 = ⟨0x3F3504F3#32, 0xBF3504F3#32⟩ ∧ twiddle bw 3 = ⟨0xBF3504F3#32, 0xBF3504F3#32⟩) ∧
  (∀ (bw : BitWidth), bw.val = 4 →
    twiddle bw 1 = ⟨0x3F6C835E#32, 0xBEC3EF15#32⟩ ∧ twiddle bw 2 = ⟨0x3F3504F3#32, 0xBF3504F3#32⟩ ∧
    twiddle bw 3 = ⟨0x3EC3EF15#32, 0xBF6C835E#32⟩ ∧ twiddle bw 5 = ⟨0xBEC3EF15#32, 0xBF6C835E#32⟩ ∧
    twiddle bw 6 = ⟨0xBF3504F3#32, 0xBF3504F3#32⟩ ∧ twiddle bw 7 = ⟨0xBF6C835E#32, 0xBEC3EF15#32⟩) ∧
  (∀ (bw : BitWidth), bw.val = 12 →
    twiddle bw 1 = ⟨0x3F7FFFEC#32, 0xBAC90FD5#32⟩ ∧ twiddle bw 2 = ⟨0x3F7FFFB1#32, 0xBB490FC6#32⟩ ∧
    twiddle bw 512 = ⟨0x3F3504F3#32, 0xBF3504F3#32⟩ ∧ twiddle bw 1023 = ⟨0x3AC90FD5#32, 0xBF7FFFEC#32⟩ ∧
    twiddle bw 1025 = ⟨0xBAC90FD5#32, 0xBF7FFFEC#32⟩ ∧ twiddle bw 1536 = ⟨0xBF3504F3#32, 0xBF3504F3#32⟩ ∧
    twiddle bw 2047 = ⟨0xBF7FFFEC#32, 0xBAC90FD5#32⟩)

/-- R122: every entry of the ROM of every build is finite, no component exceeds 1 in magnitude, no imaginary component is
positive, and no zero is `-0.0`. -/
def Obligations.RomEntriesAreUnitSized : Prop :=
  ∀ (bw : BitWidth) (t : Nat), t < bw.size / 2 →
    (isNaN (twiddle bw t).re = false ∧ isInf (twiddle bw t).re = false ∧ f32Mag (twiddle bw t).re ≤ 2 ^ 149) ∧
    (isNaN (twiddle bw t).im = false ∧ isInf (twiddle bw t).im = false ∧ f32Mag (twiddle bw t).im ≤ 2 ^ 149) ∧
    f32Val (twiddle bw t).im ≤ 0 ∧ (twiddle bw t).re ≠ 0x80000000#32 ∧ (twiddle bw t).im ≠ 0x80000000#32

/-- R122: in every build, entry `t` of the ROM is `exp(−j·2π·t/N)` rounded: each component is within half its last place, plus
`2^-100`, of the exact cosine or negated sine, and no finite binary32 number is nearer to the exact value by more than
`2^-99`. (`f32Val` counts units of `2^-149`.) That the slack of `2^-100` never decides a rounding is log entry 7. -/
def Obligations.RomEntriesAreTheRoundedFactors : Prop :=
  ∀ (bw : BitWidth) (t : Nat), t < bw.size / 2 →
    let near := fun (r : F32) (c : ℝ) =>
      |(f32Val r : ℝ) - 2 ^ 149 * c| ≤ 2 ^ (f32Exp r - 1) / 2 + 2 ^ 49 ∧
      ∀ x : F32, isNaN x = false → isInf x = false →
        |(f32Val r : ℝ) - 2 ^ 149 * c| ≤ |(f32Val x : ℝ) - 2 ^ 149 * c| + 2 ^ 50
    near (twiddle bw t).re (Real.cos (2 * Real.pi * t / bw.size)) ∧
    near (twiddle bw t).im (-Real.sin (2 * Real.pi * t / bw.size))
end

