-- ==== Sys2Proof/Laws/Loop.lean ====
section
/-!
SUPPORT. What a loop does, said once: it succeeds along an invariant, an invariant holds where it succeeds, a fault of it
is a fault of one pass, and it splits where its range splits.
-/

namespace Sys2Proof.Machine

variable {σ : Type}

@[simp] theorem loop_zero (body : Nat → σ → Except Fault σ) (i : Nat) (x : σ) : loop body 0 i x = .ok x := rfl

theorem loop_succ (body : Nat → σ → Except Fault σ) (n i : Nat) (x : σ) :
    loop body (n + 1) i x = match body i x with | .ok y => loop body n (i + 1) y | .error e => .error e := rfl

/-- The passes succeed and keep `P`, so the loop succeeds and ends in `P`. -/
theorem loop_ok_of {body : Nat → σ → Except Fault σ} {P : Nat → σ → Prop} {n i : Nat} {x : σ}
    (hstep : ∀ k y, i ≤ k → k < i + n → P k y → ∃ z, body k y = .ok z ∧ P (k + 1) z) (h0 : P i x) :
    ∃ y, loop body n i x = .ok y ∧ P (i + n) y := by
  induction n generalizing i x with
  | zero => exact ⟨x, rfl, h0⟩
  | succ n ih =>
    obtain ⟨z, hz, hPz⟩ := hstep i x le_rfl (by omega) h0
    obtain ⟨y, hy, hPy⟩ := ih (i := i + 1) (x := z) (fun k y h1 h2 => hstep k y (by omega) (by omega)) hPz
    refine ⟨y, ?_, ?_⟩
    · rw [loop_succ, hz]; exact hy
    · have e : i + (n + 1) = i + 1 + n := by omega
      rw [e]; exact hPy

/-- Where the loop succeeds, what each successful pass keeps holds at the end. -/
theorem loop_inv {body : Nat → σ → Except Fault σ} {P : Nat → σ → Prop} {n i : Nat} {x y : σ}
    (hstep : ∀ k y z, i ≤ k → k < i + n → P k y → body k y = .ok z → P (k + 1) z) (h0 : P i x)
    (h : loop body n i x = .ok y) : P (i + n) y := by
  induction n generalizing i x with
  | zero => cases h; exact h0
  | succ n ih =>
    rw [loop_succ] at h
    cases hb : body i x with
    | error e => rw [hb] at h; cases h
    | ok z =>
      rw [hb] at h
      have := ih (i := i + 1) (x := z) (fun k y z h1 h2 => hstep k y z (by omega) (by omega))
        (hstep i x z le_rfl (by omega) h0 hb) h
      have e : i + (n + 1) = i + 1 + n := by omega
      rw [e]; exact this

/-- A fault of the loop is the fault of one pass, at a state the passes before it led to. -/
theorem loop_error {body : Nat → σ → Except Fault σ} {P : Nat → σ → Prop} {n i : Nat} {x : σ} {e : Fault}
    (hstep : ∀ k y z, i ≤ k → k < i + n → P k y → body k y = .ok z → P (k + 1) z) (h0 : P i x)
    (h : loop body n i x = .error e) : ∃ k y, i ≤ k ∧ k < i + n ∧ P k y ∧ body k y = .error e := by
  induction n generalizing i x with
  | zero => cases h
  | succ n ih =>
    rw [loop_succ] at h
    cases hb : body i x with
    | error e' =>
      rw [hb] at h
      cases h
      exact ⟨i, x, le_rfl, by omega, h0, hb⟩
    | ok z =>
      rw [hb] at h
      obtain ⟨k, y, h1, h2, h3, h4⟩ := ih (i := i + 1) (x := z)
        (fun k y z h1 h2 => hstep k y z (by omega) (by omega)) (hstep i x z le_rfl (by omega) h0 hb) h
      exact ⟨k, y, by omega, by omega, h3, h4⟩

/-- A loop over `m + n` passes is the first `m`, then the other `n`. -/
theorem loop_add (body : Nat → σ → Except Fault σ) (m n i : Nat) (x : σ) :
    loop body (m + n) i x =
      match loop body m i x with | .ok y => loop body n (i + m) y | .error e => .error e := by
  induction m generalizing i x with
  | zero => simp
  | succ m ih =>
    have e : m + 1 + n = (m + n) + 1 := by omega
    rw [e, loop_succ, loop_succ]
    cases body i x with
    | error e => rfl
    | ok y =>
      have e2 : i + (m + 1) = i + 1 + m := by omega
      rw [e2]; exact ih (i + 1) y

end Sys2Proof.Machine
end

