-- ==== Sys2Proof/Laws/Memory.lean ====
section
/-!
SUPPORT. The laws of a Buffer: read after write, and that a write keeps the canonical form.
-/

namespace Sys2Proof.Machine

variable {F : Type}

@[simp] theorem Memory.read_nil (i : Nat) : Memory.read ([] : Memory F) i = none := rfl

/-- A read gives what the last write to the element gave it, and every other element reads as before (R57). -/
theorem Memory.read_write (m : Memory F) (i j : Nat) (v : Sample F) :
    Memory.read (Memory.write m i v) j = if i = j then some v else Memory.read m j := by
  induction m with
  | nil => simp [Memory.write, Memory.read]
  | cons e rest ih =>
    obtain ⟨k, u⟩ := e
    unfold Memory.write
    by_cases h1 : i < k
    · simp only [h1, if_true, Memory.read]
    · by_cases h2 : i = k
      · subst h2
        simp only [h1, if_false, if_true, Memory.read]
        by_cases h3 : i = j <;> simp [h3]
      · simp only [h1, h2, if_false, Memory.read, ih]
        by_cases h3 : i = j
        · subst h3
          have : ¬k = i := fun h => h2 h.symm
          simp [this]
        · simp [h3]

@[simp] theorem Memory.read_write_same (m : Memory F) (i : Nat) (v : Sample F) :
    Memory.read (Memory.write m i v) i = some v := by simp [Memory.read_write]

theorem Memory.read_write_other (m : Memory F) {i j : Nat} (v : Sample F) (h : i ≠ j) :
    Memory.read (Memory.write m i v) j = Memory.read m j := by simp [Memory.read_write, h]

theorem Memory.wfFrom_mono (n : Nat) {lo lo' : Nat} (m : Memory F) (h : lo' ≤ lo)
    (hm : Memory.wfFrom n lo m = true) : Memory.wfFrom n lo' m = true := by
  cases m with
  | nil => rfl
  | cons e rest =>
    obtain ⟨k, v⟩ := e
    simp only [Memory.wfFrom, Bool.and_eq_true, decide_eq_true_eq] at hm ⊢
    exact ⟨⟨by omega, hm.1.2⟩, hm.2⟩

theorem Memory.write_wfFrom (n lo : Nat) (m : Memory F) (i : Nat) (v : Sample F) (hlo : lo ≤ i) (hi : i < n)
    (hm : Memory.wfFrom n lo m = true) : Memory.wfFrom n lo (Memory.write m i v) = true := by
  induction m generalizing lo with
  | nil => simp [Memory.write, Memory.wfFrom, hlo, hi]
  | cons e rest ih =>
    obtain ⟨k, u⟩ := e
    simp only [Memory.wfFrom, Bool.and_eq_true, decide_eq_true_eq] at hm
    unfold Memory.write
    by_cases h1 : i < k
    · simp only [h1, if_true, Memory.wfFrom, Bool.and_eq_true, decide_eq_true_eq]
      exact ⟨⟨hlo, hi⟩, ⟨by omega, hm.1.2⟩, hm.2⟩
    · by_cases h2 : i = k
      · subst h2
        simp only [h1, if_false, if_true, Memory.wfFrom, Bool.and_eq_true, decide_eq_true_eq]
        exact ⟨⟨hlo, hi⟩, hm.2⟩
      · simp only [h1, h2, if_false, Memory.wfFrom, Bool.and_eq_true, decide_eq_true_eq]
        exact ⟨hm.1, ih (k + 1) (by omega) hm.2⟩

/-- A write to an element of the Buffer keeps the canonical form. -/
theorem Memory.write_wf (n : Nat) (m : Memory F) (i : Nat) (v : Sample F) (hi : i < n)
    (hm : Memory.wf n m = true) : Memory.wf n (Memory.write m i v) = true :=
  Memory.write_wfFrom n 0 m i v (Nat.zero_le i) hi hm

theorem Memory.read_lt_of_wfFrom (n lo : Nat) (m : Memory F) (hm : Memory.wfFrom n lo m = true) (i : Nat) (v : Sample F)
    (h : Memory.read m i = some v) : lo ≤ i ∧ i < n := by
  induction m generalizing lo with
  | nil => simp [Memory.read] at h
  | cons e rest ih =>
    obtain ⟨k, u⟩ := e
    simp only [Memory.wfFrom, Bool.and_eq_true, decide_eq_true_eq] at hm
    simp only [Memory.read] at h
    by_cases hk : k = i
    · subst hk; exact hm.1
    · rw [if_neg hk] at h
      have := ih (k + 1) hm.2 h
      omega

/-- In canonical form equal Buffers are equal lists: one that reads the same everywhere is the same. -/
theorem Memory.ext_of_wfFrom (n lo : Nat) (m m' : Memory F) (hm : Memory.wfFrom n lo m = true)
    (hm' : Memory.wfFrom n lo m' = true) (h : ∀ i, Memory.read m i = Memory.read m' i) : m = m' := by
  induction m generalizing lo m' with
  | nil =>
    cases m' with
    | nil => rfl
    | cons e rest => obtain ⟨k, v⟩ := e; have := h k; simp [Memory.read] at this
  | cons e rest ih =>
    obtain ⟨k, v⟩ := e
    cases m' with
    | nil => have := h k; simp [Memory.read] at this
    | cons e' rest' =>
      obtain ⟨k', v'⟩ := e'
      simp only [Memory.wfFrom, Bool.and_eq_true, decide_eq_true_eq] at hm hm'
      have none_below : ∀ (r : Memory F) (a : Nat), Memory.wfFrom n (a + 1) r = true → ∀ j ≤ a, Memory.read r j = none := by
        intro r a hr j hj
        cases hq : Memory.read r j with
        | none => rfl
        | some w => have := Memory.read_lt_of_wfFrom n (a + 1) r hr j w hq; omega
      have hkk : k = k' := by
        by_contra hne
        rcases Nat.lt_or_gt_of_ne hne with hlt | hlt
        · have h1 := h k
          have hne' : ¬k' = k := by omega
          simp only [Memory.read, if_true, hne', if_false, none_below rest' k' hm'.2 k (by omega)] at h1
          exact absurd h1 (by simp)
        · have h1 := h k'
          simp only [Memory.read, if_true, hne, if_false, none_below rest k hm.2 k' (by omega)] at h1
          exact absurd h1 (by simp)
      subst hkk
      have hv := h k
      simp only [Memory.read, if_true, Option.some.injEq] at hv
      subst hv
      congr 1
      refine ih (k + 1) rest' hm.2 hm'.2 fun i => ?_
      by_cases hi : k = i
      · subst hi; rw [none_below rest k hm.2 k le_rfl, none_below rest' k hm'.2 k le_rfl]
      · have := h i
        simpa only [Memory.read, hi, if_false] using this

theorem Memory.ext_of_wf (n : Nat) (m m' : Memory F) (hm : Memory.wf n m = true) (hm' : Memory.wf n m' = true)
    (h : ∀ i, Memory.read m i = Memory.read m' i) : m = m' := Memory.ext_of_wfFrom n 0 m m' hm hm' h

/-- `BufRead` succeeds exactly on an element that holds a value (R56). -/
theorem bufRead_ok_iff (b : Bit) (m : Memory F) (i : Nat) (v : Sample F) :
    bufRead b m i = .ok v ↔ Memory.read m i = some v := by
  unfold bufRead
  cases Memory.read m i <;> simp

/-- `BufRead` faults exactly on an element that holds no value, naming it (R56, R222). -/
theorem bufRead_error_iff (b : Bit) (m : Memory F) (i : Nat) (e : Fault) :
    bufRead b m i = .error e ↔ Memory.read m i = none ∧ e = .uninitRead b i := by
  unfold bufRead
  cases Memory.read m i <;> simp [eq_comm]

theorem bufRead_of_read (b : Bit) {m : Memory F} {i : Nat} {v : Sample F} (h : Memory.read m i = some v) :
    bufRead b m i = .ok v := (bufRead_ok_iff b m i v).2 h

end Sys2Proof.Machine
end

