-- ==== Sys2Proof/Laws/PerInstr.lean ====
section
/-!
SUPPORT. Facts about every command as syntax, one lemma per constructor: how many CMD words it is.
-/

namespace Sys2Proof.Laws.EncodedLength

/-- A command is encoded in as many CMD words as R83 says, 1 to 3, and its own opcode says how many (R88). -/
def Statement (i : Instr) : Prop :=
  (encode i).length = cmdLength i ∧ opLength (encodeHead i) = cmdLength i ∧ 1 ≤ cmdLength i ∧ cmdLength i ≤ 3

/-- The opcode of a word laid out as four bits and a rest is those four bits (R80, R82). -/
theorem fieldOp_append (op : BitVec 4) (x : BitVec 28) : fieldOp (op ++ x) = op := by
  unfold fieldOp
  ext i hi
  rw [BitVec.getElem_extractLsb']
  refine (BitVec.getLsbD_append (x := op) (y := x) (i := 28 + i)).trans ?_
  rw [if_neg (by omega), Nat.add_sub_cancel_left, BitVec.getLsbD_eq_getElem hi]

theorem fieldOp_encZ (op : BitVec 4) : fieldOp (encZ op) = op := fieldOp_append op _

theorem fieldOp_encR (op : BitVec 4) (r : Bit) : fieldOp (encR op r) = op := by
  have h : encR op r = op ++ (0#3 ++ r ++ 0#24 : BitVec 28) := by unfold encR; ext i hi; simp; grind
  rw [h, fieldOp_append]

theorem fieldOp_encX (op : BitVec 4) (r : Bit) (idx : BitVec 24) : fieldOp (encX op r idx) = op := by
  have h : encX op r idx = op ++ (0#3 ++ r ++ idx : BitVec 28) := by unfold encX; ext i hi; simp; grind
  rw [h, fieldOp_append]

theorem fieldOp_encS (op : BitVec 4) (bp : BitVec 5) : fieldOp (encS op bp) = op := by
  have h : encS op bp = op ++ (bp ++ 0#23 : BitVec 28) := by unfold encS; ext i hi; simp; grind
  rw [h, fieldOp_append]

theorem fieldOp_encB (op : BitVec 4) (bp : BitVec 5) (blk : BitVec 23) : fieldOp (encB op bp blk) = op := by
  have h : encB op bp blk = op ++ (bp ++ blk : BitVec 28) := by unfold encB; ext i hi; simp; grind
  rw [h, fieldOp_append]

/-- The length that goes with a known opcode. -/
theorem opLength_of {w : Word} {op : BitVec 4} (h : fieldOp w = op) :
    opLength w = match op.toNat with | 0x3 => 2 | 0x5 => 3 | _ => 1 := by
  subst h
  rfl

theorem load : Statement .load := ⟨rfl, by decide, le_rfl, (by decide : 1 ≤ 3)⟩
theorem fft : Statement .fft := ⟨rfl, by decide, le_rfl, (by decide : 1 ≤ 3)⟩
theorem findf (r : Bit) (fs : F32) : Statement (.findf r fs) :=
  ⟨rfl, opLength_of (fieldOp_encR 3#4 r), (by decide : 1 ≤ 2), (by decide : 2 ≤ 3)⟩
theorem rdb (r : Bit) (idx : BitVec 24) : Statement (.rdb r idx) :=
  ⟨rfl, opLength_of (fieldOp_encX 4#4 r idx), le_rfl, (by decide : 1 ≤ 3)⟩
theorem wrb (r : Bit) (idx : BitVec 24) (re im : F32) : Statement (.wrb r idx re im) :=
  ⟨rfl, opLength_of (fieldOp_encX 5#4 r idx), (by decide : 1 ≤ 3), le_rfl⟩
theorem stat : Statement .stat := ⟨rfl, by decide, le_rfl, (by decide : 1 ≤ 3)⟩
theorem bitrev (nb : BitVec 5) (v : BitVec 23) : Statement (.bitrev nb v) :=
  ⟨rfl, opLength_of (fieldOp_encB 7#4 nb v), le_rfl, (by decide : 1 ≤ 3)⟩
theorem pinit : Statement .pinit := ⟨rfl, by decide, le_rfl, (by decide : 1 ≤ 3)⟩
theorem sdec : Statement .sdec := ⟨rfl, by decide, le_rfl, (by decide : 1 ≤ 3)⟩
theorem tdec : Statement .tdec := ⟨rfl, by decide, le_rfl, (by decide : 1 ≤ 3)⟩
theorem rebind : Statement .rebind := ⟨rfl, by decide, le_rfl, (by decide : 1 ≤ 3)⟩
theorem sstg (bp : BitVec 5) : Statement (.sstg bp) :=
  ⟨rfl, opLength_of (fieldOp_encS 0xC#4 bp), le_rfl, (by decide : 1 ≤ 3)⟩
theorem tstg (bp : BitVec 5) : Statement (.tstg bp) :=
  ⟨rfl, opLength_of (fieldOp_encS 0xD#4 bp), le_rfl, (by decide : 1 ≤ 3)⟩
theorem scomb (bp : BitVec 5) (blk : BitVec 23) : Statement (.scomb bp blk) :=
  ⟨rfl, opLength_of (fieldOp_encB 0xE#4 bp blk), le_rfl, (by decide : 1 ≤ 3)⟩
theorem tcomb (bp : BitVec 5) (blk : BitVec 23) : Statement (.tcomb bp blk) :=
  ⟨rfl, opLength_of (fieldOp_encB 0xF#4 bp blk), le_rfl, (by decide : 1 ≤ 3)⟩

end Sys2Proof.Laws.EncodedLength
end

