-- ==== Sys2Proof/Laws/State.lean ====
section
/-!
SUPPORT. One lemma per field per update of the state, the Buffer accessors, and what the sequencer operations keep.
-/

namespace Sys2Proof.Machine

/-! ## `retire` -/

@[simp] theorem State.retire_bw (s : State) (n : Nat) : (s.retire n).bw = s.bw := rfl
@[simp] theorem State.retire_bufs (s : State) (n : Nat) : (s.retire n).bufs = s.bufs := rfl
@[simp] theorem State.retire_inSel (s : State) (n : Nat) : (s.retire n).inSel = s.inSel := rfl
@[simp] theorem State.retire_par (s : State) (n : Nat) : (s.retire n).par = s.par := rfl
@[simp] theorem State.retire_pkidx (s : State) (n : Nat) : (s.retire n).pkidx = s.pkidx := rfl
@[simp] theorem State.retire_pkmag (s : State) (n : Nat) : (s.retire n).pkmag = s.pkmag := rfl
@[simp] theorem State.retire_smp (s : State) (n : Nat) : (s.retire n).smp = s.smp := rfl
@[simp] theorem State.retire_rsp (s : State) (n : Nat) : (s.retire n).rsp = s.rsp := rfl
@[simp] theorem State.retire_taken (s : State) (n : Nat) : (s.retire n).taken = [] := rfl
@[simp] theorem State.retire_cmd (s : State) (n : Nat) : (s.retire n).cmd = s.window.drop n := rfl
@[simp] theorem State.retire_cp (s : State) (n : Nat) : (s.retire n).cp = s.cmdPos + n := rfl

/-! ## `hold` -/

@[simp] theorem State.hold_bw (s : State) (n : Nat) : (s.hold n).bw = s.bw := rfl
@[simp] theorem State.hold_bufs (s : State) (n : Nat) : (s.hold n).bufs = s.bufs := rfl
@[simp] theorem State.hold_inSel (s : State) (n : Nat) : (s.hold n).inSel = s.inSel := rfl
@[simp] theorem State.hold_par (s : State) (n : Nat) : (s.hold n).par = s.par := rfl
@[simp] theorem State.hold_pkidx (s : State) (n : Nat) : (s.hold n).pkidx = s.pkidx := rfl
@[simp] theorem State.hold_pkmag (s : State) (n : Nat) : (s.hold n).pkmag = s.pkmag := rfl
@[simp] theorem State.hold_smp (s : State) (n : Nat) : (s.hold n).smp = s.smp := rfl
@[simp] theorem State.hold_rsp (s : State) (n : Nat) : (s.hold n).rsp = s.rsp := rfl
@[simp] theorem State.hold_taken (s : State) (n : Nat) : (s.hold n).taken = s.window.take n := rfl
@[simp] theorem State.hold_cmd (s : State) (n : Nat) : (s.hold n).cmd = s.window.drop n := rfl
@[simp] theorem State.hold_cp (s : State) (n : Nat) :
    (s.hold n).cp = s.cmdPos + (s.window.take n).length := rfl

/-- Taking words leaves the words of the command where the decoder sees them. -/
@[simp] theorem State.hold_window (s : State) (n : Nat) : (s.hold n).window = s.window := by
  show s.window.take n ++ s.window.drop n = s.window
  exact List.take_append_drop n s.window

/-- Taking words does not move the command's position. -/
@[simp] theorem State.hold_cmdPos (s : State) (n : Nat) : (s.hold n).cmdPos = s.cmdPos := by
  show s.cmdPos + (s.window.take n).length - (s.window.take n).length = s.cmdPos
  omega

/-! ## `push` -/

@[simp] theorem State.push_bw (s : State) (ws : List Word) : (s.push ws).bw = s.bw := rfl
@[simp] theorem State.push_bufs (s : State) (ws : List Word) : (s.push ws).bufs = s.bufs := rfl
@[simp] theorem State.push_inSel (s : State) (ws : List Word) : (s.push ws).inSel = s.inSel := rfl
@[simp] theorem State.push_par (s : State) (ws : List Word) : (s.push ws).par = s.par := rfl
@[simp] theorem State.push_pkidx (s : State) (ws : List Word) : (s.push ws).pkidx = s.pkidx := rfl
@[simp] theorem State.push_pkmag (s : State) (ws : List Word) : (s.push ws).pkmag = s.pkmag := rfl
@[simp] theorem State.push_cmd (s : State) (ws : List Word) : (s.push ws).cmd = s.cmd := rfl
@[simp] theorem State.push_smp (s : State) (ws : List Word) : (s.push ws).smp = s.smp := rfl
@[simp] theorem State.push_rsp (s : State) (ws : List Word) : (s.push ws).rsp = s.rsp ++ ws := rfl
@[simp] theorem State.push_taken (s : State) (ws : List Word) : (s.push ws).taken = s.taken := rfl
@[simp] theorem State.push_cp (s : State) (ws : List Word) : (s.push ws).cp = s.cp := rfl
@[simp] theorem State.push_window (s : State) (ws : List Word) : (s.push ws).window = s.window := rfl
@[simp] theorem State.push_cmdPos (s : State) (ws : List Word) : (s.push ws).cmdPos = s.cmdPos := rfl

/-! ## `setPipeline` -/

@[simp] theorem State.setPipeline_bw (s : State) (x : Pipeline F32) : (s.setPipeline x).bw = s.bw := rfl
@[simp] theorem State.setPipeline_bufs (s : State) (x : Pipeline F32) : (s.setPipeline x).bufs = x.bufs := rfl
@[simp] theorem State.setPipeline_inSel (s : State) (x : Pipeline F32) : (s.setPipeline x).inSel = s.inSel := rfl
@[simp] theorem State.setPipeline_par (s : State) (x : Pipeline F32) : (s.setPipeline x).par = x.par := rfl
@[simp] theorem State.setPipeline_pkidx (s : State) (x : Pipeline F32) : (s.setPipeline x).pkidx = s.pkidx := rfl
@[simp] theorem State.setPipeline_pkmag (s : State) (x : Pipeline F32) : (s.setPipeline x).pkmag = s.pkmag := rfl
@[simp] theorem State.setPipeline_cmd (s : State) (x : Pipeline F32) : (s.setPipeline x).cmd = s.cmd := rfl
@[simp] theorem State.setPipeline_smp (s : State) (x : Pipeline F32) : (s.setPipeline x).smp = s.smp := rfl
@[simp] theorem State.setPipeline_rsp (s : State) (x : Pipeline F32) : (s.setPipeline x).rsp = s.rsp := rfl
@[simp] theorem State.setPipeline_taken (s : State) (x : Pipeline F32) : (s.setPipeline x).taken = s.taken := rfl
@[simp] theorem State.setPipeline_cp (s : State) (x : Pipeline F32) : (s.setPipeline x).cp = s.cp := rfl
@[simp] theorem State.setPipeline_window (s : State) (x : Pipeline F32) :
    (s.setPipeline x).window = s.window := rfl
@[simp] theorem State.setPipeline_cmdPos (s : State) (x : Pipeline F32) :
    (s.setPipeline x).cmdPos = s.cmdPos := rfl
@[simp] theorem State.pipeline_bufs (s : State) : s.pipeline.bufs = s.bufs := rfl
@[simp] theorem State.pipeline_par (s : State) : s.pipeline.par = s.par := rfl

/-! ## The host's actions -/

@[simp] theorem State.pushCmd_window (s : State) (ws : List Word) : (s.pushCmd ws).window = s.window ++ ws := by
  show s.taken ++ (s.cmd ++ ws) = s.taken ++ s.cmd ++ ws
  exact (List.append_assoc _ _ _).symm
@[simp] theorem State.pushCmd_cmdPos (s : State) (ws : List Word) : (s.pushCmd ws).cmdPos = s.cmdPos := rfl
@[simp] theorem State.pushCmd_smp (s : State) (ws : List Word) : (s.pushCmd ws).smp = s.smp := rfl
@[simp] theorem State.pushSmp_smp (s : State) (ns : List Half) : (s.pushSmp ns).smp = s.smp ++ ns := rfl
@[simp] theorem State.pushSmp_window (s : State) (ns : List Half) : (s.pushSmp ns).window = s.window := rfl
@[simp] theorem State.pushSmp_cmdPos (s : State) (ns : List Half) : (s.pushSmp ns).cmdPos = s.cmdPos := rfl
@[simp] theorem State.popRsp_rsp (s : State) (n : Nat) : (s.popRsp n).rsp = s.rsp.drop n := rfl
@[simp] theorem State.popRsp_window (s : State) (n : Nat) : (s.popRsp n).window = s.window := rfl
@[simp] theorem State.placeCommand_taken (s : State) (nbits w : Nat) : (s.placeCommand nbits w).taken = [] := rfl
@[simp] theorem State.placeCommand_cmd (s : State) (nbits w : Nat) :
    (s.placeCommand nbits w).cmd = tableWords nbits w ++ s.cmd := rfl

/-! ## Buffers by number (R22) -/

@[simp] theorem Bufs.get_set_same {F : Type} (m : Bufs F) (b : Bit) (d : Memory F) : (m.set b d).get b = d := by
  unfold Bufs.get Bufs.set
  split <;> simp_all

/-- The two Buffers are distinct storage (R22). -/
theorem Bufs.get_set_other {F : Type} (m : Bufs F) {b c : Bit} (d : Memory F) (h : c ≠ b) :
    (m.set b d).get c = m.get c := by
  unfold Bufs.get Bufs.set
  by_cases hb : b = 0#1 <;> by_cases hc : c = 0#1 <;> simp_all
  · exact absurd ((by decide : ∀ x y : Bit, ¬x = 0#1 → ¬y = 0#1 → x = y) c b hc hb) h

/-- The destination of a stage is not its source (R60). -/
theorem destOf_ne_sourceOf (par : BitVec 8) : destOf par ≠ sourceOf par := by
  unfold destOf
  exact (by decide : ∀ x : Bit, ~~~x ≠ x) _

theorem sourceOf_ne_destOf (par : BitVec 8) : sourceOf par ≠ destOf par := (destOf_ne_sourceOf par).symm

@[simp] theorem Bufs.get_source_set_dest {F : Type} (m : Bufs F) (par : BitVec 8) (d : Memory F) :
    (m.set (destOf par) d).get (sourceOf par) = m.get (sourceOf par) :=
  Bufs.get_set_other m d (sourceOf_ne_destOf par)

/-- After a stage the next source is the Buffer it wrote (R160). -/
@[simp] theorem sourceOf_nextPar (par : BitVec 8) : sourceOf (nextPar par) = destOf par := by
  unfold destOf sourceOf nextPar
  exact (by decide : ∀ p : BitVec 8, (p + 1#8).extractLsb' 0 1 = ~~~(p.extractLsb' 0 1)) par

@[simp] theorem sourceOf_initialPar (b : Bit) : sourceOf (initialPar b) = b := by
  unfold sourceOf initialPar
  exact (by decide : ∀ x : Bit, (x.setWidth 8).extractLsb' 0 1 = x) b

/-! ## Streams -/

theorem hasAtLeast_iff {α : Type} (n : Nat) (l : List α) : hasAtLeast n l = true ↔ n ≤ l.length := by
  induction n generalizing l with
  | zero => simp [hasAtLeast]
  | succ n ih =>
    cases l with
    | nil => simp [hasAtLeast]
    | cons x xs => simp [hasAtLeast, ih]

end Sys2Proof.Machine
end

