-- ==== Sys2Proof/Laws/Stage.lean ====
section
/-!
SUPPORT. What one combine and one stage do, said once: the geometry of blocks (R145), what a butterfly, a block and a stage
write, when they succeed and how they fault.
-/

namespace Sys2Proof.Machine

variable {F : Type}

/-! ## Geometry (R145) -/

theorem size_pos (bw : BitWidth) : 0 < bw.size := Nat.two_pow_pos _

/-- The block size is a power of two. -/
theorem blockSize_eq (bw : BitWidth) {bp : Nat} (h : bp < bw.val) : blockSize bw bp = 2 ^ (bw.val - bp) := by
  unfold blockSize BitWidth.size
  rw [Nat.shiftRight_eq_div_pow, Nat.pow_div (by omega) (by decide)]

/-- Half a block. -/
theorem halfSize_eq (bw : BitWidth) {bp : Nat} (h : bp < bw.val) : blockSize bw bp / 2 = 2 ^ (bw.val - 1 - bp) := by
  rw [blockSize_eq bw h]
  have e : bw.val - bp = bw.val - 1 - bp + 1 := by omega
  rw [e, Nat.pow_succ]
  omega

theorem blockSize_half (bw : BitWidth) {bp : Nat} (h : bp < bw.val) : blockSize bw bp = 2 * (blockSize bw bp / 2) := by
  rw [halfSize_eq bw h, blockSize_eq bw h]
  have e : bw.val - bp = bw.val - 1 - bp + 1 := by omega
  rw [e, Nat.pow_succ]
  omega

/-- The blocks of a stage tile the Buffer. -/
theorem blocks_tile (bw : BitWidth) {bp : Nat} (h : bp < bw.val) : 2 ^ bp * blockSize bw bp = bw.size := by
  rw [blockSize_eq bw h]
  unfold BitWidth.size
  rw [← Nat.pow_add]
  congr 1
  omega

/-! ## One butterfly -/

theorem butterflyStep_ok_iff (f : Nat → Sample F → Sample F → Sample F × Sample F) (b : Bit) (src : Memory F)
    (base half i : Nat) (dst d : Memory F) :
    butterflyStep f b src base half i dst = .ok d ↔
      ∃ x y, Memory.read src (base + 2 * i) = some x ∧ Memory.read src (base + 2 * i + 1) = some y ∧
        d = Memory.write (Memory.write dst (base + i) (f i x y).1) (base + half + i) (f i x y).2 := by
  unfold butterflyStep bufRead
  cases h1 : Memory.read src (base + 2 * i) with
  | none => simp
  | some x =>
    cases h2 : Memory.read src (base + 2 * i + 1) with
    | none => simp
    | some y => simp [eq_comm]

theorem butterflyStep_error (f : Nat → Sample F → Sample F → Sample F × Sample F) (b : Bit) (src : Memory F)
    (base half i : Nat) (dst : Memory F) (e : Fault) (h : butterflyStep f b src base half i dst = .error e) :
    ∃ j, (j = base + 2 * i ∨ j = base + 2 * i + 1) ∧ Memory.read src j = none ∧ e = .uninitRead b j := by
  unfold butterflyStep bufRead at h
  cases h1 : Memory.read src (base + 2 * i) with
  | none =>
    rw [h1] at h
    cases h
    exact ⟨_, Or.inl rfl, h1, rfl⟩
  | some x =>
    cases h2 : Memory.read src (base + 2 * i + 1) with
    | none =>
      simp only [h1, h2] at h
      cases h
      exact ⟨_, Or.inr rfl, h2, rfl⟩
    | some y =>
      simp only [h1, h2] at h
      cases h

/-! ## A run of butterflies over a source the destination is no part of -/

/-- What element `p` of the destination holds after the butterflies `0 .. n − 1` of a block. -/
def blockImage (f : Nat → Sample F → Sample F → Sample F × Sample F) (src : Memory F) (base half n : Nat)
    (dst : Memory F) (p : Nat) : Option (Sample F) :=
  if base ≤ p ∧ p < base + n then
    match Memory.read src (base + 2 * (p - base)), Memory.read src (base + 2 * (p - base) + 1) with
    | some x, some y => some (f (p - base) x y).1
    | _, _ => none
  else if base + half ≤ p ∧ p < base + half + n then
    match Memory.read src (base + 2 * (p - base - half)), Memory.read src (base + 2 * (p - base - half) + 1) with
    | some x, some y => some (f (p - base - half) x y).2
    | _, _ => none
  else Memory.read dst p

/-- Everything a run of butterflies that succeeds has done. -/
theorem butterflies_read (f : Nat → Sample F → Sample F → Sample F × Sample F) (b : Bit) (src : Memory F)
    (base half n : Nat) (dst d : Memory F) (hn : n ≤ half)
    (h : loop (butterflyStep f b src base half) n 0 dst = .ok d) (p : Nat) :
    Memory.read d p = blockImage f src base half n dst p := by
  have key := loop_inv (body := butterflyStep f b src base half) (n := n) (i := 0)
    (P := fun k y => k ≤ n → ∀ p, Memory.read y p = blockImage f src base half k dst p)
    (fun k y z _ hk ih hz _ p => by
      obtain ⟨x1, x2, h1, h2, rfl⟩ := (butterflyStep_ok_iff f b src base half k y z).1 hz
      have ih := ih (by omega) p
      rw [Memory.read_write, Memory.read_write, ih]
      unfold blockImage
      by_cases hA : base + half + k = p
      · subst hA
        have e1 : ¬(base ≤ base + half + k ∧ base + half + k < base + (k + 1)) := by omega
        have e2 : base + half ≤ base + half + k ∧ base + half + k < base + half + (k + 1) := by omega
        have e3 : base + half + k - base - half = k := by omega
        simp [e1, e2, e3, h1, h2]
      · by_cases hB : base + k = p
        · subst hB
          have e1 : base ≤ base + k ∧ base + k < base + (k + 1) := by omega
          have e3 : base + k - base = k := by omega
          rw [if_neg hA, if_pos rfl, if_pos e1, e3, h1, h2]
        · simp only [hA, hB, if_false]
          have e1 : (base ≤ p ∧ p < base + (k + 1)) ↔ (base ≤ p ∧ p < base + k) := by omega
          have e2 : (base + half ≤ p ∧ p < base + half + (k + 1)) ↔ (base + half ≤ p ∧ p < base + half + k) := by omega
          simp only [e1, e2])
    (fun _ p => by
      unfold blockImage
      have e1 : ¬(base ≤ p ∧ p < base + 0) := by omega
      have e2 : ¬(base + half ≤ p ∧ p < base + half + 0) := by omega
      rw [if_neg e1, if_neg e2]) h
  rw [Nat.zero_add] at key
  exact key le_rfl p

/-- A run of butterflies whose source elements all hold values succeeds. -/
theorem butterflies_ok (f : Nat → Sample F → Sample F → Sample F × Sample F) (b : Bit) (src : Memory F)
    (base half n : Nat) (dst : Memory F)
    (hs : ∀ j, base ≤ j → j < base + 2 * n → (Memory.read src j).isSome = true) :
    ∃ d, loop (butterflyStep f b src base half) n 0 dst = .ok d := by
  obtain ⟨y, hy, _⟩ := loop_ok_of (body := butterflyStep f b src base half) (P := fun _ _ => True) (n := n) (i := 0) (x := dst)
    (fun k y _ hk _ => by
      obtain ⟨x1, h1⟩ := Option.isSome_iff_exists.1 (hs (base + 2 * k) (by omega) (by omega))
      obtain ⟨x2, h2⟩ := Option.isSome_iff_exists.1 (hs (base + 2 * k + 1) (by omega) (by omega))
      exact ⟨_, (butterflyStep_ok_iff f b src base half k y _).2 ⟨x1, x2, h1, h2, rfl⟩, trivial⟩) trivial
  exact ⟨y, hy⟩

/-- A run of butterflies faults only on a source element of the block that holds no value. -/
theorem butterflies_error (f : Nat → Sample F → Sample F → Sample F × Sample F) (b : Bit) (src : Memory F)
    (base half n : Nat) (dst : Memory F) (e : Fault) (h : loop (butterflyStep f b src base half) n 0 dst = .error e) :
    ∃ j, base ≤ j ∧ j < base + 2 * n ∧ Memory.read src j = none ∧ e = .uninitRead b j := by
  obtain ⟨k, y, _, hk, _, he⟩ := loop_error (P := fun _ _ => True) (fun _ _ _ _ _ _ _ => trivial) trivial h
  obtain ⟨j, hj, h1, h2⟩ := butterflyStep_error f b src base half k y e he
  exact ⟨j, by omega, by omega, h1, h2⟩

/-! ## One block -/

/-- Everything one combine that succeeds has done (R146, R148): the block's elements are those of `blockImage`, and no
other element changes. -/
theorem combineBlock_read (num : Num F) (kind : Combine) (bw : BitWidth) (pos bp : Nat) (b : Bit) (src : Memory F)
    (blk : Nat) (dst d : Memory F) (h : combineBlock num kind bw pos bp b src blk dst = .ok d) (p : Nat) :
    Memory.read d p = blockImage (butterfly num kind bw pos bp blk) src (blockBase bw bp blk) (blockSize bw bp / 2)
      (blockSize bw bp / 2) dst p :=
  butterflies_read _ b src _ _ _ dst d le_rfl h p

theorem combineBlock_ok (num : Num F) (kind : Combine) (bw : BitWidth) (pos bp : Nat) (b : Bit) (src : Memory F)
    (blk : Nat) (dst : Memory F)
    (hs : ∀ j, blockBase bw bp blk ≤ j → j < blockBase bw bp blk + 2 * (blockSize bw bp / 2) →
      (Memory.read src j).isSome = true) : ∃ d, combineBlock num kind bw pos bp b src blk dst = .ok d :=
  butterflies_ok _ b src _ _ _ dst hs

theorem combineBlock_error (num : Num F) (kind : Combine) (bw : BitWidth) (pos bp : Nat) (b : Bit) (src : Memory F)
    (blk : Nat) (dst : Memory F) (e : Fault) (h : combineBlock num kind bw pos bp b src blk dst = .error e) :
    ∃ j, blockBase bw bp blk ≤ j ∧ j < blockBase bw bp blk + 2 * (blockSize bw bp / 2) ∧
      Memory.read src j = none ∧ e = .uninitRead b j :=
  butterflies_error _ b src _ _ _ dst e h

/-! ## One stage -/

/-- What element `p` of the destination of stage `bp` holds (R161, R162): the block of `p` is `p / M`, its place in the
block `p % M`; the lower half holds the sums, the upper half the differences (or the even and the odd elements). -/
def stageImage (num : Num F) (kind : Combine) (bw : BitWidth) (pos bp : Nat) (src : Memory F) (p : Nat) :
    Option (Sample F) :=
  let m := blockSize bw bp
  let i := p % m % (m / 2)
  match Memory.read src (p / m * m + 2 * i), Memory.read src (p / m * m + 2 * i + 1) with
  | some x, some y =>
    some (if p % m < m / 2 then (butterfly num kind bw pos bp (p / m) i x y).1
      else (butterfly num kind bw pos bp (p / m) i x y).2)
  | _, _ => none

/-- Inside a block the image of the block is the image of the stage. -/
theorem blockImage_eq_stageImage (num : Num F) (kind : Combine) (bw : BitWidth) (pos bp : Nat) (src dst : Memory F)
    (h : bp < bw.val) (blk p : Nat) (hp : p / blockSize bw bp = blk) :
    blockImage (butterfly num kind bw pos bp blk) src (blockBase bw bp blk) (blockSize bw bp / 2)
      (blockSize bw bp / 2) dst p = stageImage num kind bw pos bp src p := by
  have hM := blockSize_half bw h
  have hpos : 0 < blockSize bw bp / 2 := by rw [halfSize_eq bw h]; exact Nat.two_pow_pos _
  unfold stageImage blockImage blockBase
  dsimp only
  rw [hp]
  generalize blockSize bw bp = m at *
  generalize hq : m / 2 = q at *
  have hdm := Nat.div_add_mod p m
  have hlt : p % m < m := Nat.mod_lt _ (by omega)
  rw [hp] at hdm
  rw [Nat.mul_comm m blk] at hdm
  generalize blk * m = base at *
  generalize hr : p % m = r at *
  by_cases hlow : r < q
  · have e1 : base ≤ p ∧ p < base + q := by omega
    have e2 : p - base = r := by omega
    have e3 : r % q = r := Nat.mod_eq_of_lt hlow
    simp only [e1, and_self, if_true, e2, e3, hlow]
  · have e1 : ¬(base ≤ p ∧ p < base + q) := by omega
    have e2 : base + q ≤ p ∧ p < base + q + q := by omega
    have e3 : p - base - q = r % q := by
      have : r % q = r - q := by
        rw [Nat.mod_eq_sub_mod (by omega), Nat.mod_eq_of_lt (by omega)]
      omega
    simp only [e1, e2, and_self, if_false, if_true, e3, hlow]

/-- Outside a block the combine changes nothing. -/
theorem blockImage_outside (f : Nat → Sample F → Sample F → Sample F × Sample F) (bw : BitWidth) (bp : Nat)
    (src dst : Memory F) (h : bp < bw.val) (blk p : Nat) (hp : p / blockSize bw bp ≠ blk) :
    blockImage f src (blockBase bw bp blk) (blockSize bw bp / 2) (blockSize bw bp / 2) dst p = Memory.read dst p := by
  have hM := blockSize_half bw h
  have hpos : 0 < blockSize bw bp / 2 := by rw [halfSize_eq bw h]; exact Nat.two_pow_pos _
  have hout : ¬(blockBase bw bp blk ≤ p ∧ p < blockBase bw bp blk + blockSize bw bp) := by
    rintro ⟨h1, h2⟩
    apply hp
    unfold blockBase at h1 h2
    apply Nat.div_eq_of_lt_le h1
    have : (blk + 1) * blockSize bw bp = blk * blockSize bw bp + blockSize bw bp := by ring
    omega
  unfold blockImage
  have e1 : ¬(blockBase bw bp blk ≤ p ∧ p < blockBase bw bp blk + blockSize bw bp / 2) := by omega
  have e2 : ¬(blockBase bw bp blk + blockSize bw bp / 2 ≤ p ∧
      p < blockBase bw bp blk + blockSize bw bp / 2 + blockSize bw bp / 2) := by omega
  simp only [e1, e2, if_false]

/-- Everything a run of blocks that succeeds has done. -/
theorem blocks_read (num : Num F) (kind : Combine) (bw : BitWidth) (pos bp : Nat) (b : Bit) (src dst d : Memory F)
    (hbp : bp < bw.val) (n : Nat) (h : loop (combineBlock num kind bw pos bp b src) n 0 dst = .ok d) (p : Nat) :
    Memory.read d p =
      if p / blockSize bw bp < n then stageImage num kind bw pos bp src p else Memory.read dst p := by
  have key := loop_inv (body := combineBlock num kind bw pos bp b src) (n := n) (i := 0)
    (P := fun k y => ∀ p, Memory.read y p =
      if p / blockSize bw bp < k then stageImage num kind bw pos bp src p else Memory.read dst p)
    (fun k y z _ _ ih hz p => by
      rw [combineBlock_read num kind bw pos bp b src k y z hz p]
      by_cases hp : p / blockSize bw bp = k
      · rw [blockImage_eq_stageImage num kind bw pos bp src y hbp k p hp, if_pos (by omega)]
      · rw [blockImage_outside _ bw bp src y hbp k p hp, ih p]
        have e : (p / blockSize bw bp < k + 1) ↔ (p / blockSize bw bp < k) := by omega
        simp only [e])
    (fun p => by simp) h
  rw [Nat.zero_add] at key
  exact key p

/-- Everything a stage that succeeds has done (R160 to R162): each of the `N` destination elements, nothing of the source,
`PAR + 1`. -/
theorem stage_spec (num : Num F) (kind : Combine) (bw : BitWidth) (pos bp : Nat) (x y : Pipeline F) (hbp : bp < bw.val)
    (h : stage num kind bw pos bp x = .ok y) :
    y.par = nextPar x.par ∧ y.bufs.get (sourceOf x.par) = x.bufs.get (sourceOf x.par) ∧
    ∀ p, Memory.read (y.bufs.get (destOf x.par)) p =
      if p < bw.size then stageImage num kind bw pos bp (x.bufs.get (sourceOf x.par)) p
      else Memory.read (x.bufs.get (destOf x.par)) p := by
  unfold stage at h
  cases hl : loop (combineBlock num kind bw pos bp (sourceOf x.par) (x.bufs.get (sourceOf x.par))) (2 ^ bp) 0
      (x.bufs.get (destOf x.par)) with
  | error e => rw [hl] at h; cases h
  | ok d =>
    rw [hl] at h
    cases h
    refine ⟨rfl, Bufs.get_source_set_dest _ _ _, fun p => ?_⟩
    rw [Bufs.get_set_same, blocks_read num kind bw pos bp _ _ _ d hbp _ hl p]
    have hpos : 0 < blockSize bw bp := by rw [blockSize_eq bw hbp]; exact Nat.two_pow_pos _
    have e : (p / blockSize bw bp < 2 ^ bp) ↔ (p < bw.size) := by
      rw [Nat.div_lt_iff_lt_mul hpos, blocks_tile bw hbp]
    simp only [e]

/-- A stage whose source elements all hold values succeeds. -/
theorem stage_ok (num : Num F) (kind : Combine) (bw : BitWidth) (pos bp : Nat) (x : Pipeline F) (hbp : bp < bw.val)
    (hs : ∀ j < bw.size, (Memory.read (x.bufs.get (sourceOf x.par)) j).isSome = true) :
    ∃ y, stage num kind bw pos bp x = .ok y := by
  have hM := blockSize_half bw hbp
  obtain ⟨d, hd, _⟩ := loop_ok_of
    (body := combineBlock num kind bw pos bp (sourceOf x.par) (x.bufs.get (sourceOf x.par))) (P := fun _ _ => True)
    (n := 2 ^ bp) (i := 0) (x := x.bufs.get (destOf x.par))
    (fun k y _ hk _ => by
      obtain ⟨d, hd⟩ := combineBlock_ok num kind bw pos bp (sourceOf x.par) (x.bufs.get (sourceOf x.par)) k y
        (fun j _ h2 => hs j (by
          rw [← hM] at h2
          unfold blockBase at h2
          have h3 : (k + 1) * blockSize bw bp ≤ 2 ^ bp * blockSize bw bp := Nat.mul_le_mul_right _ (by omega)
          have h4 : (k + 1) * blockSize bw bp = k * blockSize bw bp + blockSize bw bp := by ring
          rw [blocks_tile bw hbp] at h3
          omega))
      exact ⟨d, hd, trivial⟩) trivial
  exact ⟨_, by unfold stage; rw [hd]⟩

/-- A stage faults only on an element of its source that holds no value. -/
theorem stage_error (num : Num F) (kind : Combine) (bw : BitWidth) (pos bp : Nat) (x : Pipeline F) (hbp : bp < bw.val)
    (e : Fault) (h : stage num kind bw pos bp x = .error e) :
    ∃ j < bw.size, Memory.read (x.bufs.get (sourceOf x.par)) j = none ∧ e = .uninitRead (sourceOf x.par) j := by
  have hM := blockSize_half bw hbp
  unfold stage at h
  cases hl : loop (combineBlock num kind bw pos bp (sourceOf x.par) (x.bufs.get (sourceOf x.par))) (2 ^ bp) 0
      (x.bufs.get (destOf x.par)) with
  | ok d => rw [hl] at h; cases h
  | error e' =>
    rw [hl] at h
    cases h
    obtain ⟨k, y, _, hk, _, he⟩ := loop_error (P := fun _ _ => True) (fun _ _ _ _ _ _ _ => trivial) trivial hl
    obtain ⟨j, _, h2, h3, h4⟩ := combineBlock_error num kind bw pos bp _ _ k y e he
    refine ⟨j, ?_, h3, h4⟩
    rw [← hM] at h2
    unfold blockBase at h2
    have h5 : (k + 1) * blockSize bw bp ≤ 2 ^ bp * blockSize bw bp := Nat.mul_le_mul_right _ (by omega)
    have h4 : (k + 1) * blockSize bw bp = k * blockSize bw bp + blockSize bw bp := by ring
    rw [blocks_tile bw hbp] at h5
    omega

/-- What a stage writes holds values, so the next stage can read it. -/
theorem stageImage_isSome (num : Num F) (kind : Combine) (bw : BitWidth) (pos bp : Nat) (src : Memory F)
    (hbp : bp < bw.val) (hs : ∀ j < bw.size, (Memory.read src j).isSome = true) (p : Nat) (hp : p < bw.size) :
    (stageImage num kind bw pos bp src p).isSome = true := by
  have hM := blockSize_half bw hbp
  have hpos : 0 < blockSize bw bp / 2 := by rw [halfSize_eq bw hbp]; exact Nat.two_pow_pos _
  have hdiv : p / blockSize bw bp < 2 ^ bp := by
    rw [Nat.div_lt_iff_lt_mul (by omega), blocks_tile bw hbp]; exact hp
  have hbase : (p / blockSize bw bp + 1) * blockSize bw bp ≤ bw.size := by
    rw [← blocks_tile bw hbp]; exact Nat.mul_le_mul_right _ (by omega)
  have hring : (p / blockSize bw bp + 1) * blockSize bw bp =
      p / blockSize bw bp * blockSize bw bp + blockSize bw bp := by ring
  have hi : p % blockSize bw bp % (blockSize bw bp / 2) < blockSize bw bp / 2 := Nat.mod_lt _ hpos
  obtain ⟨x, hx⟩ := Option.isSome_iff_exists.1
    (hs (p / blockSize bw bp * blockSize bw bp + 2 * (p % blockSize bw bp % (blockSize bw bp / 2))) (by omega))
  obtain ⟨y, hy⟩ := Option.isSome_iff_exists.1
    (hs (p / blockSize bw bp * blockSize bw bp + 2 * (p % blockSize bw bp % (blockSize bw bp / 2)) + 1) (by omega))
  unfold stageImage
  simp only [hx, hy, Option.isSome_some]

end Sys2Proof.Machine
end

