-- ==== Sys2Proof/Laws/Phases.lean ====
section
/-!
SUPPORT. What the larger shared operations do, said once: a decimation as a chain of stages, the loader, the peak finder,
and how the outcome of a command follows from the computation under it.
-/

namespace Sys2Proof.Machine

variable {F : Type}

/-! ## Decimations -/

/-- A decimation that succeeds is a chain of stages (R163, R164). -/
theorem decimate_chain (num : Num F) (kind : Combine) (bw : BitWidth) (pos count : Nat) (x y : Pipeline F)
    (h : decimate num kind bw pos count x = .ok y) :
    ∃ c : Nat → Pipeline F, c 0 = x ∧ c count = y ∧
      ∀ k < count, stage num kind bw pos k (c k) = .ok (c (k + 1)) := by
  unfold decimate at h
  have key : ∀ (n i : Nat) (x : Pipeline F), loop (stage num kind bw pos) n i x = .ok y →
      ∃ c : Nat → Pipeline F, c 0 = x ∧ c n = y ∧ ∀ k < n, stage num kind bw pos (i + k) (c k) = .ok (c (k + 1)) := by
    intro n
    induction n with
    | zero =>
      intro i x h
      rw [loop_zero] at h
      exact ⟨fun _ => x, rfl, Except.ok.inj h, fun k hk => absurd hk (by omega)⟩
    | succ n ih =>
      intro i x h
      rw [loop_succ] at h
      cases hb : stage num kind bw pos i x with
      | error e => rw [hb] at h; cases h
      | ok z =>
        rw [hb] at h
        obtain ⟨c, h0, hn, hk⟩ := ih (i + 1) z h
        refine ⟨fun k => if k = 0 then x else c (k - 1), by simp, by simp [hn], fun k hk' => ?_⟩
        cases k with
        | zero => simp [hb, h0]
        | succ k =>
          have := hk k (by omega)
          have e : i + (k + 1) = i + 1 + k := by omega
          simp only [e, Nat.add_one_ne_zero, if_false, Nat.add_sub_cancel]
          exact this
  obtain ⟨c, h0, hn, hk⟩ := key count 0 x h
  exact ⟨c, h0, hn, fun k h => by simpa using hk k h⟩

/-- `PAR` after `n` stages (R163, R164). -/
theorem nextPar_toNat (par : BitVec 8) : (nextPar par).toNat = (par.toNat + 1) % 256 := by
  unfold nextPar
  simp [BitVec.toNat_add]

/-- A decimation whose source holds `N` values succeeds; `PAR` has advanced by one per stage, and the Buffer it names
holds `N` values again. -/
theorem decimate_ok (num : Num F) (kind : Combine) (bw : BitWidth) (pos count : Nat) (x : Pipeline F)
    (hc : count ≤ bw.val)
    (hs : ∀ j < bw.size, (Memory.read (x.bufs.get (sourceOf x.par)) j).isSome = true) :
    ∃ y, decimate num kind bw pos count x = .ok y ∧ y.par.toNat = (x.par.toNat + count) % 256 ∧
      ∀ j < bw.size, (Memory.read (y.bufs.get (sourceOf y.par)) j).isSome = true := by
  unfold decimate
  obtain ⟨y, hy, hP⟩ := loop_ok_of (body := stage num kind bw pos) (n := count) (i := 0) (x := x)
    (P := fun k (y : Pipeline F) => y.par.toNat = (x.par.toNat + k) % 256 ∧
      ∀ j < bw.size, (Memory.read (y.bufs.get (sourceOf y.par)) j).isSome = true)
    (fun k y _ hk hP => by
      have hk' : k < bw.val := by omega
      obtain ⟨z, hz⟩ := stage_ok num kind bw pos k y hk' hP.2
      obtain ⟨h1, h2, h3⟩ := stage_spec num kind bw pos k y z hk' hz
      refine ⟨z, hz, ?_, fun j hj => ?_⟩
      · rw [h1, nextPar_toNat, hP.1]; omega
      · rw [h1, sourceOf_nextPar, h3 j, if_pos hj]
        exact stageImage_isSome num kind bw pos k _ hk' hP.2 j hj)
    ⟨by have := x.par.isLt; omega, hs⟩
  rw [Nat.zero_add] at hP
  exact ⟨y, hy, hP.1, hP.2⟩

/-- A decimation of at least one stage faults only on an element of its source at entry that holds no value. -/
theorem decimate_error (num : Num F) (kind : Combine) (bw : BitWidth) (pos count : Nat) (x : Pipeline F) (e : Fault)
    (hc : count ≤ bw.val) (h : decimate num kind bw pos count x = .error e) :
    ∃ j < bw.size, Memory.read (x.bufs.get (sourceOf x.par)) j = none ∧ e = .uninitRead (sourceOf x.par) j := by
  cases count with
  | zero => cases h
  | succ n =>
    unfold decimate at h
    rw [loop_succ] at h
    cases hb : stage num kind bw pos 0 x with
    | error e' =>
      rw [hb] at h
      cases h
      exact stage_error num kind bw pos 0 x (by omega) e hb
    | ok z =>
      rw [hb] at h
      exfalso
      obtain ⟨h1, h2, h3⟩ := stage_spec num kind bw pos 0 x z (by omega) hb
      by_cases hs : ∀ j < bw.size, (Memory.read (x.bufs.get (sourceOf x.par)) j).isSome = true
      · obtain ⟨y, hy, _⟩ := decimate_ok num kind bw pos (n + 1) x hc hs
        unfold decimate at hy
        rw [loop_succ, hb, h] at hy
        cases hy
      · apply hs
        intro j hj
        have hbp : (0 : Nat) < bw.val := by omega
        have hM := blockSize_half bw hbp
        have ht := blocks_tile bw hbp
        rw [Nat.pow_zero, Nat.one_mul] at ht
        have hl := hb
        unfold stage at hl
        cases hq : loop (combineBlock num kind bw pos 0 (sourceOf x.par) (x.bufs.get (sourceOf x.par))) (2 ^ 0) 0
            (x.bufs.get (destOf x.par)) with
        | error e => rw [hq] at hl; cases hl
        | ok d =>
          rw [Nat.pow_zero, loop_succ] at hq
          cases hc0 : combineBlock num kind bw pos 0 (sourceOf x.par) (x.bufs.get (sourceOf x.par)) 0
              (x.bufs.get (destOf x.par)) with
          | error e => rw [hc0] at hq; cases hq
          | ok d0 =>
            have hr := combineBlock_read num kind bw pos 0 _ _ 0 _ d0 hc0
            unfold combineBlock at hc0
            have key := loop_inv (body := butterflyStep (butterfly num kind bw pos 0 0) (sourceOf x.par)
                (x.bufs.get (sourceOf x.par)) (blockBase bw 0 0) (blockSize bw 0 / 2)) (n := blockSize bw 0 / 2) (i := 0)
              (P := fun k _ => ∀ j < 2 * k, (Memory.read (x.bufs.get (sourceOf x.par)) j).isSome = true)
              (fun k y z _ _ ih hz j hj => by
                obtain ⟨x1, x2, g1, g2, _⟩ := (butterflyStep_ok_iff _ _ _ _ _ k y z).1 hz
                have hb0 : blockBase bw 0 0 = 0 := Nat.zero_mul _
                rw [hb0, Nat.zero_add] at g1 g2
                rcases Nat.lt_or_ge j (2 * k) with hlt | hge
                · exact ih j hlt
                · rcases Nat.lt_or_ge j (2 * k + 1) with h5 | h5
                  · have : j = 2 * k := by omega
                    rw [this, g1]; rfl
                  · have : j = 2 * k + 1 := by omega
                    rw [this, g2]; rfl)
              (fun j hj => absurd hj (by omega)) hc0
            exact key j (by omega)

/-! ## The loader -/

/-- What an element holds after the loader has written samples from index `i` on (R190). -/
theorem loadFrom_read (num : Num F) (ns : List Half) (i : Nat) (m : Memory F) (p : Nat) :
    Memory.read (loadFrom num ns i m) p =
      if i ≤ p ∧ p < i + ns.length then (ns[p - i]?).map fun n => ⟨num.u16tof n, num.zero⟩ else Memory.read m p := by
  induction ns generalizing i m with
  | nil =>
    have e : ¬(i ≤ p ∧ p < i + ([] : List Half).length) := by simp
    rw [if_neg e]
    rfl
  | cons n ns ih =>
    unfold loadFrom
    rw [ih, Memory.read_write]
    by_cases h : i = p
    · subst h
      have e1 : ¬(i + 1 ≤ i ∧ i < i + 1 + ns.length) := by omega
      have e2 : i ≤ i ∧ i < i + (n :: ns).length := by simp
      rw [if_neg e1, if_pos rfl, if_pos e2, Nat.sub_self]
      rfl
    · rw [if_neg h]
      by_cases h1 : i + 1 ≤ p ∧ p < i + 1 + ns.length
      · have e2 : i ≤ p ∧ p < i + (n :: ns).length := by simp only [List.length_cons]; omega
        have e3 : p - i = p - (i + 1) + 1 := by omega
        rw [if_pos h1, if_pos e2, e3, List.getElem?_cons_succ]
      · have e2 : ¬(i ≤ p ∧ p < i + (n :: ns).length) := by simp only [List.length_cons]; omega
        rw [if_neg h1, if_neg e2]

/-- The loader keeps the canonical form. -/
theorem loadFrom_wf (num : Num F) (ns : List Half) (i n : Nat) (m : Memory F) (hn : i + ns.length ≤ n)
    (hm : Memory.wf n m = true) : Memory.wf n (loadFrom num ns i m) = true := by
  induction ns generalizing i m with
  | nil => exact hm
  | cons a ns ih =>
    simp only [List.length_cons] at hn
    exact ih (i + 1) _ (by omega) (Memory.write_wf n m i _ (by omega) hm)

/-! ## The peak finder -/

/-- One visited bin, said once (R205). -/
theorem peakBin_ok_iff (num : Num F) (pos : Nat) (b : Bit) (i : Nat) (x y : Peak F) :
    peakBin num pos b i x = .ok y ↔
      ∃ v, Memory.read x.mem i = some v ∧
        y.mem = Memory.write x.mem i ⟨cabs num ⟨pos, 0, 0, i, 0⟩ v, num.zero⟩ ∧
        y.pkidx = (if num.fge (cabs num ⟨pos, 0, 0, i, 0⟩ v) x.pkmag then BitVec.ofNat 24 i else x.pkidx) ∧
        y.pkmag = (if num.fge (cabs num ⟨pos, 0, 0, i, 0⟩ v) x.pkmag then cabs num ⟨pos, 0, 0, i, 0⟩ v else x.pkmag) := by
  obtain ⟨ym, yi, yg⟩ := y
  unfold peakBin bufRead
  cases h : Memory.read x.mem i with
  | none => simp
  | some v =>
    simp only [Option.some.injEq]
    constructor
    · intro hy
      refine ⟨v, rfl, ?_⟩
      by_cases hg : num.fge (cabs num ⟨pos, 0, 0, i, 0⟩ v) x.pkmag = true
      · rw [if_pos hg] at hy
        cases hy
        exact ⟨rfl, by rw [if_pos hg], by rw [if_pos hg]⟩
      · rw [if_neg hg] at hy
        cases hy
        exact ⟨rfl, by rw [if_neg hg], by rw [if_neg hg]⟩
    · rintro ⟨w, rfl, h1, h2, h3⟩
      by_cases hg : num.fge (cabs num ⟨pos, 0, 0, i, 0⟩ v) x.pkmag = true
      · rw [if_pos hg] at h2 h3
        rw [if_pos hg, h1, h2, h3]
      · rw [if_neg hg] at h2 h3
        rw [if_neg hg, h1, h2, h3]

theorem peakBin_error (num : Num F) (pos : Nat) (b : Bit) (i : Nat) (x : Peak F) (e : Fault)
    (h : peakBin num pos b i x = .error e) : Memory.read x.mem i = none ∧ e = .uninitRead b i := by
  unfold peakBin bufRead at h
  cases hr : Memory.read x.mem i with
  | none => rw [hr] at h; cases h; exact ⟨rfl, rfl⟩
  | some v =>
    rw [hr] at h
    dsimp only at h
    split at h <;> cases h

/-! ## Outcomes -/

@[simp] theorem outcomeOf_ok (s : State) : outcomeOf (.ok s) = .next s := rfl
@[simp] theorem outcomeOf_error (e : Fault) : outcomeOf (.error e) = .fault e := rfl

theorem outcomeOf_next (x : Except Fault State) (t : State) : outcomeOf x = .next t ↔ x = .ok t := by
  cases x <;> simp

theorem outcomeOf_fault (x : Except Fault State) (e : Fault) : outcomeOf x = .fault e ↔ x = .error e := by
  cases x <;> simp

theorem ranged_of_wf {i : Instr} {s : State} (k : Host.Outcome State Fault Refusal) (h : i.wf s.bw = true) :
    ranged i s k = k := by unfold ranged; rw [if_pos h]

theorem ranged_of_not_wf {i : Instr} {s : State} (k : Host.Outcome State Fault Refusal) (h : i.wf s.bw = false) :
    ranged i s k = .fault (.operandRange (encodeHead i) s.cmdPos) := by
  unfold ranged
  rw [if_neg (by rw [h]; decide)]

theorem ranged_next {i : Instr} {s t : State} {k : Host.Outcome State Fault Refusal} (h : ranged i s k = .next t) :
    i.wf s.bw = true ∧ k = .next t := by
  unfold ranged at h
  split at h
  · exact ⟨by assumption, h⟩
  · cases h

/-- A command over the Buffers and `PAR` that answers a next state, said once. -/
theorem runPipeline_ok (f : Pipeline F32 → Except Fault (Pipeline F32)) (s t : State)
    (h : runPipeline f s = .ok t) : ∃ x, f s.pipeline = .ok x ∧ t = (s.setPipeline x).retire 1 := by
  unfold runPipeline at h
  cases hf : f s.pipeline with
  | error e => rw [hf] at h; cases h
  | ok x => rw [hf] at h; cases h; exact ⟨x, rfl, rfl⟩

end Sys2Proof.Machine
end

