-- ==== Sys2Proof/Tests/Slice0.lean ====
section
/-!
SUPPORT. Tests of one step each. Every expected value is taken from spec/ (the worked encodings of R92, the vectors of
95_test_vectors.md, the examples of the rules), none from the model. At the end, for every statement with hypotheses, a
witness: a concrete state and operands that meet all of them, with a boundary value for each clause.
-/

-- One theorem after the other: elaborated side by side, this many kernel evaluations exhaust the sandbox's threads.
set_option Elab.async false

namespace Sys2Proof.Machine

/-! ## Helpers -/

/-- The builds of the spec's small vectors. -/
def w2 : BitWidth := ⟨2, by decide, by decide⟩
def w3 : BitWidth := ⟨3, by decide, by decide⟩
def w4 : BitWidth := ⟨4, by decide, by decide⟩

/-- A reset unit of a build, with words on CMD and samples on SMP. -/
def unit (bw : BitWidth) (cmd : List Word) (smp : List Half) : State :=
  { State.resetAt bw with cmd := cmd, smp := smp }

/-- A Buffer holding values from index 0 on. -/
def bufOf (vs : List (F32 × F32)) : Memory F32 := vs.zipIdx.map fun (v, i) => (i, ⟨v.1, v.2⟩)

/-- The field of the next state a test looks at. -/
def after {α : Type} (o : Host.Outcome State Fault Refusal) (f : State → α) : Option α :=
  match o with
  | .next t => some (f t)
  | .fault _ => none
  | .refused _ => none

/-- The fault a test expects. -/
def faultOf (o : Host.Outcome State Fault Refusal) : Option Fault :=
  match o with
  | .fault e => some e
  | .next _ => none
  | .refused _ => none

/-! ## Well-formedness: each check of R84 refuses an ill-formed term -/

theorem test_wf_rdb_idx : (Instr.rdb 0#1 4096#24).wf Config.referenceWidth = false := by decide
theorem test_wf_wrb_idx : (Instr.wrb 1#1 4#24 0#32 0#32).wf w2 = false := by decide
theorem test_wf_sstg_bp : (Instr.sstg 12#5).wf Config.referenceWidth = false := by decide
theorem test_wf_tstg_bp : (Instr.tstg 2#5).wf w2 = false := by decide
theorem test_wf_scomb_blk : (Instr.scomb 1#5 2#23).wf Config.referenceWidth = false := by decide
theorem test_wf_tcomb_bp : (Instr.tcomb 31#5 0x7FFFFF#23).wf Config.referenceWidth = false := by decide
theorem test_wf_tcomb_last : (Instr.tcomb 11#5 2047#23).wf Config.referenceWidth = true := by decide

/-! ## Decoding: words written out from the formats of R81; section 4 of the vectors -/

theorem test_decode_load : decode [0b00010000000000000000000000000000#32] = .whole .load [] := by decide
theorem test_decode_fft : decode [0b00100000000000000000000000000000#32] = .whole .fft [] := by decide
theorem test_decode_findf :
    decode [0b00110001000000000000000000000000#32, 0x43FA0000#32] = .whole (.findf 1#1 0x43FA0000#32) [] := by decide
theorem test_decode_rdb : decode [0b01000001000000000000010000000000#32] = .whole (.rdb 1#1 1024#24) [] := by decide
theorem test_decode_wrb :
    decode [0b01010000000000000000000000000011#32, 0x3F800000#32, 0xC0000000#32, 7#32] =
      .whole (.wrb 0#1 3#24 0x3F800000#32 0xC0000000#32) [7#32] := by decide
theorem test_decode_stat : decode [0b01100000000000000000000000000000#32] = .whole .stat [] := by decide
theorem test_decode_bitrev : decode [0b01110110000000000000001100110011#32] = .whole (.bitrev 12#5 819#23) [] := by decide
theorem test_decode_pinit : decode [0b10000000000000000000000000000000#32] = .whole .pinit [] := by decide
theorem test_decode_sdec : decode [0b10010000000000000000000000000000#32] = .whole .sdec [] := by decide
theorem test_decode_tdec : decode [0b10100000000000000000000000000000#32] = .whole .tdec [] := by decide
theorem test_decode_rebind : decode [0b10110000000000000000000000000000#32] = .whole .rebind [] := by decide
theorem test_decode_sstg : decode [0b11000001100000000000000000000000#32] = .whole (.sstg 3#5) [] := by decide
theorem test_decode_tstg : decode [0b11010101100000000000000000000000#32] = .whole (.tstg 11#5) [] := by decide
theorem test_decode_scomb : decode [0b11100000100000000000000000000001#32] = .whole (.scomb 1#5 1#23) [] := by decide
theorem test_decode_tcomb : decode [0b11110001000000000000000000000011#32] = .whole (.tcomb 2#5 3#23) [] := by decide
theorem test_decode_opcode_zero : decode [0x0FFFFFFF#32] = .illegal 0x0FFFFFFF#32 := by decide
theorem test_decode_mbz_z : decode [0x10000001#32] = .illegal 0x10000001#32 := by decide
theorem test_decode_mbz_r : decode [0x31000001#32, 0#32] = .illegal 0x31000001#32 := by decide
theorem test_decode_mbz_x : decode [0x42000000#32] = .illegal 0x42000000#32 := by decide
theorem test_decode_mbz_s : decode [0xC0000001#32] = .illegal 0xC0000001#32 := by decide
theorem test_decode_payload_missing : decode [0x50000001#32, 0x3F800000#32] =
    .partialCmd (.wrb 0#1 1#24 0x3F800000#32 0#32) := by decide
theorem test_table_word_wrb : decodeTableWord 32 0x51000000 = some (.wrb 1#1 0#24 0#32 0#32) := by decide

/-! ## Numerics: section 3 of the vectors -/

/-- Any site: none of these operations makes a NaN. -/
def site0 : Site := ⟨0, 0, 0, 0, 0⟩

theorem test_fadd_tie_even : f32Add site0 0x3F800000#32 0x34400000#32 = 0x3F800002#32 := by decide +kernel
theorem test_fadd_overflow : f32Add site0 0x7F7FFFFF#32 0x7F7FFFFF#32 = 0x7F800000#32 := by decide +kernel
theorem test_fsub_negative_zero : f32Sub site0 0x80000000#32 0x00000000#32 = 0x80000000#32 := by decide +kernel
theorem test_fmul_rounds : f32Mul site0 0x3DCCCCCD#32 0x3DCCCCCD#32 = 0x3C23D70B#32 := by decide +kernel
theorem test_fmul_subnormal_tie : f32Mul site0 0x00000003#32 0x3F000000#32 = 0x00000002#32 := by decide +kernel
theorem test_fdiv_subnormal : f32Div site0 0x00800000#32 0x45800000#32 = 0x00000800#32 := by decide +kernel
theorem test_fdiv_exact : f32Div site0 0x48C7F380#32 0x45800000#32 = 0x42C7F380#32 := by decide +kernel
theorem test_fsqrt_eight : f32Sqrt site0 0x41000000#32 = 0x403504F3#32 := by decide +kernel
theorem test_fsqrt_subnormal : f32Sqrt site0 0x00000001#32 = 0x1A3504F3#32 := by decide +kernel
theorem test_fge_zeros : f32Ge 0x80000000#32 0x00000000#32 = true := by decide +kernel
theorem test_fge_nan : f32Ge 0x7FC00000#32 0x00000000#32 = false := by decide +kernel
theorem test_u16tof_max : f32OfHalf 65535#16 = 0x477FFF00#32 := by decide +kernel
theorem test_itof_max : f32OfNat 16777216 = 0x4B800000#32 := by decide +kernel
theorem test_tw_8_1 : twiddle w3 1 = ⟨0x3F3504F3#32, 0xBF3504F3#32⟩ := by decide +kernel
theorem test_tw_16_5 : twiddle w4 5 = ⟨0xBEC3EF15#32, 0xBF6C835E#32⟩ := by decide +kernel
theorem test_tw_4096_1 : twiddle Config.referenceWidth 1 = ⟨0x3F7FFFEC#32, 0xBAC90FD5#32⟩ := by decide +kernel
theorem test_tw_4096_2047 : twiddle Config.referenceWidth 2047 = ⟨0xBF7FFFEC#32, 0xBAC90FD5#32⟩ := by decide +kernel
theorem test_cmul_3_4 : cmul binary32 site0 ⟨0x40400000#32, 0x40800000#32⟩ ⟨0x3F3504F3#32, 0xBF3504F3#32⟩ =
    ⟨0x409E6454#32, 0x3F3504F4#32⟩ := by decide +kernel
theorem test_cabs_overflow : cabs binary32 site0 ⟨0x60AD78EC#32, 0#32⟩ = 0x7F800000#32 := by decide +kernel

/-! ## The commands, one step each -/

/-- A1. -/
theorem test_load : after (step (unit w2 [0x10000000#32] [0#16, 1#16, 65535#16, 1000#16])) (fun t => (t.bufs, t.smp, t.cp)) =
    some (⟨bufOf [(0#32, 0#32), (0x3F800000#32, 0#32), (0x477FFF00#32, 0#32), (0x447A0000#32, 0#32)], []⟩, [], 1) := by
  decide +kernel

/-- A3, X12. -/
theorem test_load_waits : after (step (unit w2 [0x10000000#32] [1#16, 2#16, 3#16])) (fun t => (t.bufs.buf0, t.smp.length, t.cp)) =
    some ([], 3, 1) := by decide +kernel

/-- T4.1: `FFT` of 1 2 3 4. -/
theorem test_fft : after (step { unit w2 [0x20000000#32] [] with
      bufs := ⟨bufOf [(0x3F800000#32, 0#32), (0x40000000#32, 0#32), (0x40400000#32, 0#32), (0x40800000#32, 0#32)], []⟩ })
      (fun t => (t.bufs.buf0, t.inSel, t.par, t.rsp)) =
    some (bufOf [(0x41200000#32, 0#32), (0xC0000000#32, 0x40000000#32), (0xC0000000#32, 0#32), (0xC0000000#32, 0xC0000000#32)],
      1#1, 4#8, [0#32]) := by decide +kernel

/-- X1. -/
theorem test_fft_before_load : faultOf (step (unit w2 [0x20000000#32] [])) = some (.uninitRead 0#1 0) := by decide +kernel

/-- The example of R205. -/
theorem test_findf : after (step { unit w2 [0x31000000#32, 0x40800000#32] [] with
      inSel := 1#1
      bufs := ⟨bufOf [(0x41200000#32, 0#32), (0xC0000000#32, 0x40000000#32), (0xC0000000#32, 0#32), (0xC0000000#32, 0xC0000000#32)], []⟩ })
      (fun t => (Memory.read t.bufs.buf0 1, t.pkidx, t.pkmag, t.rsp)) =
    some (some ⟨0x403504F3#32, 0#32⟩, 1#24, 0x403504F3#32, [0x3F800000#32]) := by decide +kernel

/-- K2: three equal magnitudes, the highest index wins. -/
theorem test_findf_tie : after (step { unit w3 [0x30000000#32, 0x41000000#32] [] with
      bufs := ⟨bufOf [(0#32, 0#32), (0x40000000#32, 0#32), (0x40000000#32, 0#32), (0x40000000#32, 0#32)], []⟩ })
      (fun t => (t.pkidx, t.rsp)) = some (3#24, [0x40400000#32]) := by decide +kernel

/-- A5. -/
theorem test_rdb : after (step { unit w2 [0x40000001#32] [] with bufs := ⟨[(1, ⟨0x7FC00001#32, 0x80000000#32⟩)], []⟩ })
    (fun t => t.rsp) = some [0x7FC00001#32, 0x80000000#32] := by decide +kernel

/-- A4: an element that holds no value. -/
theorem test_rdb_no_value : faultOf (step (unit w2 [0x41000000#32] [])) = some (.uninitRead 1#1 0) := by decide +kernel

/-- The example of R192. -/
theorem test_wrb : after (step (unit w2 [0x50000003#32, 0x3F800000#32, 0xC0000000#32] [])) (fun t => (t.bufs.buf0, t.cp)) =
    some ([(3, ⟨0x3F800000#32, 0xC0000000#32⟩)], 3) := by decide +kernel

/-- X7, and the same before the payload has arrived (R224). -/
theorem test_wrb_range : faultOf (step (unit w2 [0x50000004#32] [])) = some (.operandRange 0x50000004#32 0) := by decide +kernel

/-- The example of R208: `BW = 2`, `PAR = 4`, `IN_SEL = 1`. -/
theorem test_stat : after (step { unit w2 [0x60000000#32] [] with
      inSel := 1#1, par := 4#8, pkidx := 1#24, pkmag := 0x403504F3#32 }) (fun t => t.rsp) =
    some [0x00020401#32, 0x00000001#32, 0x403504F3#32] := by decide +kernel

/-- Section 5: bits of `v` at or above `nb` are ignored; `nb` above 23 is legal. -/
theorem test_bitrev : after (step (unit w2 [0x7180000E#32] [])) (fun t => t.rsp) = some [3#32] := by decide +kernel
theorem test_bitrev_31 : after (step (unit w2 [0x7FFFFFFF#32] [])) (fun t => t.rsp) = some [0x7FFFFF00#32] := by decide +kernel

/-- The example of R175. -/
theorem test_pinit : after (step { unit w2 [0x80000000#32] [] with inSel := 1#1, par := 34#8 }) (fun t => t.par) = some 1#8 := by
  decide +kernel

/-- The examples of R179. -/
theorem test_rebind_even : after (step { unit w2 [0xB0000000#32] [] with par := 34#8 }) (fun t => t.inSel) = some 1#1 := by
  decide +kernel
theorem test_rebind_odd : after (step { unit w2 [0xB0000000#32] [] with par := 7#8 }) (fun t => t.inSel) = some 0#1 := by
  decide +kernel

/-- The integers of a list as Samples of a Buffer, imaginary part zero. -/
def ints (vs : List Nat) : Memory F32 := bufOf (vs.map fun n => (f32OfNat n, 0#32))

/-- The example of R163. -/
theorem test_sdec : after (step { unit w3 [0x90000000#32] [] with bufs := ⟨ints [0, 1, 2, 3, 4, 5, 6, 7], []⟩ })
    (fun t => (t.bufs, t.par)) =
    some (⟨ints [0, 4, 2, 6, 1, 5, 3, 7], ints [0, 2, 4, 6, 1, 3, 5, 7]⟩, 2#8) := by decide +kernel

/-- The example of R164, with the Buffers of R162. -/
theorem test_tdec : after (step { unit w2 [0xA0000000#32] [] with par := 1#8, bufs := ⟨[], ints [1, 3, 2, 4]⟩ })
    (fun t => (t.bufs.buf1, t.par)) =
    some (bufOf [(0x41200000#32, 0#32), (0xC0000000#32, 0#32), (0xC0000000#32, 0x40000000#32), (0xC0000000#32, 0xC0000000#32)], 3#8) := by
  decide +kernel

/-- The example of R161. -/
theorem test_sstg : after (step { unit w3 [0xC0800000#32] [] with par := 1#8, bufs := ⟨[], ints [0, 2, 4, 6, 1, 3, 5, 7]⟩ })
    (fun t => (t.bufs.buf0, t.par)) = some (ints [0, 4, 2, 6, 1, 5, 3, 7], 2#8) := by decide +kernel

/-- `bp = BW − 1` is a copy (R161). -/
theorem test_sstg_copy : after (step { unit w3 [0xC1000000#32] [] with bufs := ⟨ints [0, 1, 2, 3, 4, 5, 6, 7], []⟩ })
    (fun t => (t.bufs.buf1, t.par)) = some (ints [0, 1, 2, 3, 4, 5, 6, 7], 1#8) := by decide +kernel

/-- The example of R162. -/
theorem test_tstg : after (step { unit w2 [0xD0000000#32] [] with par := 1#8, bufs := ⟨[], ints [1, 3, 2, 4]⟩ })
    (fun t => (t.bufs.buf0, t.par)) =
    some (bufOf [(0x40800000#32, 0#32), (0x40C00000#32, 0#32), (0xC0000000#32, 0#32), (0xC0000000#32, 0#32)], 2#8) := by
  decide +kernel

/-- The example of R146. -/
theorem test_scomb : after (step { unit w3 [0xE0800001#32] [] with bufs := ⟨ints [0, 1, 2, 3, 4, 5, 6, 7], []⟩ })
    (fun t => (t.bufs.buf1, t.par)) =
    some ([(4, ⟨f32OfNat 4, 0#32⟩), (5, ⟨f32OfNat 6, 0#32⟩), (6, ⟨f32OfNat 5, 0#32⟩), (7, ⟨f32OfNat 7, 0#32⟩)], 0#8) := by
  decide +kernel

/-- B3: `TCOMB 2, 3`. -/
theorem test_tcomb : after (step { unit w3 [0xF1000003#32] [] with
      bufs := ⟨[(6, ⟨0x40400000#32, 0x40800000#32⟩), (7, ⟨0x3F800000#32, 0x3F800000#32⟩)], []⟩ }) (fun t => t.bufs.buf1) =
    some [(6, ⟨0x40400000#32, 0x40257D86#32⟩), (7, ⟨0x40400000#32, 0x40AD413D#32⟩)] := by decide +kernel

/-- X10. -/
theorem test_tcomb_no_value : faultOf (step (unit w2 [0xF0800001#32] [])) = some (.uninitRead 0#1 2) := by decide +kernel

/-- X5: nothing after an illegal word is taken. -/
theorem test_illegal : faultOf (step (unit w2 [0x32000000#32, 0#32] [])) = some (.illegalCommand 0x32000000#32 0) := by
  decide +kernel

/-- X14: the words that are there have been taken. -/
theorem test_wrb_waits : after (step (unit w2 [0x50000001#32, 0x3F800000#32] [])) (fun t => (t.bufs, t.cmd, t.cp, t.waits)) =
    some (⟨[], []⟩, [], 2, true) := by decide +kernel

/-! ## Witnesses: for each statement with hypotheses, states and operands that meet them

`witness_<Name>` is for the statement `Obligations.<Name>`. -/

/-- The next state of an outcome. -/
def nextOf (o : Host.Outcome State Fault Refusal) : State :=
  match o with
  | .next t => t
  | .fault _ => State.reset
  | .refused _ => State.reset

/-- An outcome that is a next state, by evaluation. -/
theorem next_nextOf {o : Host.Outcome State Fault Refusal} (h : (after o fun _ => ()) = some ()) : o = .next (nextOf o) := by
  cases o <;> simp_all [after, nextOf]

/-- An outcome that is a fault, by evaluation. -/
theorem fault_of {o : Host.Outcome State Fault Refusal} {e : Fault} (h : faultOf o = some e) : o = .fault e := by
  cases o <;> simp_all [faultOf]

/-- A computation that completes, by evaluation. -/
theorem exists_ok {α : Type} {x : Except Fault α} (h : x.toBool = true) : ∃ y, x = .ok y := by
  cases x with
  | ok y => exact ⟨y, rfl⟩
  | error e => simp [Except.toBool] at h

/-- A four-element Buffer `1 2 3 4`, and a unit of that size whose input Buffer it is. -/
def four : Memory F32 := ints [1, 2, 3, 4]
def unit4 : State := { unit w2 [] [] with bufs := ⟨four, []⟩ }

/-- Four zeros; a component that is a NaN; a Buffer that lacks element 1. -/
def zeros4 : Memory F32 := bufOf [(0#32, 0#32), (0#32, 0#32), (0#32, 0#32), (0#32, 0#32)]
def nan4 : Memory F32 := bufOf [(0#32, 0#32), (0x7FC00000#32, 0#32), (0#32, 0#32), (0#32, 0#32)]
def hole4 : Memory F32 := [(0, ⟨0#32, 0#32⟩), (3, ⟨0#32, 0#32⟩)]

theorem witness_EncodeOfDecodedCommand :
    decode [0x50000003#32, 0x3F800000#32, 0xC0000000#32, 7#32] =
      .whole (.wrb 0#1 3#24 0x3F800000#32 0xC0000000#32) [7#32] := by decide

/-- One word for each clause of R87, and two legal words next to them. -/
theorem witness_IllegalWordsFault :
    (unit w2 [0x00000001#32] []).window = [0x00000001#32] ∧
    ([0x00000001#32, 0x18000000#32, 0xB0000001#32, 0x32000000#32, 0x30000001#32, 0x48000000#32, 0x52000000#32,
      0xC0400000#32, 0xD0000001#32].all fun w =>
        faultOf (step (unit w2 [w] [])) == some (.illegalCommand w 0)) = true ∧
    ([0x7FFFFFFF#32, 0xB0000000#32].all fun w => (faultOf (step (unit w2 [w] []))).isNone) = true := by decide +kernel

/-- The last legal and the first illegal value of each range of R84, payload there or not. -/
theorem witness_OperandsOutOfRangeFault :
    decode (unit w2 [0x50000004#32] []).window = .partialCmd (.wrb 0#1 4#24 0#32 0#32) ∧
    decode (unit w2 [0x40000004#32] []).window = .whole (.rdb 0#1 4#24) [] ∧
    ([0x40000004#32, 0x50000004#32, 0xC1000000#32, 0xD1000000#32, 0xE1000000#32, 0xE0800002#32, 0xF1000000#32,
      0xF0800002#32].all fun w => faultOf (step (unit w2 [w] [])) == some (.operandRange w 0)) = true ∧
    ([0x40000003#32, 0x50000003#32, 0xC0800000#32, 0xD0800000#32, 0xE0800001#32, 0xF0800001#32].all fun w =>
      faultOf (step (unit w2 [w] [])) != some (.operandRange w 0)) = true := by decide +kernel

/-- A clause each: a whole command, a command that lacks its payload, an empty CMD. -/
theorem witness_StepRunsTheDecodedCommand :
    decode (unit w2 [0x60000000#32] []).window = .whole .stat [] ∧
    decode (unit w2 [0x50000003#32] []).window = .partialCmd (.wrb 0#1 3#24 0#32 0#32) ∧
    (Instr.wrb 0#1 3#24 0#32 0#32).wf w2 = true ∧ (unit w2 [] []).window = [] := by decide

theorem witness_CompletedCommandLeavesTheStream :
    exec .load (unit w2 [0x10000000#32] [1#16, 2#16, 3#16, 4#16]) =
      .next (nextOf (exec .load (unit w2 [0x10000000#32] [1#16, 2#16, 3#16, 4#16]))) ∧
    (unit w2 [0x10000000#32] [1#16, 2#16, 3#16, 4#16]).bw.size ≤ (unit w2 [0x10000000#32] [1#16, 2#16, 3#16, 4#16]).smp.length :=
  ⟨next_nextOf (by decide +kernel), by decide⟩

/-- One command for each count: 0, 1, 2 and 3 words. -/
theorem witness_ResponseWordCounts :
    (∃ t, exec .pinit unit4 = .next t) ∧ (∃ t, exec .fft unit4 = .next t) ∧ (∃ t, exec (.rdb 0#1 3#24) unit4 = .next t) ∧
    ∃ t, exec .stat unit4 = .next t :=
  ⟨⟨_, next_nextOf (by decide +kernel)⟩, ⟨_, next_nextOf (by decide +kernel)⟩, ⟨_, next_nextOf (by decide +kernel)⟩,
    ⟨_, next_nextOf (by decide +kernel)⟩⟩

/-- Steps that do change the roles, the parity and the Buffers, and the peak. -/
theorem witness_OnlyItsWritersChangeARegister :
    (∃ t, exec .fft unit4 = .next t ∧ t.inSel ≠ unit4.inSel ∧ t.par ≠ unit4.par ∧ t.bufs ≠ unit4.bufs) ∧
    ∃ t, exec (.findf 0#1 0x3F800000#32) unit4 = .next t ∧ t.pkidx ≠ unit4.pkidx ∧ t.pkmag ≠ unit4.pkmag :=
  ⟨⟨_, next_nextOf (by decide +kernel), by decide +kernel, by decide +kernel, by decide +kernel⟩,
    ⟨_, next_nextOf (by decide +kernel), by decide +kernel, by decide +kernel⟩⟩

theorem witness_UninitReadNamesAnEmptyElement :
    exec .fft { unit4 with bufs := ⟨hole4, four⟩ } = .fault (.uninitRead 0#1 1) := fault_of (by decide +kernel)

theorem witness_StepKeepsTheInvariant :
    { unit4 with cmd := [0x20000000#32] }.wf = true ∧
    ∃ t, step { unit4 with cmd := [0x20000000#32] } = .next t :=
  ⟨by decide +kernel, _, next_nextOf (by decide +kernel)⟩

/-- A state that waits inside a command and one that does not wait; both meet the invariant. -/
theorem witness_NoProgressExactlyWhenTheHostOwesAWord :
    { unit w2 [] [] with taken := [0x50000003#32, 0#32], cp := 2 }.wf = true ∧
    { unit w2 [] [] with taken := [0x50000003#32, 0#32], cp := 2 }.waits = true ∧
    { unit w2 [] [1#16] with taken := [0x10000000#32], cp := 1 }.wf = true ∧
    { unit w2 [] [1#16] with taken := [0x10000000#32], cp := 1 }.waits = true ∧
    (unit w2 [0x50000003#32] []).wf = true ∧ (unit w2 [0x50000003#32] []).waits = false := by decide +kernel

theorem witness_TheWaitEndsWhenTheWordsArrive :
    { unit w2 [] [] with taken := [0x50000003#32, 1#32], cp := 2 }.window ≠ [] ∧
    { unit w2 [] [] with taken := [0x50000003#32, 1#32], cp := 2 }.window ++ [2#32] = encode (.wrb 0#1 3#24 1#32 2#32) := by
  decide

/-- Exactly `N` samples; `N − 1` samples. -/
theorem witness_LoadFillsTheInputBuffer : (unit w2 [] [1#16, 2#16, 3#16, 4#16]).bw.size ≤
    (unit w2 [] [1#16, 2#16, 3#16, 4#16]).smp.length := by decide
theorem witness_LoadWaitsForSamples : (unit w2 [] [1#16, 2#16, 3#16]).smp.length < (unit w2 [] [1#16, 2#16, 3#16]).bw.size := by
  decide

/-- The last element, with a value through role `IN` and without one through role `OUT`. -/
theorem witness_RdbAnswersTheElement : (3#24).toNat < unit4.bw.size ∧
    Memory.read (unit4.bufs.get (unit4.inSel ^^^ 0#1)) (3#24).toNat = some ⟨f32OfNat 4, 0#32⟩ ∧
    Memory.read (unit4.bufs.get (unit4.inSel ^^^ 1#1)) (3#24).toNat = none := by decide +kernel

theorem witness_WrbStoresTheElement : (3#24).toNat < unit4.bw.size := by decide
theorem witness_RdbAfterWrbAnswersWhatWasStored : (3#24).toNat < unit4.bw.size := by decide

theorem witness_BlocksCoverTheBufferOnce : 1 < w2.val ∧ 23 < (⟨24, by decide, by decide⟩ : BitWidth).val := by decide

/-- The last stage and block of the build. -/
theorem witness_ScombDeinterleavesTheBlock : (1#5).toNat < unit4.bw.val ∧ (1#23).toNat < 2 ^ (1#5).toNat ∧
    Holds (unit4.bufs.get (sourceOf unit4.par)) (1 * blockSize w2 1) (1 * blockSize w2 1 + blockSize w2 1) := by
  unfold Holds; decide +kernel

theorem witness_TcombIsTheButterfly : (1#5).toNat < unit4.bw.val ∧ (1#23).toNat < 2 ^ (1#5).toNat ∧
    ∀ i < blockSize w2 1 / 2,
      Memory.read (unit4.bufs.get (sourceOf unit4.par)) (1 * blockSize w2 1 + 2 * i) = some ⟨f32OfNat 3, 0#32⟩ ∧
      Memory.read (unit4.bufs.get (sourceOf unit4.par)) (1 * blockSize w2 1 + 2 * i + 1) = some ⟨f32OfNat 4, 0#32⟩ := by
  decide +kernel

theorem witness_CombineFaultsAtTheFirstMissingElement :
    (0#5).toNat < w2.val ∧ (0#23).toNat < 2 ^ (0#5).toNat ∧ 0 * blockSize w2 0 ≤ 1 ∧
    1 < 0 * blockSize w2 0 + blockSize w2 0 ∧ Memory.read hole4 1 = none ∧ Holds hole4 (0 * blockSize w2 0) 1 := by
  unfold Holds; decide +kernel

theorem witness_SstgPermutesTheBuffer : (1#5).toNat < unit4.bw.val ∧
    Holds (unit4.bufs.get (sourceOf unit4.par)) 0 unit4.bw.size := by unfold Holds; decide +kernel

theorem witness_TstgAppliesEveryButterfly : (1#5).toNat < unit4.bw.val ∧
    ∀ j < unit4.bw.size, Memory.read (unit4.bufs.get (sourceOf unit4.par)) j = some ⟨f32OfNat (j + 1), 0#32⟩ := by decide +kernel

/-- Stage 1 of four elements: two blocks of one butterfly, the second first. -/
theorem witness_ButterfliesOfAStageInAnyOrder : 1 < w2.val ∧ [(1, 0), (0, 0)].Nodup ∧
    (∀ p : Nat × Nat, p ∈ [(1, 0), (0, 0)] ↔ p.1 < 2 ^ 1 ∧ p.2 < blockSize w2 1 / 2) ∧
    ∃ d, loop (combineBlock binary32 .twiddle w2 0 1 0#1 four) (2 ^ 1) 0 [] = .ok d := by
  refine ⟨by decide, by decide, fun ⟨a, c⟩ => ?_, exists_ok (by decide +kernel)⟩
  have : blockSize w2 1 / 2 = 1 := by decide
  simp only [this, List.mem_cons, Prod.mk.injEq, List.not_mem_nil, or_false]
  omega

theorem witness_SdecIsTheBitReversalPermutation : Holds (unit4.bufs.get (sourceOf unit4.par)) 0 unit4.bw.size ∧
    unit4.bw.val = 2 := by unfold Holds; decide +kernel
theorem witness_TdecRunsItsStagesInOrder : Holds (unit4.bufs.get (sourceOf unit4.par)) 0 unit4.bw.size := by
  unfold Holds; decide +kernel
theorem witness_FftRunsItsPhasesAndRebinds : Holds (unit4.bufs.get unit4.inSel) 0 unit4.bw.size := by
  unfold Holds; decide +kernel

/-- Element 1 is the first that holds no value: of the Buffer bound "input", of the source, of the visited bins. -/
theorem witness_FirstMissingElementFaults :
    1 < w2.size ∧ 1 ≤ 1 ∧ 1 < w2.size / 2 ∧ (1#5).toNat < w2.val ∧
    Memory.read hole4 1 = none ∧ Holds hole4 0 1 ∧ Holds hole4 1 1 := by unfold Holds; decide +kernel

theorem witness_FftOfZerosIsZero : ∀ i < w2.size,
    Memory.read ({ unit4 with bufs := ⟨zeros4, []⟩ }.bufs.get unit4.inSel) i = some ⟨0x00000000#32, 0x00000000#32⟩ := by
  decide +kernel

/-- The same data in the two physical Buffers, beside different contents of the other one. -/
theorem witness_SpectrumDependsOnTheInputDataAlone :
    (∀ i < w2.size, Memory.read ((⟨four, []⟩ : Bufs F32).get 0#1) i = Memory.read ((⟨zeros4, four⟩ : Bufs F32).get 1#1) i) ∧
    (∃ y, transform binary32 w2 0 0#1 ⟨four, []⟩ = .ok y) ∧ ∃ y, transform binary32 w2 0 1#1 ⟨zeros4, four⟩ = .ok y :=
  ⟨by decide +kernel, exists_ok (by decide +kernel), exists_ok (by decide +kernel)⟩

theorem witness_FftLeavesTheLastStagesSource : ∃ t, exec .fft unit4 = .next t := ⟨_, next_nextOf (by decide +kernel)⟩

/-- With samples for the `LOAD`, and without: both clauses of what `LOAD` does. -/
theorem witness_LoadAfterFftKeepsTheResult :
    (∃ t u, exec .fft { unit4 with smp := [1#16, 2#16, 3#16, 4#16] } = .next t ∧ exec .load t = .next u) ∧
    ∃ t u, exec .fft unit4 = .next t ∧ exec .load t = .next u :=
  ⟨⟨_, _, next_nextOf (by decide +kernel), next_nextOf (by decide +kernel)⟩,
    ⟨_, _, next_nextOf (by decide +kernel), next_nextOf (by decide +kernel)⟩⟩

/-- Four real elements, and the same ones in bit-reversed order. -/
def ramp (i : Nat) : Sample ℝ := ⟨i, 0⟩

theorem witness_IdealTwiddleDecimationIsTheTransformReversed : ∀ p < w2.size,
    Memory.read ((⟨[(0, ramp 0), (1, ramp 2), (2, ramp 1), (3, ramp 3)], []⟩ : Bufs ℝ).get (sourceOf 0#8)) p =
      some (ramp (rev p w2.val)) := by
  intro p hp
  have : p < 4 := hp
  interval_cases p <;> rfl

theorem witness_IdealTransformIsTheDiscreteFourierTransform : ∀ i < w2.size,
    Memory.read ((⟨[(0, ramp 0), (1, ramp 1), (2, ramp 2), (3, ramp 3)], []⟩ : Bufs ℝ).get 0#1) i = some (ramp i) := by
  intro p hp
  have : p < 4 := hp
  interval_cases p <;> rfl

theorem witness_FindfReplacesTheBinsByMagnitudes : ∀ i, 1 ≤ i → i < unit4.bw.size / 2 →
    Memory.read (unit4.bufs.get (unit4.inSel ^^^ 0#1)) i = some ⟨f32OfNat (i + 1), 0#32⟩ := by
  intro i h1 h2
  have : i < 2 := h2
  obtain rfl : i = 1 := by omega
  decide +kernel

/-- Both clauses: a bin whose magnitude is a number; all magnitudes NaN. -/
theorem witness_PeakIsTheHighestBinOfTheLargestMagnitude :
    Memory.read (unit4.bufs.get (unit4.inSel ^^^ 0#1)) 1 = some ⟨f32OfNat 2, 0#32⟩ ∧
    isNaN (cabs binary32 ⟨0, 0, 0, 1, 0⟩ ⟨f32OfNat 2, 0#32⟩) = false ∧
    (∃ t, exec (.findf 0#1 0x3F800000#32) unit4 = .next t) ∧
    Memory.read ({ unit4 with bufs := ⟨nan4, []⟩ }.bufs.get (unit4.inSel ^^^ 0#1)) 1 = some ⟨0x7FC00000#32, 0#32⟩ :=
  ⟨by decide +kernel, by decide +kernel, ⟨_, next_nextOf (by decide +kernel)⟩, by decide +kernel⟩

/-- The bit patterns the numeric statements speak of: finite numbers, the two zeros, the infinities, a NaN. -/
theorem witness_finite : isNaN 0x7F7FFFFF#32 = false ∧ isInf 0x7F7FFFFF#32 = false ∧ f32Val 0x7F7FFFFF#32 ≠ 0 ∧
    isNaN 0x80000000#32 = false ∧ isInf 0x80000000#32 = false ∧ f32Val 0x80000000#32 = 0 ∧
    f32Mag 0x00000000#32 = 0 ∧ f32Neg 0x00000000#32 = false := by decide +kernel
theorem witness_special : isInf 0x7F800000#32 = true ∧ isNaN 0x7F800000#32 = false ∧ isInf 0xFF800000#32 = true ∧
    f32Neg 0xFF800000#32 = true ∧ f32Neg 0x7F800000#32 = false ∧ isNaN 0x7FC00000#32 = true := by decide +kernel

theorem witness_FaddIsTheRoundedSum : isNaN 0x7F7FFFFF#32 = false ∧ isInf 0x7F7FFFFF#32 = false ∧
    f32Val 0x7F7FFFFF#32 + f32Val 0xFF7FFFFF#32 = 0 ∧ isInf 0x7F800000#32 = true ∧ isNaN 0xFF7FFFFF#32 = false ∧
    isInf 0xFF7FFFFF#32 = false := by decide +kernel
theorem witness_FsubIsTheRoundedDifference : isNaN 0x00000001#32 = false ∧ isInf 0x00000001#32 = false := by decide +kernel
theorem witness_FmulIsTheRoundedProduct : isNaN 0x00000001#32 = false ∧ isInf 0x00000001#32 = false ∧
    f32Val 0x00000001#32 ≠ 0 ∧ isInf 0xFF800000#32 = true := by decide +kernel
/-- Finite by finite, by a zero, by an infinity; an infinity by a finite number and by a zero. -/
theorem witness_FdivIsTheRoundedQuotient : isNaN 0x00000001#32 = false ∧ isInf 0x00000001#32 = false ∧
    f32Val 0x00000001#32 ≠ 0 ∧ isNaN 0x80000000#32 = false ∧ isInf 0x80000000#32 = false ∧ f32Val 0x80000000#32 = 0 ∧
    isNaN 0xFF800000#32 = false ∧ isInf 0xFF800000#32 = true ∧ f32Val 0xFF800000#32 ≠ 0 := by
  decide +kernel
theorem witness_FsqrtIsTheRoundedRoot : isNaN 0x7F7FFFFF#32 = false ∧ isInf 0x7F7FFFFF#32 = false ∧
    f32Neg 0x7F7FFFFF#32 = false ∧ f32Neg 0x80000001#32 = true ∧ f32Mag 0x80000001#32 ≠ 0 := by decide +kernel
theorem witness_FgeIsTheQuietComparison : isNaN 0x7FC00000#32 = true ∧ isNaN 0x80000000#32 = false ∧
    isNaN 0x7F800000#32 = false ∧ isNaN 0xFF800000#32 = false ∧ isNaN 0x7F7FFFFF#32 = false := by decide +kernel
theorem witness_IndicesConvertExactly : 16777216 ≤ 2 ^ 24 := by decide
theorem witness_InvalidOperationsGiveNan : isNaN 0xFFFFFFFF#32 = true ∧ isInf 0x7F800000#32 = true ∧
    isInf 0xFF800000#32 = true ∧ f32Neg 0x7F800000#32 ≠ f32Neg 0xFF800000#32 ∧ f32Mag 0x80000000#32 = 0 ∧
    f32Neg 0x80000001#32 = true ∧ f32Mag 0x80000001#32 ≠ 0 ∧ f32Mag 0xFF800000#32 ≠ 0 := by decide +kernel
theorem witness_MagnitudesAreNeverNegative : isNaN (cabs binary32 site0 ⟨0x80000000#32, 0x80000000#32⟩) = false ∧
    isNaN 0xFF800000#32 = false ∧ isNaN 0x80000000#32 = false ∧ isInf 0xFF800000#32 = true := by decide +kernel
theorem witness_RomEntriesAreUnitSized : 1 < w2.size / 2 := by decide
theorem witness_RomHoldsItsExactEntries : w3.val = 3 ∧ w4.val = 4 ∧ Config.referenceWidth.val = 12 := by decide

/-- The last entry of the smallest and of the largest build. -/
theorem witness_RomEntriesAreTheRoundedFactors : 1 < w2.size / 2 ∧
    2 ^ 23 - 1 < (⟨24, by decide, by decide⟩ : BitWidth).size / 2 ∧
    isNaN 0x3F800000#32 = false ∧ isInf 0x3F800000#32 = false := by decide +kernel

end Sys2Proof.Machine
end

section
/-!
PROOF. What one step does for each answer of the decoder, and the statement about the step that is assembled from it
(R10, R91, R223).
-/

namespace Sys2Proof.Machine

/-! ## `step`, one equation for each answer of `decode` -/

theorem step_of_whole {s : State} {i : Instr} {rest : List Word} (h : decode s.window = .whole i rest) :
    step s = exec i s := by
  simp only [step, h]

theorem step_of_partialCmd {s : State} {i : Instr} (h : decode s.window = .partialCmd i) :
    step s = awaitStep i s := by
  simp only [step, h]

theorem step_of_illegal {s : State} {w : Word} (h : decode s.window = .illegal w) :
    step s = .fault (.illegalCommand w s.cmdPos) := by
  simp only [step, h, illegalStep]

theorem step_of_window_nil {s : State} (h : s.window = []) : step s = .next s := by
  have hd : decode s.window = .empty := by rw [h]; rfl
  simp only [step, hd, idleStep]

/-! ## The wait for a payload word -/

/-- Taking as many words as there are empties CMD. -/
theorem State.hold_window_length (s : State) :
    s.hold s.window.length =
      { s with taken := s.window, cmd := [], cp := s.cmdPos + s.window.length } := by
  simp only [State.hold, List.take_length, List.drop_length]

/-- In range, the wait is the taking of the words there are (R88, R91). -/
theorem awaitStep_of_wf {i : Instr} {s : State} (h : i.wf s.bw = true) :
    awaitStep i s = .next (s.hold s.window.length) := ranged_of_wf _ h

/-! ## The step runs the decoded command -/

/-- Settles O6: one clause each for a whole command, a command that lacks a payload word, and an empty CMD. -/
theorem stepRunsTheDecodedCommand : Obligations.StepRunsTheDecodedCommand := by
  intro s
  refine ⟨fun i rest hd => step_of_whole hd, fun i hd hwf => ?_, step_of_window_nil⟩
  calc step s = awaitStep i s := step_of_partialCmd hd
    _ = .next (s.hold s.window.length) := awaitStep_of_wf hwf
    _ = _ := by rw [State.hold_window_length]

end Sys2Proof.Machine
end

section
/-!
PROOF. The decoder on encoded commands: the fields of a command word read back, and a command's words decode to it
(R81, R82, R88, R91); what the decoder reads as a `LOAD`.
-/

namespace Sys2Proof

/-! ## Reading back the fields of an encoded command word (R81, R82) -/

section
variable {a b c d : Nat} (x : BitVec a) (y : BitVec b) (z : BitVec c) (u : BitVec d)

theorem extractLsb'_append_middle : (x ++ y ++ z).extractLsb' c b = y := by
  rw [BitVec.extractLsb'_append_eq_of_le le_rfl, Nat.sub_self, BitVec.extractLsb'_append_eq_right]

theorem extractLsb'_append_second : (x ++ y ++ z ++ u).extractLsb' (c + d) b = y := by
  rw [BitVec.extractLsb'_append_eq_of_le (Nat.le_add_left d c), Nat.add_sub_cancel, extractLsb'_append_middle]

end

section
variable (op : BitVec 4) (r : Bit) (idx : BitVec 24) (bp : BitVec 5) (blk : BitVec 23)

/-- Format R is format X with index 0. -/
theorem encR_eq_encX : encR op r = encX op r 0#24 := rfl

/-- Format S is format B with block number 0. -/
theorem encS_eq_encB : encS op bp = encB op bp 0#23 := rfl

@[simp] theorem fieldR_encX : fieldR (encX op r idx) = r := extractLsb'_append_middle (op ++ 0#3) r idx

@[simp] theorem fieldIdx_encX : fieldIdx (encX op r idx) = idx :=
  BitVec.extractLsb'_append_eq_right (a := op ++ 0#3 ++ r)

@[simp] theorem fieldBp_encB : fieldBp (encB op bp blk) = bp := extractLsb'_append_middle op bp blk

@[simp] theorem fieldBlk_encB : fieldBlk (encB op bp blk) = blk := BitVec.extractLsb'_append_eq_right (a := op ++ bp)

@[simp] theorem mbzZ_encZ : mbzZ (encZ op) = true := beq_iff_eq.2 (BitVec.extractLsb'_append_eq_right (a := op))

@[simp] theorem mbzX_encX : mbzX (encX op r idx) = true := beq_iff_eq.2 (extractLsb'_append_second op 0#3 r idx)

@[simp] theorem mbzR_encX_zero : mbzR (encX op r 0#24) = true :=
  Bool.and_eq_true_iff.2 ⟨mbzX_encX op r 0#24, beq_iff_eq.2 (fieldIdx_encX op r 0#24)⟩

@[simp] theorem mbzS_encB_zero : mbzS (encB op bp 0#23) = true := beq_iff_eq.2 (fieldBlk_encB op bp 0#23)

end

/-- The command word and the payload words of a command, whatever follows them, give the command back (R91). -/
theorem decodeWord_encodeHead (i : Instr) (rest : List Word) :
    decodeWord (encodeHead i) ((payload i ++ rest).getD 0 0#32) ((payload i ++ rest).getD 1 0#32) = some i := by
  open Laws.EncodedLength in
  cases i <;>
    simp [decodeWord, encodeHead, payload, encR_eq_encX, encS_eq_encB, fieldOp_encZ, fieldOp_encX, fieldOp_encB]

/-- Every command has the encoded length of its row in R83. -/
theorem Laws.EncodedLength.all (i : Instr) : Laws.EncodedLength.Statement i :=
  match i with
  | .load => load
  | .fft => fft
  | .findf r fs => findf r fs
  | .rdb r idx => rdb r idx
  | .wrb r idx re im => wrb r idx re im
  | .stat => stat
  | .bitrev nb v => bitrev nb v
  | .pinit => pinit
  | .sdec => sdec
  | .tdec => tdec
  | .rebind => rebind
  | .sstg bp => sstg bp
  | .tstg bp => tstg bp
  | .scomb bp blk => scomb bp blk
  | .tcomb bp blk => tcomb bp blk

/-- A command word needs no more payload words than its command has. -/
theorem opLength_encodeHead (i : Instr) : opLength (encodeHead i) = (payload i).length + 1 := by
  obtain ⟨hlen, hop, -, -⟩ := Laws.EncodedLength.all i
  rw [hop, ← hlen, encode, List.length_cons]

/-- The words of a command, whatever follows them, decode to it. -/
theorem decode_encode_append (i : Instr) (rest : List Word) : decode (encode i ++ rest) = .whole i rest := by
  have henough : ¬(payload i ++ rest).length + 1 < opLength (encodeHead i) := by
    rw [opLength_encodeHead, List.length_append]; omega
  simp only [encode, List.cons_append, decode, decodeWord_encodeHead, if_neg henough]
  rw [opLength_encodeHead, Nat.add_sub_cancel, List.drop_left]

/-! ## `LOAD` takes no payload word -/

theorem decodeWord_eq_load_iff (w p q : Word) :
    decodeWord w p q = some .load ↔ (fieldOp w).toNat = 0x1 ∧ mbzZ w = true := by
  unfold decodeWord
  split <;> simp_all

/-- Of a front that decodes to `LOAD` the first word alone is the `LOAD`. -/
theorem decode_take_one_of_load {ws rest : List Word} (h : decode ws = .whole .load rest) :
    decode (ws.take 1) = .whole .load [] := by
  cases ws with
  | nil => cases h
  | cons w ws =>
    have hw : ∃ p q, decodeWord w p q = some .load := by
      simp only [decode] at h
      split at h
      · cases h
      next i hi =>
        split at h <;> cases h
        exact ⟨_, _, hi⟩
    obtain ⟨p, q, hw⟩ := hw
    obtain ⟨hop, hmbz⟩ := (decodeWord_eq_load_iff w p q).1 hw
    have hlen : opLength w = 1 := by simp [opLength, hop]
    simp [decode, hlen, (decodeWord_eq_load_iff w 0#32 0#32).2 ⟨hop, hmbz⟩]

theorem decode_eq_empty_iff (ws : List Word) : decode ws = .empty ↔ ws = [] := by
  cases ws with
  | nil => simp [decode]
  | cons w ws =>
    simp only [decode]
    split
    · simp
    · split <;> simp

end Sys2Proof
end

section
/-!
PROOF. The peak magnitude: no operation of `cabs` answers a negative number (R111, R114, R116, R117, R123).
-/

namespace Sys2Proof.Machine

/-! ## Bit patterns that are not negative (R110, R111, R123) -/

/-- A pattern that is no negative number: a NaN, or its sign bit is clear. -/
def NotNegative (a : F32) : Prop := isNaN a = true ∨ f32Neg a = false

theorem toNat_packF32 {neg : Bool} {bits : Nat} (h : bits < 2 ^ 31) :
    (packF32 neg bits).toNat = (if neg then 2 ^ 31 else 0) + bits := by
  cases neg <;> simp only [packF32, BitVec.toNat_ofNat] <;> exact Nat.mod_eq_of_lt (by simp; omega)

theorem f32Neg_packF32 {neg : Bool} {bits : Nat} (h : bits < 2 ^ 31) : f32Neg (packF32 neg bits) = neg := by
  unfold f32Neg
  rw [toNat_packF32 h]
  cases neg <;> simp
  omega

theorem f32Exp_packF32 {neg : Bool} {bits : Nat} (h : bits < 2 ^ 31) : f32Exp (packF32 neg bits) = bits / 2 ^ 23 := by
  cases neg <;> simp only [f32Exp, toNat_packF32 h, if_true, Bool.false_eq_true, if_false] <;> omega

theorem f32Frac_packF32 {neg : Bool} {bits : Nat} (h : bits < 2 ^ 31) : f32Frac (packF32 neg bits) = bits % 2 ^ 23 := by
  cases neg <;> simp only [f32Frac, toNat_packF32 h, if_true, Bool.false_eq_true, if_false] <;> omega

theorem f32Frac_lt (a : F32) : f32Frac a < 2 ^ 23 := Nat.mod_lt _ (by decide)

/-- The patterns above infinity are the NaNs. -/
theorem isNaN_packF32 {neg : Bool} {bits : Nat} (hlo : infBits < bits) (hhi : bits < 2 ^ 31) :
    isNaN (packF32 neg bits) = true := by
  unfold infBits at hlo
  have hexp : bits / 2 ^ 23 = 255 := by omega
  have hfrac : bits % 2 ^ 23 ≠ 0 := by omega
  simp only [isNaN, f32Exp_packF32 hhi, f32Frac_packF32 hhi, Bool.and_eq_true, beq_iff_eq, bne_iff_ne]
  exact ⟨hexp, hfrac⟩

/-- Whatever is drawn, the result is a NaN (R111). -/
theorem isNaN_nanOfDraw (d : BitVec 32) : isNaN (nanOfDraw d) = true := by
  have hf := f32Frac_lt d
  apply isNaN_packF32 <;> unfold infBits <;> split <;> omega

theorem notNegative_nanAt (site : Site) : NotNegative (nanAt site) := .inl (isNaN_nanOfDraw _)

theorem notNegative_packF32 {bits : Nat} (h : bits < 2 ^ 31) : NotNegative (packF32 false bits) :=
  .inr (f32Neg_packF32 h)

/-- Rounding stays at or below infinity. -/
theorem roundUnits_lt (a d : Nat) : roundUnits a d < 2 ^ 31 :=
  Nat.lt_of_le_of_lt (Nat.min_le_right _ _) (by decide)

/-- A square has the exclusive or of two equal signs (R114). -/
theorem notNegative_f32Mul_self (site : Site) (a : F32) : NotNegative (f32Mul site a a) := by
  unfold f32Mul
  rw [Bool.xor_self]
  split
  · exact notNegative_nanAt site
  · split
    · split
      · exact notNegative_nanAt site
      · exact notNegative_packF32 (by decide)
    · exact notNegative_packF32 (roundUnits_lt _ _)

theorem f32Val_nonneg {a : F32} (h : f32Neg a = false) : 0 ≤ f32Val a := by
  simp [f32Val, h]

theorem notNegative_f32Add (site : Site) {a b : F32} (ha : NotNegative a) (hb : NotNegative b) :
    NotNegative (f32Add site a b) := by
  unfold f32Add
  split
  · exact notNegative_nanAt site
  next hnan =>
    obtain ⟨hnan_a, hnan_b⟩ := not_or.1 (mt Bool.or_eq_true_iff.2 hnan)
    have hna := ha.resolve_left hnan_a
    have hnb := hb.resolve_left hnan_b
    split
    · split
      · exact notNegative_nanAt site
      · exact ha
    · split
      · exact hb
      · split
        · rw [hna]; exact notNegative_packF32 (by decide)
        · have hsum : ¬f32Val a + f32Val b < 0 := by
            have := f32Val_nonneg hna
            have := f32Val_nonneg hnb
            omega
          rw [decide_eq_false hsum]
          exact notNegative_packF32 (roundUnits_lt _ _)

theorem isqrtBits_lt (b x r : Nat) : isqrtBits b x r < r + 2 ^ b := by
  induction b generalizing r with
  | zero => simp [isqrtBits]
  | succ b ih =>
    rw [isqrtBits, Nat.pow_succ]
    split
    · have := ih (r + 2 ^ b); omega
    · have := ih r; omega

theorem f32Mag_lt (a : F32) : f32Mag a < 2 ^ 24 * 2 ^ 254 := by
  have hf := f32Frac_lt a
  unfold f32Mag
  split
  · exact Nat.lt_trans hf (by decide)
  · have he : f32Exp a < 2 ^ 8 := Nat.mod_lt _ (by decide)
    calc (2 ^ 23 + f32Frac a) * 2 ^ (f32Exp a - 1) ≤ (2 ^ 23 + f32Frac a) * 2 ^ 254 :=
          Nat.mul_le_mul_left _ (Nat.pow_le_pow_right (by decide) (by omega))
      _ < 2 ^ 24 * 2 ^ 254 := Nat.mul_lt_mul_of_pos_right (by omega) (by decide)

/-- The radicand of a root, a magnitude in units of `2^-149` times `2^149`, has at most 427 bits. -/
theorem log2_radicand_lt {m : Nat} (h : m < 2 ^ 24 * 2 ^ 254) : (m * 2 ^ 149).log2 < 24 + 254 + 149 := by
  rcases Nat.eq_zero_or_pos m with rfl | h0
  · decide
  · rw [Nat.log2_lt (by positivity)]
    simp only [pow_add]
    exact Nat.mul_lt_mul_of_pos_right h (by decide)

/-- The root of a number is far below infinity. -/
theorem sqrtUnits_lt {m : Nat} (h : m < 2 ^ 24 * 2 ^ 254) : sqrtUnits m < 2 ^ 31 := by
  have hlog := log2_radicand_lt h
  have hq := isqrtBits_lt 24 (m * 2 ^ 149 / 4 ^ ((m * 2 ^ 149).log2 / 2 - 23)) 0
  unfold sqrtUnits
  dsimp only
  generalize (m * 2 ^ 149).log2 = l at *
  generalize isqrtBits 24 _ 0 = q at *
  split <;> omega

theorem notNegative_f32Sqrt (site : Site) {a : F32} (h : NotNegative a) : NotNegative (f32Sqrt site a) := by
  unfold f32Sqrt
  split
  · exact notNegative_nanAt site
  · split
    · exact h
    · split
      · exact notNegative_nanAt site
      · split
        · exact h
        · exact notNegative_packF32 (sqrtUnits_lt (f32Mag_lt a))

/-- A magnitude is the root of a sum of squares (R123). -/
theorem notNegative_cabs (site : Site) (v : Sample F32) : NotNegative (cabs binary32 site v) :=
  notNegative_f32Sqrt _ (notNegative_f32Add _ (notNegative_f32Mul_self _ _) (notNegative_f32Mul_self _ _))

/-- What is at least a number is a number (R117). -/
theorem isNaN_of_f32Ge {a b : F32} (h : f32Ge a b = true) : isNaN a = false := by
  simp only [f32Ge, Bool.and_eq_true, Bool.not_eq_true'] at h
  obtain ⟨⟨ha, -⟩, -⟩ := h
  exact ha

end Sys2Proof.Machine
end

section
/-!
PROOF. What a command and a step that answer a next state have done, said once; every statement about the state is
derived from it.
-/

namespace Sys2Proof.Machine

/-! ## What each command that answers a next state has done -/

theorem execLoad_of_enough {s : State} (h : s.bw.size ≤ s.smp.length) :
    execLoad s = .next ({ s with
      bufs := s.bufs.set s.inSel (loadFrom binary32 (s.smp.take s.bw.size) 0 (s.bufs.get s.inSel))
      smp := s.smp.drop s.bw.size }.retire 1) :=
  if_pos ((hasAtLeast_iff _ _).2 h)

theorem execLoad_of_few {s : State} (h : s.smp.length < s.bw.size) : execLoad s = .next (s.hold 1) :=
  if_neg (by rw [hasAtLeast_iff]; omega)

/-- A combine that succeeds has written one block of the destination and retired (R146, R148). -/
theorem runCombine_ok {kind : Combine} {bp : BitVec 5} {blk : BitVec 23} {s t : State}
    (h : runCombine kind bp blk s = .ok t) :
    ∃ d, combineBlock binary32 kind s.bw s.cmdPos bp.toNat (sourceOf s.par) (s.bufs.get (sourceOf s.par)) blk.toNat
        (s.bufs.get (destOf s.par)) = .ok d ∧ t = { s with bufs := s.bufs.set (destOf s.par) d }.retire 1 := by
  unfold runCombine at h
  split at h
  next d hd => exact ⟨d, hd, (Except.ok.inj h).symm⟩
  · cases h

/-- What a command that answers a next state has done, a constructor for each way: `LOAD` waits or runs, every other
command runs. `effect_of_exec` ties it to `exec`. -/
inductive Effect (s : State) : Instr → State → Prop where
  | loadWaits (hsmp : s.smp.length < s.bw.size) : Effect s .load (s.hold 1)
  | load (hsmp : s.bw.size ≤ s.smp.length) :
    Effect s .load ({ s with
      bufs := s.bufs.set s.inSel (loadFrom binary32 (s.smp.take s.bw.size) 0 (s.bufs.get s.inSel))
      smp := s.smp.drop s.bw.size }.retire 1)
  | fft {x : Pipeline F32} (hx : transform binary32 s.bw s.cmdPos s.inSel s.bufs = .ok x) :
    Effect s .fft ((({ s with bufs := x.bufs, par := x.par, inSel := reboundInSel x.par }).push
      [outputWord (reboundInSel x.par)]).retire 1)
  | findf {r : Bit} {fs : F32} {x : Peak F32}
    (hx : peakScan binary32 s.bw s.cmdPos (phys s.inSel r) (s.bufs.get (phys s.inSel r)) = .ok x) :
    Effect s (.findf r fs)
      ((({ s with bufs := s.bufs.set (phys s.inSel r) x.mem, pkidx := x.pkidx, pkmag := x.pkmag }).push
        [frequency binary32 s.bw s.cmdPos fs x.pkidx]).retire 2)
  | rdb {r : Bit} {idx : BitVec 24} {v : Sample F32} (hidx : idx.toNat < s.bw.size)
    (hv : Memory.read (s.bufs.get (phys s.inSel r)) idx.toNat = some v) :
    Effect s (.rdb r idx) ((s.push [v.re, v.im]).retire 1)
  | wrb {r : Bit} {idx : BitVec 24} {re im : F32} (hidx : idx.toNat < s.bw.size) :
    Effect s (.wrb r idx re im) ({ s with
      bufs := s.bufs.set (phys s.inSel r)
        (Memory.write (s.bufs.get (phys s.inSel r)) idx.toNat ⟨re, im⟩) }.retire 3)
  | stat : Effect s .stat ((s.push [statusWord s.bw s.par s.inSel, s.pkidx.setWidth 32, s.pkmag]).retire 1)
  | bitrev {nb : BitVec 5} {v : BitVec 23} :
    Effect s (.bitrev nb v) ((s.push [BitVec.ofNat 32 (rev v.toNat nb.toNat)]).retire 1)
  | pinit : Effect s .pinit ({ s with par := initialPar s.inSel }.retire 1)
  | sdec {x : Pipeline F32} (hx : straightDecimation binary32 s.bw s.cmdPos s.pipeline = .ok x) :
    Effect s .sdec ((s.setPipeline x).retire 1)
  | tdec {x : Pipeline F32} (hx : twiddleDecimation binary32 s.bw s.cmdPos s.pipeline = .ok x) :
    Effect s .tdec ((s.setPipeline x).retire 1)
  | rebind : Effect s .rebind ({ s with inSel := reboundInSel s.par }.retire 1)
  | sstg {bp : BitVec 5} {x : Pipeline F32} (hbp : bp.toNat < s.bw.val)
    (hx : stage binary32 .straight s.bw s.cmdPos bp.toNat s.pipeline = .ok x) :
    Effect s (.sstg bp) ((s.setPipeline x).retire 1)
  | tstg {bp : BitVec 5} {x : Pipeline F32} (hbp : bp.toNat < s.bw.val)
    (hx : stage binary32 .twiddle s.bw s.cmdPos bp.toNat s.pipeline = .ok x) :
    Effect s (.tstg bp) ((s.setPipeline x).retire 1)
  | scomb {bp : BitVec 5} {blk : BitVec 23} {d : Memory F32} (hbp : bp.toNat < s.bw.val)
    (hblk : blk.toNat < 2 ^ bp.toNat)
    (hd : combineBlock binary32 .straight s.bw s.cmdPos bp.toNat (sourceOf s.par) (s.bufs.get (sourceOf s.par))
      blk.toNat (s.bufs.get (destOf s.par)) = .ok d) :
    Effect s (.scomb bp blk) ({ s with bufs := s.bufs.set (destOf s.par) d }.retire 1)
  | tcomb {bp : BitVec 5} {blk : BitVec 23} {d : Memory F32} (hbp : bp.toNat < s.bw.val)
    (hblk : blk.toNat < 2 ^ bp.toNat)
    (hd : combineBlock binary32 .twiddle s.bw s.cmdPos bp.toNat (sourceOf s.par) (s.bufs.get (sourceOf s.par))
      blk.toNat (s.bufs.get (destOf s.par)) = .ok d) :
    Effect s (.tcomb bp blk) ({ s with bufs := s.bufs.set (destOf s.par) d }.retire 1)

/-- The inversion of `exec`, the one place where the meanings are unfolded. -/
theorem effect_of_exec {i : Instr} {s t : State} (h : exec i s = .next t) : Effect s i t := by
  cases i with
  | load =>
    rcases Nat.lt_or_ge s.smp.length s.bw.size with hsmp | hsmp
    · cases (execLoad_of_few hsmp).symm.trans h; exact .loadWaits hsmp
    · cases (execLoad_of_enough hsmp).symm.trans h; exact .load hsmp
  | fft =>
    simp only [exec, execFft] at h
    split at h <;> cases h
    next x hx => exact .fft hx
  | findf r fs =>
    simp only [exec, execFindf] at h
    split at h <;> cases h
    next x hx => exact .findf hx
  | rdb r idx =>
    obtain ⟨hidx, h⟩ := ranged_next h
    split at h <;> cases h
    next v hv => exact .rdb (of_decide_eq_true hidx) ((bufRead_ok_iff _ _ _ _).1 hv)
  | wrb r idx re im =>
    obtain ⟨hidx, h⟩ := ranged_next h
    cases h
    exact .wrb (of_decide_eq_true hidx)
  | stat | bitrev nb v | pinit | rebind => cases h; constructor
  | sdec | tdec =>
    obtain ⟨x, hx, rfl⟩ := runPipeline_ok _ _ _ ((outcomeOf_next _ _).1 h)
    constructor
    exact hx
  | sstg bp | tstg bp =>
    obtain ⟨hbp, h⟩ := ranged_next h
    obtain ⟨x, hx, rfl⟩ := runPipeline_ok _ _ _ ((outcomeOf_next _ _).1 h)
    constructor
    exacts [of_decide_eq_true hbp, hx]
  | scomb bp blk | tcomb bp blk =>
    obtain ⟨hwf, h⟩ := ranged_next h
    obtain ⟨hbp, hblk⟩ := Bool.and_eq_true_iff.1 hwf
    obtain ⟨d, hd, rfl⟩ := runCombine_ok ((outcomeOf_next _ _).1 h)
    constructor
    exacts [of_decide_eq_true hbp, of_decide_eq_true hblk, hd]

/-! ## Waiting or complete -/

/-- A command that answers a next state is a `LOAD` that waits, or has retired (R27, R88). -/
theorem Effect.waits_or_retired {i : Instr} {s t : State} (h : Effect s i t) :
    (i = .load ∧ s.smp.length < s.bw.size ∧ t = s.hold 1) ∨ (Retired (cmdLength i) s t ∧ t.bw = s.bw) := by
  cases h with
  | loadWaits hsmp => exact .inl ⟨rfl, hsmp, rfl⟩
  | _ => exact .inr ⟨⟨rfl, rfl, rfl⟩, rfl⟩

/-- Everything a step that answers a next state can have done: idle, wait for a payload word, or run (R91, R223). -/
theorem step_next {s t : State} (h : step s = .next t) :
    t = s ∨ (∃ i, decode s.window = .partialCmd i ∧ i.wf s.bw = true ∧ t = s.hold s.window.length) ∨
    ∃ i rest, decode s.window = .whole i rest ∧ Effect s i t := by
  cases hd : decode s.window with
  | empty =>
    rw [step_of_window_nil ((decode_eq_empty_iff _).1 hd)] at h
    cases h; exact .inl rfl
  | illegal w => rw [step_of_illegal hd] at h; cases h
  | partialCmd i =>
    obtain ⟨hwf, h⟩ := ranged_next ((step_of_partialCmd hd).symm.trans h)
    cases h; exact .inr (.inl ⟨i, rfl, hwf, rfl⟩)
  | whole i rest => exact .inr (.inr ⟨i, rest, rfl, effect_of_exec ((step_of_whole hd).symm.trans h)⟩)

/-- Taking words changes nothing exactly when they are the words taken already. -/
theorem State.hold_eq_self_iff {s : State} (n : Nat) (hcp : s.taken.length ≤ s.cp) :
    s.hold n = s ↔ s.taken = s.window.take n := by
  refine ⟨fun h => (congrArg State.taken h).symm, fun h => ?_⟩
  have hcmd : s.window.drop n = s.cmd := by
    have hsplit : s.taken ++ s.cmd = s.window.take n ++ s.window.drop n := (List.take_append_drop n s.window).symm
    rw [← h] at hsplit
    exact (List.append_cancel_left hsplit).symm
  have hpos : s.cmdPos + s.taken.length = s.cp := Nat.sub_add_cancel hcp
  rw [State.hold, ← h, hcmd, hpos]

theorem State.hold_window_length_eq_self_iff {s : State} (hcp : s.taken.length ≤ s.cp) :
    s.hold s.window.length = s ↔ s.cmd = [] := by
  rw [State.hold_eq_self_iff _ hcp, List.take_length]
  exact List.self_eq_append_right

theorem State.hold_one_eq_self_iff {s : State} (hne : s.window ≠ []) (hcp : s.taken.length ≤ s.cp) :
    s.hold 1 = s ↔ s.taken.length = 1 := by
  rw [State.hold_eq_self_iff _ hcp]
  constructor
  · intro h
    have hpos := List.length_pos_of_ne_nil hne
    rw [h, List.length_take]; omega
  · intro h
    rw [State.window, ← h, List.take_left]

/-- The only command that answers the state it ran in is the `LOAD` that waits: every other one moves `CP`. -/
theorem exec_eq_self_iff {i : Instr} {s : State} (hne : s.window ≠ []) (hcp : s.taken.length ≤ s.cp) :
    exec i s = .next s ↔ i = .load ∧ s.taken.length = 1 ∧ s.smp.length < s.bw.size := by
  rw [← State.hold_one_eq_self_iff hne hcp]
  constructor
  · intro h
    rcases (effect_of_exec h).waits_or_retired with ⟨hi, hsmp, hs⟩ | ⟨⟨htaken, -, hcp'⟩, -⟩
    · exact ⟨hi, hs.symm, hsmp⟩
    · obtain ⟨-, -, hlen, -⟩ := Laws.EncodedLength.all i
      rw [State.cmdPos, htaken, List.length_nil] at hcp'
      omega
  · rintro ⟨rfl, hs, hsmp⟩
    exact (execLoad_of_few hsmp).trans (congrArg _ hs)

end Sys2Proof.Machine
end

section
/-!
PROOF. The invariant of R36 by its parts: Buffers in canonical form, legal peak registers, a consistent sequencer; each
with the operations that keep it.
-/

namespace Sys2Proof.Machine

variable {F : Type}

/-! ## Buffers in canonical form -/

/-- Both Buffers are in canonical form with indices below `n` (R22). -/
def Bufs.Canonical (n : Nat) (m : Bufs F) : Prop := ∀ b, Memory.wf n (m.get b) = true

theorem Bufs.canonical_iff (n : Nat) (m : Bufs F) :
    m.Canonical n ↔ Memory.wf n m.buf0 = true ∧ Memory.wf n m.buf1 = true := by
  constructor
  · exact fun h => ⟨h 0#1, h 1#1⟩
  · rintro ⟨h0, h1⟩ b
    unfold Bufs.get
    split <;> assumption

theorem Bufs.Canonical.set {n : Nat} {m : Bufs F} (hm : m.Canonical n) (b : Bit) {d : Memory F}
    (hd : Memory.wf n d = true) : (m.set b d).Canonical n := by
  intro c
  by_cases hc : c = b
  · subst hc; rw [Bufs.get_set_same]; exact hd
  · rw [Bufs.get_set_other m d hc]; exact hm c

/-- The last element of a block is an element of the Buffer. -/
theorem block_end_le (bw : BitWidth) {bp blk : Nat} (hbp : bp < bw.val) (hblk : blk < 2 ^ bp) :
    blockBase bw bp blk + blockSize bw bp ≤ bw.size :=
  calc blockBase bw bp blk + blockSize bw bp = (blk + 1) * blockSize bw bp := (Nat.succ_mul _ _).symm
    _ ≤ 2 ^ bp * blockSize bw bp := Nat.mul_le_mul_right _ hblk
    _ = bw.size := blocks_tile bw hbp

section
variable {num : Num F} {kind : Combine} {bw : BitWidth} {pos bp : Nat}

theorem combineBlock_canonical {b : Bit} {src dst d : Memory F} {blk : Nat} (hbp : bp < bw.val) (hblk : blk < 2 ^ bp)
    (hdst : Memory.wf bw.size dst = true) (h : combineBlock num kind bw pos bp b src blk dst = .ok d) :
    Memory.wf bw.size d = true := by
  have hend := block_end_le bw hbp hblk
  have hhalf := blockSize_half bw hbp
  refine loop_inv (P := fun _ m => Memory.wf bw.size m = true) (fun i m m' _ hi hm hm' => ?_) hdst h
  obtain ⟨x, y, -, -, rfl⟩ := (butterflyStep_ok_iff _ _ _ _ _ _ _ _).1 hm'
  exact Memory.write_wf _ _ _ _ (by omega) (Memory.write_wf _ _ _ _ (by omega) hm)

theorem stage_canonical {x y : Pipeline F} (hbp : bp < bw.val) (hx : x.bufs.Canonical bw.size)
    (h : stage num kind bw pos bp x = .ok y) : y.bufs.Canonical bw.size := by
  unfold stage at h
  split at h <;> cases h
  next d hd =>
    refine hx.set _ (loop_inv (P := fun _ m => Memory.wf bw.size m = true) (fun blk m m' _ hblk hm hm' => ?_) (hx _) hd)
    exact combineBlock_canonical hbp (by omega) hm hm'

theorem decimate_canonical {count : Nat} {x y : Pipeline F} (hcount : count ≤ bw.val) (hx : x.bufs.Canonical bw.size)
    (h : decimate num kind bw pos count x = .ok y) : y.bufs.Canonical bw.size :=
  loop_inv (P := fun _ (z : Pipeline F) => z.bufs.Canonical bw.size)
    (fun _ _ _ _ hk hz hz' => stage_canonical (by omega) hz hz') hx h

theorem straightDecimation_canonical {x y : Pipeline F} (hx : x.bufs.Canonical bw.size)
    (h : straightDecimation num bw pos x = .ok y) : y.bufs.Canonical bw.size :=
  decimate_canonical (Nat.sub_le _ _) hx h

theorem twiddleDecimation_canonical {x y : Pipeline F} (hx : x.bufs.Canonical bw.size)
    (h : twiddleDecimation num bw pos x = .ok y) : y.bufs.Canonical bw.size :=
  decimate_canonical le_rfl hx h

theorem transform_canonical {inSel : Bit} {m : Bufs F} {y : Pipeline F} (hm : m.Canonical bw.size)
    (h : transform num bw pos inSel m = .ok y) : y.bufs.Canonical bw.size := by
  unfold transform at h
  split at h
  · cases h
  next x hx =>
    split at h
    · cases h
    next z hz =>
      exact straightDecimation_canonical (twiddleDecimation_canonical (straightDecimation_canonical hm hx) hz) h

end

/-! ## The peak registers -/

/-- `PKIDX < N/2`, and `PKMAG` is neither NaN nor negative (R36). -/
def LegalPeak (bw : BitWidth) (pkidx : BitVec 24) (pkmag : F32) : Prop :=
  pkidx.toNat < bw.size / 2 ∧ isNaN pkmag = false ∧ f32Neg pkmag = false

theorem half_size_pos (bw : BitWidth) : 0 < bw.size / 2 := by
  have hsize : 2 ^ 2 ≤ bw.size := Nat.pow_le_pow_right (by decide) bw.low
  omega

theorem legalPeak_zero (bw : BitWidth) : LegalPeak bw 0#24 0#32 := ⟨half_size_pos bw, by decide, by decide⟩

/-- What the peak finder keeps while it scans: the Buffer in canonical form, legal peak registers. -/
def Peak.Legal (bw : BitWidth) (x : Peak F32) : Prop :=
  Memory.wf bw.size x.mem = true ∧ LegalPeak bw x.pkidx x.pkmag

/-- A visited bin is below `N/2`, and a magnitude that becomes the peak compared as a number (R117, R205). -/
theorem peakBin_legal {bw : BitWidth} {pos : Nat} {b : Bit} {i : Nat} {x y : Peak F32} (hi : i < bw.size / 2)
    (hx : x.Legal bw) (h : peakBin binary32 pos b i x = .ok y) : y.Legal bw := by
  obtain ⟨hmem, hpeak⟩ := hx
  obtain ⟨v, -, hymem, hyidx, hymag⟩ := (peakBin_ok_iff _ _ _ _ _ _).1 h
  refine ⟨hymem ▸ Memory.write_wf _ _ _ _ (by omega) hmem, ?_⟩
  rw [hyidx, hymag]
  split
  next hge =>
    have hnan := isNaN_of_f32Ge hge
    have hidx : (BitVec.ofNat 24 i).toNat ≤ i := by rw [BitVec.toNat_ofNat]; exact Nat.mod_le _ _
    exact ⟨by omega, hnan, (notNegative_cabs _ v).resolve_left (by rw [hnan]; decide)⟩
  · exact hpeak

theorem peakScan_legal {bw : BitWidth} {pos : Nat} {b : Bit} {m : Memory F32} {y : Peak F32}
    (hm : Memory.wf bw.size m = true) (h : peakScan binary32 bw pos b m = .ok y) : y.Legal bw :=
  loop_inv (P := fun _ (z : Peak F32) => z.Legal bw) (fun _ _ _ _ hi hz hz' => peakBin_legal (by omega) hz hz')
    ⟨hm, legalPeak_zero bw⟩ h

/-! ## The invariant -/

/-- The part of the invariant that speaks of data. -/
def State.DataOk (s : State) : Prop := s.bufs.Canonical s.bw.size ∧ LegalPeak s.bw s.pkidx s.pkmag

theorem State.wf_iff (s : State) :
    s.wf = true ↔ s.DataOk ∧ s.taken.length ≤ s.cp ∧ s.sequencerOk = true := by
  simp only [State.wf, State.DataOk, LegalPeak, Bufs.canonical_iff, Bool.and_eq_true, decide_eq_true_eq,
    Bool.not_eq_true', and_assoc]

theorem State.wf_of_taken_nil {s : State} (hdata : s.DataOk) (ht : s.taken = []) : s.wf = true := by
  refine s.wf_iff.2 ⟨hdata, by simp [ht], ?_⟩
  simp [State.sequencerOk, ht, decode]

/-- Taking words of a command counts them, so only the sequencer is left to check. -/
theorem State.wf_hold {s : State} (n : Nat) (hs : s.DataOk) (hseq : (s.hold n).sequencerOk = true) :
    (s.hold n).wf = true :=
  (State.wf_iff _).2 ⟨hs, by simp, hseq⟩

/-- A command that answers a next state keeps the Buffers and the peak registers legal. -/
theorem Effect.dataOk {i : Instr} {s t : State} (h : Effect s i t) (hs : s.DataOk) : t.DataOk := by
  obtain ⟨hbufs, hpeak⟩ := hs
  cases h with
  | load hsmp =>
    have hlen : 0 + (s.smp.take s.bw.size).length ≤ s.bw.size := by simp
    exact ⟨hbufs.set _ (loadFrom_wf _ _ _ _ _ hlen (hbufs _)), hpeak⟩
  | fft hx => exact ⟨transform_canonical hbufs hx, hpeak⟩
  | findf hx =>
    obtain ⟨hmem, hpeak'⟩ := peakScan_legal (hbufs _) hx
    exact ⟨hbufs.set _ hmem, hpeak'⟩
  | wrb hidx => exact ⟨hbufs.set _ (Memory.write_wf _ _ _ _ hidx (hbufs _)), hpeak⟩
  | sdec hx => exact ⟨straightDecimation_canonical (x := s.pipeline) hbufs hx, hpeak⟩
  | tdec hx => exact ⟨twiddleDecimation_canonical (x := s.pipeline) hbufs hx, hpeak⟩
  | sstg hbp hx | tstg hbp hx => exact ⟨stage_canonical (x := s.pipeline) hbp hbufs hx, hpeak⟩
  | scomb hbp hblk hd | tcomb hbp hblk hd => exact ⟨hbufs.set _ (combineBlock_canonical hbp hblk (hbufs _) hd), hpeak⟩
  | loadWaits | rdb | stat | bitrev | pinit | rebind => exact ⟨hbufs, hpeak⟩

end Sys2Proof.Machine
end

section
/-!
PROOF. The statements about the state, each assembled from the rules above.
-/

namespace Sys2Proof.Machine

/-! ## The status word (R29) -/

theorem toNat_append_eq_add {m n : Nat} (x : BitVec m) (y : BitVec n) :
    (x ++ y).toNat = x.toNat * 2 ^ n + y.toNat := by
  rw [BitVec.toNat_append, ← Nat.shiftLeft_add_eq_or_of_lt y.isLt, Nat.shiftLeft_eq]

theorem statusWord_toNat (bw : BitWidth) (par : BitVec 8) (inSel : Bit) :
    (statusWord bw par inSel).toNat = inSel.toNat + 2 ^ 8 * par.toNat + 2 ^ 16 * bw.val := by
  have hval := bw.high
  simp only [statusWord, toNat_append_eq_add, BitVec.toNat_ofNat]
  omega

/-! ## The statements -/

/-- Settles O14: by what a step can have done; `DataOk` follows from the command's effect, the sequencer's part from the
words taken. -/
theorem stepKeepsTheInvariant : Obligations.StepKeepsTheInvariant := by
  intro s t hs h
  obtain ⟨hdata, -, -⟩ := s.wf_iff.1 hs
  rcases step_next h with rfl | ⟨i, hd, hwf, rfl⟩ | ⟨i, rest, hd, heff⟩
  · exact hs
  · exact State.wf_hold _ hdata (by simp [State.sequencerOk, hd, hwf])
  · rcases heff.waits_or_retired with ⟨rfl, -, rfl⟩ | ⟨⟨htaken, -, -⟩, -⟩
    · exact State.wf_hold _ hdata (by simp [State.sequencerOk, decode_take_one_of_load hd])
    · exact State.wf_of_taken_nil (heff.dataOk hdata) htaken

/-- Settles O8: a command that does not wait has retired. -/
theorem completedCommandLeavesTheStream : Obligations.CompletedCommandLeavesTheStream := by
  intro i s t h hload
  rcases (effect_of_exec h).waits_or_retired with ⟨hi, hsmp, -⟩ | ⟨⟨htaken, hcmd, hcp⟩, hbw⟩
  · exact absurd (hload hi) (Nat.not_le.2 hsmp)
  · exact ⟨htaken, hcmd, hcp, hbw⟩

/-- Settles O10: the effect of a command lists every field it writes, and the laws of `retire`, `push`, `hold` and
`setPipeline` say which fields they leave alone. -/
theorem onlyItsWritersChangeARegister : Obligations.OnlyItsWritersChangeARegister := by
  intro i s t h
  cases effect_of_exec h <;> simp

/-- Settles O15: one case for each answer of the decoder; a step that answers its own state has only taken words taken
before. -/
theorem noProgressExactlyWhenTheHostOwesAWord : Obligations.NoProgressExactlyWhenTheHostOwesAWord := by
  intro s hs
  obtain ⟨-, hcp, -⟩ := s.wf_iff.1 hs
  cases hd : decode s.window with
  | empty => simp [step_of_window_nil ((decode_eq_empty_iff _).1 hd), State.waits, hd]
  | illegal w => simp [step_of_illegal hd, State.waits, hd]
  | partialCmd i =>
    rw [step_of_partialCmd hd]
    cases hwf : i.wf s.bw
    · simp [awaitStep, ranged_of_not_wf _ hwf, State.waits, hd, hwf]
    · simp [awaitStep_of_wf hwf, State.hold_window_length_eq_self_iff hcp, State.waits, hd, hwf]
  | whole i rest =>
    have hne : s.window ≠ [] := by rintro h; rw [h] at hd; cases hd
    rw [step_of_whole hd, exec_eq_self_iff hne hcp]
    simp [State.waits, hd, and_assoc, ← hasAtLeast_iff, ← Nat.not_le]

/-- Settles O17: the words on CMD are then the command's encoding, which decodes to it. -/
theorem theWaitEndsWhenTheWordsArrive : Obligations.TheWaitEndsWhenTheWordsArrive := by
  intro s i ws _ hws
  have hd : decode (s.pushCmd ws).window = .whole i [] := by
    rw [State.pushCmd_window, hws, ← List.append_nil (encode i), decode_encode_append]
  exact step_of_whole hd

/-- Settles O28: with the status word read as a sum. -/
theorem statReportsTheControlState : Obligations.StatReportsTheControlState := by
  intro s
  have hpkidx : (s.pkidx.setWidth 32).toNat = s.pkidx.toNat := BitVec.toNat_setWidth_of_le (by decide)
  exact ⟨_, _, _, rfl, ⟨rfl, rfl, rfl⟩, rfl, statusWord_toNat _ _ _, hpkidx, fun _ _ => rfl, rfl, ⟨rfl, rfl⟩,
    ⟨rfl, rfl, rfl⟩⟩

/-- Settles O12: reset writes every field, and an empty Buffer reads as empty everywhere. -/
theorem resetLeavesTheStatedValues : Obligations.ResetLeavesTheStatedValues := by
  intro s
  refine ⟨rfl, rfl, rfl, rfl, rfl, rfl, rfl, rfl, rfl, rfl, fun b i => ?_, rfl, by decide⟩
  unfold Bufs.get
  split <;> rfl

/-- Settles O13: the sequencer is idle, the Buffers are empty and the peak registers zero. -/
theorem resetMeetsTheInvariant : Obligations.ResetMeetsTheInvariant := by
  intro bw
  have hdata : (State.resetAt bw).DataOk := ⟨(Bufs.canonical_iff _ _).2 ⟨rfl, rfl⟩, legalPeak_zero bw⟩
  exact State.wf_of_taken_nil hdata rfl

/-- Settles O19: by the rule for a `LOAD` with too few samples. -/
theorem loadWaitsForSamples : Obligations.LoadWaitsForSamples :=
  fun _ hsmp => execLoad_of_few hsmp

end Sys2Proof.Machine
end

section
/-!
PROOF. What a read of a missing element does to a command (R56): a loop, a combine, a stage, a decimation, the transform
and the peak finder fault at the first element they read that holds no value (order: log entry 15), and fault for no other
reason.
-/

namespace Sys2Proof.Machine

/-! ## The first fault of a loop -/

/-- Where the passes before a failing one succeed, the loop answers its fault. -/
theorem loop_error_at {σ : Type} {body : Nat → σ → Except Fault σ} {n i k : Nat} {x y : σ} {e : Fault} (hk : k < n)
    (hbefore : loop body k i x = .ok y) (hfail : body (i + k) y = .error e) : loop body n i x = .error e := by
  obtain ⟨r, rfl⟩ : ∃ r, n = k + (r + 1) := ⟨n - k - 1, by omega⟩
  rw [loop_add, hbefore]
  simp only [loop_succ, hfail]

/-! ## The first missing element of a range -/

/-- `j` is the first of the elements from `lo` on that holds no value. -/
def FirstMissing (m : Memory F32) (lo j : Nat) : Prop := lo ≤ j ∧ Memory.read m j = none ∧ Holds m lo j

/-- A range of elements is full, or one of them is the first that is missing. -/
theorem holds_or_firstMissing (m : Memory F32) (lo hi : Nat) : Holds m lo hi ∨ ∃ j < hi, FirstMissing m lo j := by
  induction hi with
  | zero => exact .inl fun _ h => absurd h (Nat.not_lt_zero _)
  | succ hi ih =>
    rcases ih with hholds | ⟨j, hj, hfirst⟩
    · cases hread : Memory.read m hi with
      | some v =>
        refine .inl fun i hi' hlo => ?_
        rcases Nat.lt_succ_iff_lt_or_eq.1 hi' with hlt | rfl
        · exact hholds i hlt hlo
        · rw [hread]; rfl
      | none =>
        rcases Nat.lt_or_ge hi lo with hlo | hlo
        · exact .inl fun i _ _ => absurd hlo (by omega)
        · exact .inr ⟨hi, Nat.lt_succ_self _, hlo, hread, hholds⟩
    · exact .inr ⟨j, Nat.lt_succ_of_lt hj, hfirst⟩

theorem bufRead_of_none (b : Bit) {m : Memory F32} {i : Nat} (h : Memory.read m i = none) :
    bufRead b m i = .error (.uninitRead b i) := (bufRead_error_iff b m i _).2 ⟨h, rfl⟩

/-! ## Combines and stages -/

section
variable {num : Num F32} {kind : Combine} {bw : BitWidth} {pos bp : Nat} {b : Bit} {src dst : Memory F32} {j : Nat}

/-- A butterfly reads its even element first (R146, R148). -/
theorem butterflyStep_firstMissing (f : Nat → Sample F32 → Sample F32 → Sample F32 × Sample F32) {base half i : Nat}
    (hij : (j - base) / 2 = i) (h : FirstMissing src base j) :
    butterflyStep f b src base half i dst = .error (.uninitRead b j) := by
  obtain ⟨hlo, hnone, hholds⟩ := h
  unfold butterflyStep
  obtain rfl | rfl : j = base + 2 * i ∨ j = base + 2 * i + 1 := by omega
  · rw [bufRead_of_none b hnone]
  · obtain ⟨x, hx⟩ := Option.isSome_iff_exists.1 (hholds (base + 2 * i) (by omega) (by omega))
    rw [bufRead_of_read b hx]
    simp only [bufRead_of_none b hnone]

/-- A combine faults at the first missing element of its block. -/
theorem combineBlock_firstMissing {blk : Nat} (hbp : bp < bw.val)
    (hj : j < blockBase bw bp blk + blockSize bw bp) (h : FirstMissing src (blockBase bw bp blk) j) :
    combineBlock num kind bw pos bp b src blk dst = .error (.uninitRead b j) := by
  have hhalf := blockSize_half bw hbp
  have ⟨hlo, _, hholds⟩ := h
  obtain ⟨d, hd⟩ := butterflies_ok (butterfly num kind bw pos bp blk) b src (blockBase bw bp blk) (blockSize bw bp / 2)
    ((j - blockBase bw bp blk) / 2) dst fun i hi hi' => hholds i (by omega) hi
  exact loop_error_at (by omega) hd (butterflyStep_firstMissing _ (by rw [Nat.zero_add]) h)

/-- Blocks whose source elements all hold values succeed. -/
theorem blocks_ok {n : Nat} (hbp : bp < bw.val) (hs : Holds src 0 (n * blockSize bw bp)) :
    ∃ d, loop (combineBlock num kind bw pos bp b src) n 0 dst = .ok d := by
  have hhalf := blockSize_half bw hbp
  obtain ⟨d, hd, -⟩ := loop_ok_of (body := combineBlock num kind bw pos bp b src) (P := fun _ _ => True) (n := n) (i := 0)
    (x := dst) (fun blk y _ hblk _ => by
      have hend : (blk + 1) * blockSize bw bp ≤ n * blockSize bw bp := Nat.mul_le_mul_right _ (by omega)
      rw [Nat.succ_mul] at hend
      obtain ⟨d, hd⟩ := combineBlock_ok num kind bw pos bp b src blk y fun i _ hi =>
        hs i (by unfold blockBase at hi; omega) (Nat.zero_le i)
      exact ⟨d, hd, trivial⟩) trivial
  exact ⟨d, hd⟩

/-- The blocks of a stage fault at the first missing element of the source. -/
theorem blocks_firstMissing (hbp : bp < bw.val) (hj : j < bw.size) (h : FirstMissing src 0 j) :
    loop (combineBlock num kind bw pos bp b src) (2 ^ bp) 0 dst = .error (.uninitRead b j) := by
  obtain ⟨-, hnone, hholds⟩ := h
  have hpos : 0 < blockSize bw bp := by rw [blockSize_eq bw hbp]; exact Nat.two_pow_pos _
  have hblk : j / blockSize bw bp < 2 ^ bp := by rwa [Nat.div_lt_iff_lt_mul hpos, blocks_tile bw hbp]
  have hlo : j / blockSize bw bp * blockSize bw bp ≤ j := Nat.div_mul_le_self _ _
  have hhi : j < j / blockSize bw bp * blockSize bw bp + blockSize bw bp := Nat.lt_div_mul_add hpos
  obtain ⟨d, hd⟩ := blocks_ok (num := num) (kind := kind) (pos := pos) (b := b) (dst := dst) (n := j / blockSize bw bp) hbp
    fun i hi _ => hholds i (by omega) (Nat.zero_le i)
  refine loop_error_at hblk hd ?_
  rw [Nat.zero_add]
  exact combineBlock_firstMissing hbp hhi ⟨hlo, hnone, fun i hi _ => hholds i hi (Nat.zero_le i)⟩

/-- Where the blocks of a stage succeed, the source is full. -/
theorem holds_of_blocks_ok {d : Memory F32} (hbp : bp < bw.val)
    (h : loop (combineBlock num kind bw pos bp b src) (2 ^ bp) 0 dst = .ok d) : Holds src 0 bw.size := by
  rcases holds_or_firstMissing src 0 bw.size with hfull | ⟨j, hj, hfirst⟩
  · exact hfull
  · rw [blocks_firstMissing hbp hj hfirst] at h; cases h

end

/-! ## Decimations and the transform -/

section
variable {num : Num F32} {kind : Combine} {bw : BitWidth} {pos bp : Nat} {x : Pipeline F32} {j : Nat}

theorem stage_firstMissing (hbp : bp < bw.val) (hj : j < bw.size) (h : FirstMissing (x.bufs.get (sourceOf x.par)) 0 j) :
    stage num kind bw pos bp x = .error (.uninitRead (sourceOf x.par) j) := by
  unfold stage
  rw [blocks_firstMissing hbp hj h]

/-- A decimation of at least one stage faults in its first stage. -/
theorem decimate_firstMissing {count : Nat} (hcount : 0 < count) (hj : j < bw.size)
    (h : FirstMissing (x.bufs.get (sourceOf x.par)) 0 j) :
    decimate num kind bw pos count x = .error (.uninitRead (sourceOf x.par) j) :=
  loop_error_at hcount (loop_zero _ _ _) (stage_firstMissing (Nat.lt_of_lt_of_le (by decide) bw.low) hj h)

theorem straightDecimation_firstMissing (hj : j < bw.size) (h : FirstMissing (x.bufs.get (sourceOf x.par)) 0 j) :
    straightDecimation num bw pos x = .error (.uninitRead (sourceOf x.par) j) :=
  decimate_firstMissing (by have := bw.low; omega) hj h

theorem twiddleDecimation_firstMissing (hj : j < bw.size) (h : FirstMissing (x.bufs.get (sourceOf x.par)) 0 j) :
    twiddleDecimation num bw pos x = .error (.uninitRead (sourceOf x.par) j) :=
  decimate_firstMissing (by have := bw.low; omega) hj h

theorem transform_firstMissing {inSel : Bit} {m : Bufs F32} (hj : j < bw.size) (h : FirstMissing (m.get inSel) 0 j) :
    transform num bw pos inSel m = .error (.uninitRead inSel j) := by
  unfold transform
  rw [straightDecimation_firstMissing hj (by rwa [sourceOf_initialPar]), sourceOf_initialPar]

/-- A transform whose input Buffer is full succeeds: each decimation leaves the next one a full source. -/
theorem transform_ok_of_holds {inSel : Bit} {m : Bufs F32} (h : Holds (m.get inSel) 0 bw.size) :
    ∃ y, transform num bw pos inSel m = .ok y := by
  obtain ⟨x, hx, -, hxfull⟩ := decimate_ok num .straight bw pos (bw.val - 1) ⟨m, initialPar inSel⟩ (Nat.sub_le _ _)
    fun i hi => by rw [sourceOf_initialPar]; exact h i hi (Nat.zero_le i)
  obtain ⟨y, hy, -, hyfull⟩ := decimate_ok num .twiddle bw pos bw.val x le_rfl hxfull
  obtain ⟨z, hz, -, -⟩ := decimate_ok num .straight bw pos (bw.val - 1) y (Nat.sub_le _ _) hyfull
  refine ⟨z, ?_⟩
  simp only [transform, straightDecimation, twiddleDecimation, hx, hy, hz]

/-- The transform faults only on an element of its input Buffer that holds no value. -/
theorem transform_error {inSel : Bit} {m : Bufs F32} {e : Fault} (h : transform num bw pos inSel m = .error e) :
    ∃ j < bw.size, Memory.read (m.get inSel) j = none ∧ e = .uninitRead inSel j := by
  rcases holds_or_firstMissing (m.get inSel) 0 bw.size with hfull | ⟨j, hj, hfirst⟩
  · obtain ⟨y, hy⟩ := transform_ok_of_holds (num := num) (pos := pos) hfull
    rw [hy] at h; cases h
  · rw [transform_firstMissing hj hfirst] at h
    cases h
    obtain ⟨-, hnone, -⟩ := hfirst
    exact ⟨j, hj, hnone, rfl⟩

end

/-! ## The peak finder -/

section
variable {num : Num F32} {bw : BitWidth} {pos : Nat} {b : Bit} {m : Memory F32}

/-- The bins from `i` on still read as in `m`: the peak finder has not come to them. -/
def Unvisited (m : Memory F32) (i : Nat) (x : Peak F32) : Prop := ∀ p, i ≤ p → Memory.read x.mem p = Memory.read m p

theorem unvisited_peakBin {i : Nat} {x y : Peak F32} (hx : Unvisited m i x) (h : peakBin num pos b i x = .ok y) :
    Unvisited m (i + 1) y := by
  obtain ⟨v, -, hmem, -, -⟩ := (peakBin_ok_iff _ _ _ _ _ _).1 h
  intro p hp
  rw [hmem, Memory.read_write_other _ _ (by omega)]
  exact hx p (by omega)

theorem exists_peakBin_ok {i : Nat} {x : Peak F32} (h : (Memory.read x.mem i).isSome = true) :
    ∃ y, peakBin num pos b i x = .ok y := by
  obtain ⟨v, hv⟩ := Option.isSome_iff_exists.1 h
  exact ⟨⟨_, _, _⟩, (peakBin_ok_iff _ _ _ _ _ _).2 ⟨v, hv, rfl, rfl, rfl⟩⟩

theorem peakBin_of_none {i : Nat} {x : Peak F32} (h : Memory.read x.mem i = none) :
    peakBin num pos b i x = .error (.uninitRead b i) := by
  unfold peakBin
  rw [bufRead_of_none b h]

/-- The peak finder faults at the first missing bin. -/
theorem peakScan_firstMissing {j : Nat} (hj : j < bw.size / 2) (h : FirstMissing m 1 j) :
    peakScan num bw pos b m = .error (.uninitRead b j) := by
  obtain ⟨hlo, hnone, hholds⟩ := h
  obtain ⟨x, hx, hunvisited⟩ := loop_ok_of (body := peakBin num pos b) (P := Unvisited m) (n := j - 1) (i := 1)
    (x := ⟨m, 0#24, num.zero⟩) (fun i y hi hi' hy => by
      obtain ⟨z, hz⟩ := exists_peakBin_ok (num := num) (pos := pos) (b := b) (i := i) (x := y)
        (by rw [hy i le_rfl]; exact hholds i (by omega) hi)
      exact ⟨z, hz, unvisited_peakBin hy hz⟩) (fun _ _ => rfl)
  have hadd : 1 + (j - 1) = j := Nat.add_sub_cancel' hlo
  rw [hadd] at hunvisited
  refine loop_error_at (k := j - 1) (by omega) hx ?_
  rw [hadd]
  exact peakBin_of_none ((hunvisited j le_rfl).trans hnone)

/-- The peak finder faults only on an element of its Buffer that holds no value. -/
theorem peakScan_error {e : Fault} (h : peakScan num bw pos b m = .error e) :
    ∃ j < bw.size, Memory.read m j = none ∧ e = .uninitRead b j := by
  obtain ⟨j, x, -, hj, hx, he⟩ := loop_error (P := Unvisited m) (n := bw.size / 2 - 1) (i := 1)
    (fun _ _ _ _ _ hy hz => unvisited_peakBin hy hz) (fun _ _ => rfl) h
  obtain ⟨hnone, rfl⟩ := peakBin_error _ _ _ _ _ _ he
  have hhalf := half_size_pos bw
  exact ⟨j, by omega, (hx j le_rfl).symm.trans hnone, rfl⟩

end

end Sys2Proof.Machine
end

section
/-!
PROOF. The butterflies of a stage in any order (R60): each writes its two elements of the stage's image, whatever the
destination holds, and no element is written by two of them.
-/

namespace Sys2Proof.Machine

section
variable {num : Num F32} {kind : Combine} {bw : BitWidth} {pos bp : Nat} {b : Bit} {src : Memory F32}

/-- Butterfly `i` of block `blk` of a stage. -/
def stageButterfly (num : Num F32) (kind : Combine) (bw : BitWidth) (pos bp : Nat) (b : Bit) (src : Memory F32)
    (blk i : Nat) (dst : Memory F32) : Except Fault (Memory F32) :=
  butterflyStep (butterfly num kind bw pos bp blk) b src (blockBase bw bp blk) (blockSize bw bp / 2) i dst

/-- The butterfly that writes element `p` of the destination. -/
def writerOf (bw : BitWidth) (bp p : Nat) : Nat × Nat := (p / blockSize bw bp, p % blockSize bw bp % (blockSize bw bp / 2))

theorem half_blockSize_pos (hbp : bp < bw.val) : 0 < blockSize bw bp / 2 := by
  rw [halfSize_eq bw hbp]; exact Nat.two_pow_pos _

/-- A butterfly writes one element of each half of its block. -/
theorem writerOf_eq_iff (hbp : bp < bw.val) {blk i : Nat} (hi : i < blockSize bw bp / 2) (p : Nat) :
    writerOf bw bp p = (blk, i) ↔
      p = blockBase bw bp blk + i ∨ p = blockBase bw bp blk + blockSize bw bp / 2 + i := by
  have hhalf := blockSize_half bw hbp
  have hmod : p % blockSize bw bp < blockSize bw bp := Nat.mod_lt _ (by omega)
  have hsplit : p / blockSize bw bp * blockSize bw bp + p % blockSize bw bp = p := Nat.div_add_mod' p _
  unfold writerOf blockBase
  rw [Prod.mk.injEq]
  constructor
  · rintro ⟨rfl, rfl⟩
    rcases Nat.lt_or_ge (p % blockSize bw bp) (blockSize bw bp / 2) with hlow | hhigh
    · rw [Nat.mod_eq_of_lt hlow]; omega
    · rw [Nat.mod_eq_sub_mod hhigh, Nat.mod_eq_of_lt (by omega)]; omega
  · have hplace : ∀ k < blockSize bw bp, (blk * blockSize bw bp + k) / blockSize bw bp = blk ∧
        (blk * blockSize bw bp + k) % blockSize bw bp = k := fun k hk =>
      ⟨by rw [Nat.add_comm, Nat.add_mul_div_right _ _ (by omega), Nat.div_eq_of_lt hk, Nat.zero_add],
        by rw [Nat.mul_add_mod', Nat.mod_eq_of_lt hk]⟩
    rintro (rfl | rfl)
    · obtain ⟨hdiv, hrem⟩ := hplace i (by omega)
      rw [hdiv, hrem, Nat.mod_eq_of_lt hi]; exact ⟨rfl, rfl⟩
    · obtain ⟨hdiv, hrem⟩ := hplace (blockSize bw bp / 2 + i) (by omega)
      rw [Nat.add_assoc, hdiv, hrem, Nat.add_mod_left, Nat.mod_eq_of_lt hi]; exact ⟨rfl, rfl⟩

/-- A butterfly of a stage leaves the stage's image in the two elements it writes, and every other element alone. -/
theorem stageButterfly_read (hbp : bp < bw.val) {blk i : Nat} {dst d : Memory F32} (hi : i < blockSize bw bp / 2)
    (h : stageButterfly num kind bw pos bp b src blk i dst = .ok d) (p : Nat) :
    Memory.read d p = if writerOf bw bp p = (blk, i) then stageImage num kind bw pos bp src p else Memory.read dst p := by
  obtain ⟨x, y, hx, hy, rfl⟩ := (butterflyStep_ok_iff _ _ _ _ _ _ _ _).1 h
  rw [Memory.read_write, Memory.read_write]
  have hiff := writerOf_eq_iff hbp (blk := blk) hi p
  by_cases hw : writerOf bw bp p = (blk, i)
  · have hblk : p / blockSize bw bp = blk := congrArg Prod.fst hw
    have hlane : p % blockSize bw bp % (blockSize bw bp / 2) = i := congrArg Prod.snd hw
    have hsplit : blockBase bw bp blk + p % blockSize bw bp = p := by
      rw [← hblk]; exact Nat.div_add_mod' p _
    have himage : stageImage num kind bw pos bp src p =
        some (if p % blockSize bw bp < blockSize bw bp / 2 then (butterfly num kind bw pos bp blk i x y).1
          else (butterfly num kind bw pos bp blk i x y).2) := by
      unfold blockBase at hx hy
      simp only [stageImage, hblk, hlane, hx, hy]
    rw [if_pos hw, himage]
    rcases hiff.1 hw with hp | hp
    · rw [if_neg (by omega), if_pos hp.symm, if_pos (by omega)]
    · rw [if_pos hp.symm, if_neg (by omega)]
  · obtain ⟨hlower, hupper⟩ := not_or.1 (mt hiff.2 hw)
    rw [if_neg (Ne.symm hupper), if_neg (Ne.symm hlower), if_neg hw]

/-- A butterfly of a stage whose source is full succeeds. -/
theorem stageButterfly_ok (hbp : bp < bw.val) (hfull : Holds src 0 bw.size) {blk i : Nat} (hblk : blk < 2 ^ bp)
    (hi : i < blockSize bw bp / 2) (dst : Memory F32) : ∃ d, stageButterfly num kind bw pos bp b src blk i dst = .ok d := by
  have hend := block_end_le bw hbp hblk
  have hhalf := blockSize_half bw hbp
  obtain ⟨x, hx⟩ := Option.isSome_iff_exists.1 (hfull (blockBase bw bp blk + 2 * i) (by omega) (Nat.zero_le _))
  obtain ⟨y, hy⟩ := Option.isSome_iff_exists.1 (hfull (blockBase bw bp blk + 2 * i + 1) (by omega) (Nat.zero_le _))
  exact ⟨_, (butterflyStep_ok_iff _ _ _ _ _ _ _ _).2 ⟨x, y, hx, hy, rfl⟩⟩

/-- Butterflies of a stage, in any order: they succeed, and the elements that one of them writes hold the stage's image. -/
theorem stageButterflies_foldl (hbp : bp < bw.val) (hfull : Holds src 0 bw.size) (order : List (Nat × Nat))
    (horder : ∀ p ∈ order, p.1 < 2 ^ bp ∧ p.2 < blockSize bw bp / 2) (dst : Memory F32) :
    ∃ d, order.foldl (fun acc p => acc.bind (stageButterfly num kind bw pos bp b src p.1 p.2)) (Except.ok dst) = .ok d ∧
      ∀ p, Memory.read d p =
        if writerOf bw bp p ∈ order then stageImage num kind bw pos bp src p else Memory.read dst p := by
  induction order generalizing dst with
  | nil => exact ⟨dst, rfl, fun p => by simp⟩
  | cons first rest ih =>
    obtain ⟨blk, i⟩ := first
    obtain ⟨⟨hblk, hi⟩, hrest⟩ := List.forall_mem_cons.1 horder
    obtain ⟨d₁, hd₁⟩ := stageButterfly_ok (num := num) (kind := kind) (pos := pos) (b := b) hbp hfull hblk hi dst
    obtain ⟨d, hd, hread⟩ := ih hrest d₁
    refine ⟨d, ?_, fun p => ?_⟩
    · rw [List.foldl_cons, Except.bind, hd₁]; exact hd
    · rw [hread, stageButterfly_read hbp hi hd₁]
      by_cases hmem : writerOf bw bp p ∈ rest
      · rw [if_pos hmem, if_pos (List.mem_cons_of_mem _ hmem)]
      · simp only [List.mem_cons, hmem, or_false, if_false]

/-- Every element below `N`, and no other, is written by a butterfly of the stage. -/
theorem writerOf_lt_iff (hbp : bp < bw.val) (p : Nat) :
    ((writerOf bw bp p).1 < 2 ^ bp ∧ (writerOf bw bp p).2 < blockSize bw bp / 2) ↔ p / blockSize bw bp < 2 ^ bp :=
  and_iff_left (Nat.mod_lt _ (half_blockSize_pos hbp))

end

end Sys2Proof.Machine
end

section
/-!
PROOF. The outcome of a command from the computation under it: faults of the commands that read Buffers, and element
access (R56, R84, R191, R192).
-/

namespace Sys2Proof.Machine

/-! ## The outcome of a command that faults -/

/-- Only what follows the range check reads a Buffer. -/
theorem ranged_uninitRead {i : Instr} {s : State} {k : Host.Outcome State Fault Refusal} {b : Bit} {j : Nat}
    (h : ranged i s k = .fault (.uninitRead b j)) : i.wf s.bw = true ∧ k = .fault (.uninitRead b j) := by
  unfold ranged at h
  split at h
  next hwf => exact ⟨hwf, h⟩
  · cases h

/-- A fault of a computation that reads `BUF[c]` names the element it found empty. -/
theorem empty_of_uninitRead {n : Nat} {m : Bufs F32} {b c : Bit} {j : Nat}
    (h : ∃ k < n, Memory.read (m.get c) k = none ∧ Fault.uninitRead b j = .uninitRead c k) :
    j < n ∧ Memory.read (m.get b) j = none := by
  obtain ⟨k, hk, hnone, he⟩ := h
  cases he
  exact ⟨hk, hnone⟩

/-- In range, a command answers what follows the check. -/
theorem ranged_eq_of_wf {i : Instr} {s : State} {k o : Host.Outcome State Fault Refusal} (hwf : i.wf s.bw = true)
    (hk : k = o) : ranged i s k = o := (ranged_of_wf k hwf).trans hk

/-- A command over the Buffers and `PAR` faults as its computation does. -/
theorem outcomeOf_runPipeline_fault_iff (f : Pipeline F32 → Except Fault (Pipeline F32)) (s : State) (e : Fault) :
    outcomeOf (runPipeline f s) = .fault e ↔ f s.pipeline = .error e := by
  unfold runPipeline
  cases f s.pipeline <;> simp

theorem outcomeOf_runCombine_fault_iff (kind : Combine) (bp : BitVec 5) (blk : BitVec 23) (s : State) (e : Fault) :
    outcomeOf (runCombine kind bp blk s) = .fault e ↔
      combineBlock binary32 kind s.bw s.cmdPos bp.toNat (sourceOf s.par) (s.bufs.get (sourceOf s.par)) blk.toNat
        (s.bufs.get (destOf s.par)) = .error e := by
  unfold runCombine
  cases combineBlock binary32 kind s.bw s.cmdPos bp.toNat (sourceOf s.par) (s.bufs.get (sourceOf s.par)) blk.toNat
    (s.bufs.get (destOf s.par)) <;> simp

theorem execFft_fault_iff (s : State) (e : Fault) :
    execFft s = .fault e ↔ transform binary32 s.bw s.cmdPos s.inSel s.bufs = .error e := by
  unfold execFft
  cases transform binary32 s.bw s.cmdPos s.inSel s.bufs <;> simp

theorem execFindf_fault_iff (r : Bit) (fs : F32) (s : State) (e : Fault) :
    execFindf r fs s = .fault e ↔
      peakScan binary32 s.bw s.cmdPos (phys s.inSel r) (s.bufs.get (phys s.inSel r)) = .error e := by
  unfold execFindf
  cases peakScan binary32 s.bw s.cmdPos (phys s.inSel r) (s.bufs.get (phys s.inSel r)) <;> simp

/-- The two range checks of a combine (R84). -/
theorem combine_inRange_iff {bw : BitWidth} {bp : BitVec 5} {blk : BitVec 23} :
    (stageInRange bw bp && blockInRange bp blk) = true ↔ bp.toNat < bw.val ∧ blk.toNat < 2 ^ bp.toNat := by
  simp only [stageInRange, blockInRange, Bool.and_eq_true, decide_eq_true_eq]

/-! ## Element access (R191, R192) -/

section
variable {s : State} {r : Bit} {idx : BitVec 24}

theorem exec_rdb_of_read {v : Sample F32} (hidx : idx.toNat < s.bw.size)
    (hv : Memory.read (s.bufs.get (phys s.inSel r)) idx.toNat = some v) :
    exec (.rdb r idx) s = .next ((s.push [v.re, v.im]).retire 1) :=
  ranged_eq_of_wf (decide_eq_true hidx) (by rw [bufRead_of_read _ hv])

theorem exec_rdb_of_none (hidx : idx.toNat < s.bw.size)
    (hnone : Memory.read (s.bufs.get (phys s.inSel r)) idx.toNat = none) :
    exec (.rdb r idx) s = .fault (.uninitRead (phys s.inSel r) idx.toNat) :=
  ranged_eq_of_wf (decide_eq_true hidx) (by rw [bufRead_of_none _ hnone])

theorem exec_wrb_of_range {re im : F32} (hidx : idx.toNat < s.bw.size) :
    exec (.wrb r idx re im) s = .next ({ s with
      bufs := s.bufs.set (phys s.inSel r)
        (Memory.write (s.bufs.get (phys s.inSel r)) idx.toNat ⟨re, im⟩) }.retire 3) :=
  ranged_of_wf _ (decide_eq_true hidx)

end

end Sys2Proof.Machine
end

section
/-!
PROOF. The statements about reads and writes of Buffer elements, each assembled from the rules above.
-/

namespace Sys2Proof.Machine

/-- Settles O20: by the two rules for `RDB` in range. -/
theorem rdbAnswersTheElement : Obligations.RdbAnswersTheElement := by
  intro s r idx hidx
  refine ⟨fun v hv => ⟨_, exec_rdb_of_read hidx hv, ?_⟩, exec_rdb_of_none hidx⟩
  exact ⟨⟨rfl, rfl, rfl⟩, rfl, fun _ _ => rfl, rfl, ⟨rfl, rfl⟩, ⟨rfl, rfl, rfl⟩⟩

/-- Settles O21: by the laws of a Buffer after a write, and of the Buffers after one of them is replaced. -/
theorem wrbStoresTheElement : Obligations.WrbStoresTheElement := by
  intro s r idx re im hidx
  have hother : ~~~(s.inSel ^^^ r) ≠ s.inSel ^^^ r := (by decide : ∀ b : Bit, ~~~b ≠ b) _
  refine ⟨_, exec_wrb_of_range hidx, ⟨rfl, rfl, rfl⟩, ?_, fun i hi => ?_, fun i => ?_, rfl, rfl, ⟨rfl, rfl⟩,
    ⟨rfl, rfl, rfl⟩⟩
  · simp only [State.retire_bufs, phys, Bufs.get_set_same, Memory.read_write_same]
  · simp only [State.retire_bufs, phys, Bufs.get_set_same, Memory.read_write_other _ _ hi.symm]
  · simp only [State.retire_bufs, phys, Bufs.get_set_other _ _ hother]

/-- Settles O11: one case for each command that reads a Buffer; the others answer no such fault. -/
theorem uninitReadNamesAnEmptyElement : Obligations.UninitReadNamesAnEmptyElement := by
  intro i s b j h
  cases i with
  | load => simp only [exec, execLoad] at h; split at h <;> cases h
  | stat | bitrev nb v | pinit | rebind => cases h
  | wrb r idx re im => obtain ⟨-, h⟩ := ranged_uninitRead h; cases h
  | rdb r idx =>
    obtain ⟨hidx, h⟩ := ranged_uninitRead h
    split at h <;> cases h
    next he =>
      obtain ⟨hnone, he⟩ := (bufRead_error_iff _ _ _ _).1 he
      exact empty_of_uninitRead ⟨_, of_decide_eq_true hidx, hnone, he⟩
  | fft => exact empty_of_uninitRead (transform_error ((execFft_fault_iff _ _).1 h))
  | findf r fs => exact empty_of_uninitRead (peakScan_error ((execFindf_fault_iff _ _ _ _).1 h))
  | sdec =>
    exact empty_of_uninitRead (decimate_error _ _ _ _ _ _ _ (Nat.sub_le _ _) ((outcomeOf_runPipeline_fault_iff _ _ _).1 h))
  | tdec =>
    exact empty_of_uninitRead (decimate_error _ _ _ _ _ _ _ le_rfl ((outcomeOf_runPipeline_fault_iff _ _ _).1 h))
  | sstg bp | tstg bp =>
    obtain ⟨hbp, h⟩ := ranged_uninitRead h
    exact empty_of_uninitRead
      (stage_error _ _ _ _ _ _ (of_decide_eq_true hbp) _ ((outcomeOf_runPipeline_fault_iff _ _ _).1 h))
  | scomb bp blk | tcomb bp blk =>
    obtain ⟨hwf, h⟩ := ranged_uninitRead h
    obtain ⟨hbp, hblk⟩ := combine_inRange_iff.1 hwf
    obtain ⟨k, -, hk, hnone, he⟩ := combineBlock_error _ _ _ _ _ _ _ _ _ _ ((outcomeOf_runCombine_fault_iff _ _ _ _ _).1 h)
    rw [← blockSize_half s.bw hbp] at hk
    exact empty_of_uninitRead ⟨k, Nat.lt_of_lt_of_le hk (block_end_le s.bw hbp hblk), hnone, he⟩

/-- Settles O32: by the rule for the first missing element of a block. -/
theorem combineFaultsAtTheFirstMissingElement : Obligations.CombineFaultsAtTheFirstMissingElement := by
  intro s bp blk j hbp hblk hlo hhi hnone hholds
  have hfirst : FirstMissing (s.bufs.get (sourceOf s.par)) (blockBase s.bw bp.toNat blk.toNat) j := ⟨hlo, hnone, hholds⟩
  have hwf := combine_inRange_iff.2 ⟨hbp, hblk⟩
  constructor <;> exact ranged_eq_of_wf hwf
    ((outcomeOf_runCombine_fault_iff _ _ _ _ _).2 (combineBlock_firstMissing hbp hhi hfirst))

/-- Settles O35: both orders leave the stage's image in the elements of the stage's blocks and the old destination
elsewhere; that the ascending order completes says that the source is full. -/
theorem butterfliesOfAStageInAnyOrder : Obligations.ButterfliesOfAStageInAnyOrder := by
  intro kind bw pos bp b src dst d order hbp _ horder hd
  have hfull := holds_of_blocks_ok hbp hd
  obtain ⟨d', hd', hread⟩ := stageButterflies_foldl (num := binary32) (kind := kind) (pos := pos) (b := b) hbp hfull order
    (fun p hp => (horder p).1 hp) dst
  refine ⟨d', hd', fun p => ?_⟩
  rw [hread, blocks_read binary32 kind bw pos bp b src dst d hbp _ hd p]
  simp only [horder, writerOf_lt_iff hbp]

/-- Settles O39: by the rules for the first missing element, one for each phase. -/
theorem firstMissingElementFaults : Obligations.FirstMissingElementFaults := by
  intro s j
  refine ⟨fun hj hnone hholds => ?_, fun hj hnone hholds => ?_, fun r fs hlo hj hnone hholds => ?_⟩
  · exact (execFft_fault_iff _ _).2 (transform_firstMissing hj ⟨Nat.zero_le j, hnone, hholds⟩)
  · have hfirst : FirstMissing (s.pipeline.bufs.get (sourceOf s.pipeline.par)) 0 j := ⟨Nat.zero_le j, hnone, hholds⟩
    refine ⟨(outcomeOf_runPipeline_fault_iff _ _ _).2 (straightDecimation_firstMissing hj hfirst),
      (outcomeOf_runPipeline_fault_iff _ _ _).2 (twiddleDecimation_firstMissing hj hfirst), fun bp hbp => ?_⟩
    constructor <;> exact ranged_eq_of_wf (decide_eq_true hbp)
      ((outcomeOf_runPipeline_fault_iff _ _ _).2 (stage_firstMissing hbp hj hfirst))
  · exact (execFindf_fault_iff _ _ _ _).2 (peakScan_firstMissing hj ⟨hlo, hnone, hholds⟩)

end Sys2Proof.Machine
end

section
/-!
PROOF. The decoder against the encoder: the fields of a legal command word put the word together again, so a word has at
most one meaning (R81, R82); which words are illegal (R87); what each answer of the decoder says of the words (R91).
-/

namespace Sys2Proof

/-! ## Putting a legal command word together from its opcode and its fields (R81, R82) -/

section
variable {w : Word} {op : Nat} (hop : (fieldOp w).toNat = op)
include hop

theorem ofNat_eq_fieldOp : BitVec.ofNat 4 op = fieldOp w := by
  rw [← hop, BitVec.ofNat_toNat, BitVec.setWidth_eq]

theorem encZ_fields (h : mbzZ w = true) : encZ (BitVec.ofNat 4 op) = w := by
  have hmbz : w.extractLsb' 0 28 = 0#28 := beq_iff_eq.1 h
  rw [ofNat_eq_fieldOp hop, encZ, fieldOp, ← hmbz,
    BitVec.extractLsb'_append_extractLsb'_eq_extractLsb' (show 28 = 0 + 28 from rfl), BitVec.extractLsb'_eq_self]

theorem encB_fields : encB (BitVec.ofNat 4 op) (fieldBp w) (fieldBlk w) = w := by
  rw [ofNat_eq_fieldOp hop, encB, fieldOp, fieldBp, fieldBlk,
    BitVec.extractLsb'_append_extractLsb'_eq_extractLsb' (show 28 = 23 + 5 from rfl),
    BitVec.extractLsb'_append_extractLsb'_eq_extractLsb' (show 23 = 0 + 23 from rfl), BitVec.extractLsb'_eq_self]

theorem encX_fields (h : mbzX w = true) : encX (BitVec.ofNat 4 op) (fieldR w) (fieldIdx w) = w := by
  have hmbz : w.extractLsb' 25 3 = 0#3 := beq_iff_eq.1 h
  rw [ofNat_eq_fieldOp hop, encX, fieldOp, fieldR, fieldIdx, ← hmbz,
    BitVec.extractLsb'_append_extractLsb'_eq_extractLsb' (show 28 = 25 + 3 from rfl),
    BitVec.extractLsb'_append_extractLsb'_eq_extractLsb' (show 25 = 24 + 1 from rfl),
    BitVec.extractLsb'_append_extractLsb'_eq_extractLsb' (show 24 = 0 + 24 from rfl), BitVec.extractLsb'_eq_self]

theorem encR_fields (h : mbzR w = true) : encR (BitVec.ofNat 4 op) (fieldR w) = w := by
  obtain ⟨hmbz, hidx⟩ := Bool.and_eq_true_iff.1 h
  rw [encR_eq_encX, ← beq_iff_eq.1 hidx]
  exact encX_fields hop hmbz

theorem encS_fields (h : mbzS w = true) : encS (BitVec.ofNat 4 op) (fieldBp w) = w := by
  rw [encS_eq_encB, ← beq_iff_eq.1 h]
  exact encB_fields hop

end

/-- A command read from a command word encodes to that word, and its payload is as much of the two words offered as the
opcode asks for (R81, R88). -/
theorem encode_of_decodeWord {w p q : Word} {i : Instr} (h : decodeWord w p q = some i) :
    encodeHead i = w ∧ payload i = [p, q].take (opLength w - 1) := by
  unfold decodeWord at h
  split at h <;> simp only [Option.ite_none_right_eq_some, Option.some.injEq, reduceCtorEq] at h
  case h_1 hop | h_2 hop | h_6 hop | h_8 hop | h_9 hop | h_10 hop | h_11 hop =>
    obtain ⟨hmbz, rfl⟩ := h
    exact ⟨encZ_fields hop hmbz, by simp [opLength, hop, payload]⟩
  case h_3 hop =>
    obtain ⟨hmbz, rfl⟩ := h
    exact ⟨encR_fields hop hmbz, by simp [opLength, hop, payload]⟩
  case h_4 hop | h_5 hop =>
    obtain ⟨hmbz, rfl⟩ := h
    exact ⟨encX_fields hop hmbz, by simp [opLength, hop, payload]⟩
  case h_12 hop | h_13 hop =>
    obtain ⟨hmbz, rfl⟩ := h
    exact ⟨encS_fields hop hmbz, by simp [opLength, hop, payload]⟩
  case h_7 hop | h_14 hop | h_15 hop =>
    subst h
    exact ⟨encB_fields hop, by simp [opLength, hop, payload]⟩

/-- No command is longer than three words (R88). -/
theorem opLength_le (w : Word) : opLength w ≤ 3 := by
  unfold opLength
  split <;> decide

/-! ## What each answer of the decoder says of the words (R91) -/

section
variable {w : Word} {ws : List Word}

/-- The words the decoder offers for the payload are the words there are. -/
theorem take_payload_words {n : Nat} (hn : n ≤ 2) (hlen : n ≤ ws.length) :
    [ws.getD 0 0#32, ws.getD 1 0#32].take n = ws.take n := by
  match n, ws, hn, hlen with
  | 0, _, _, _ => rfl
  | 1, _ :: _, _, _ => rfl
  | 2, _ :: _ :: _, _, _ => rfl

theorem decode_cons_eq_illegal_iff {v : Word} :
    decode (w :: ws) = .illegal v ↔ decodeWord w (ws.getD 0 0#32) (ws.getD 1 0#32) = none ∧ w = v := by
  simp only [decode]
  cases decodeWord w (ws.getD 0 0#32) (ws.getD 1 0#32) with
  | none => simp
  | some i =>
    dsimp only
    split <;> simp

theorem decode_cons_eq_partialCmd_iff {i : Instr} :
    decode (w :: ws) = .partialCmd i ↔
      decodeWord w (ws.getD 0 0#32) (ws.getD 1 0#32) = some i ∧ ws.length + 1 < opLength w := by
  simp only [decode]
  cases decodeWord w (ws.getD 0 0#32) (ws.getD 1 0#32) with
  | none => simp
  | some j =>
    dsimp only
    split <;> simp [*]

theorem decode_cons_eq_whole_iff {i : Instr} {rest : List Word} :
    decode (w :: ws) = .whole i rest ↔
      decodeWord w (ws.getD 0 0#32) (ws.getD 1 0#32) = some i ∧ opLength w ≤ ws.length + 1 ∧
        ws.drop (opLength w - 1) = rest := by
  simp only [decode]
  cases decodeWord w (ws.getD 0 0#32) (ws.getD 1 0#32) with
  | none => simp
  | some j =>
    dsimp only
    split
    next hlt => simp [Nat.not_le.2 hlt]
    next hge => simp [Nat.not_lt.1 hge]

/-- The word in front of a legal command is the command's own. -/
theorem encodeHead_of_decode {i : Instr}
    (h : (∃ rest, decode (w :: ws) = .whole i rest) ∨ decode (w :: ws) = .partialCmd i) :
    encodeHead i = w := by
  rcases h with ⟨rest, h⟩ | h
  · obtain ⟨hi, -, -⟩ := decode_cons_eq_whole_iff.1 h
    exact (encode_of_decodeWord hi).1
  · obtain ⟨hi, -⟩ := decode_cons_eq_partialCmd_iff.1 h
    exact (encode_of_decodeWord hi).1

/-- Words that decode to a command begin with its encoding. -/
theorem encode_append_of_decode_whole {i : Instr} {rest : List Word} (h : decode (w :: ws) = .whole i rest) :
    encode i ++ rest = w :: ws := by
  obtain ⟨hi, hlen, rfl⟩ := decode_cons_eq_whole_iff.1 h
  obtain ⟨rfl, hpayload⟩ := encode_of_decodeWord hi
  have htake := take_payload_words (ws := ws) (Nat.sub_le_sub_right (opLength_le _) 1) (Nat.sub_le_of_le_add hlen)
  rw [encode, hpayload, htake, List.cons_append, List.take_append_drop]

end

/-! ## The illegal words (R87) -/

theorem toNat_fieldOp (w : Word) : (fieldOp w).toNat = w.toNat / 2 ^ 28 := by
  have hlt := w.isLt
  rw [fieldOp, BitVec.extractLsb'_toNat, Nat.shiftRight_eq_div_pow, Nat.mod_eq_of_lt (by omega)]

theorem mbzZ_iff (w : Word) : mbzZ w = true ↔ w.toNat % 2 ^ 28 = 0 := by
  simp [mbzZ, ← BitVec.toNat_inj, BitVec.extractLsb'_toNat]

theorem mbzX_iff (w : Word) : mbzX w = true ↔ w.toNat / 2 ^ 25 % 2 ^ 3 = 0 := by
  simp [mbzX, ← BitVec.toNat_inj, BitVec.extractLsb'_toNat, Nat.shiftRight_eq_div_pow]

theorem mbzS_iff (w : Word) : mbzS w = true ↔ w.toNat % 2 ^ 23 = 0 := by
  simp [mbzS, ← BitVec.toNat_inj, BitVec.extractLsb'_toNat]

theorem mbzR_iff (w : Word) : mbzR w = true ↔ w.toNat / 2 ^ 25 % 2 ^ 3 = 0 ∧ w.toNat % 2 ^ 24 = 0 := by
  rw [← mbzX_iff]
  simp [mbzR, mbzX, ← BitVec.toNat_inj, BitVec.extractLsb'_toNat]

/-- A command word has no meaning exactly when its opcode has none, or a must-be-zero field of its format is not zero. -/
theorem decodeWord_eq_none_iff (w p q : Word) :
    decodeWord w p q = none ↔
      w.toNat / 2 ^ 28 = 0 ∨
      (w.toNat / 2 ^ 28 ∈ [0x1, 0x2, 0x6, 0x8, 0x9, 0xA, 0xB] ∧ w.toNat % 2 ^ 28 ≠ 0) ∨
      (w.toNat / 2 ^ 28 = 0x3 ∧ (w.toNat / 2 ^ 25 % 2 ^ 3 ≠ 0 ∨ w.toNat % 2 ^ 24 ≠ 0)) ∨
      (w.toNat / 2 ^ 28 ∈ [0x4, 0x5] ∧ w.toNat / 2 ^ 25 % 2 ^ 3 ≠ 0) ∨
      (w.toNat / 2 ^ 28 ∈ [0xC, 0xD] ∧ w.toNat % 2 ^ 23 ≠ 0) := by
  have hop : w.toNat / 2 ^ 28 < 16 := by have := w.isLt; omega
  simp only [decodeWord, toNat_fieldOp, mbzZ_iff, mbzX_iff, mbzS_iff, mbzR_iff]
  generalize w.toNat / 2 ^ 28 = op at hop ⊢
  interval_cases op <;> simp [imp_iff_not_or]

end Sys2Proof
end

section
/-!
PROOF. How a command and a step can end: the range check faults first (R84, R91), a command in range completes, waits or
faults on a missing element (R56), and nothing is refused.
-/

namespace Sys2Proof.Machine

/-! ## Nothing is refused (R83) -/

theorem outcomeOf_ne_refused (x : Except Fault State) (r : Refusal) : outcomeOf x ≠ .refused r := by
  cases x <;> nofun

theorem ranged_ne_refused {i : Instr} {s : State} {k : Host.Outcome State Fault Refusal} {r : Refusal}
    (hk : k ≠ .refused r) : ranged i s k ≠ .refused r := by
  unfold ranged
  split
  · exact hk
  · nofun

theorem exec_ne_refused (i : Instr) (s : State) (r : Refusal) : exec i s ≠ .refused r := by
  cases i with
  | load => simp only [exec, execLoad]; split <;> nofun
  | fft => simp only [exec, execFft]; split <;> nofun
  | findf r fs => simp only [exec, execFindf]; split <;> nofun
  | rdb r idx => exact ranged_ne_refused (by split <;> nofun)
  | wrb r idx re im => exact ranged_ne_refused nofun
  | stat | bitrev nb v | pinit | rebind => nofun
  | sdec | tdec => exact outcomeOf_ne_refused _ _
  | sstg bp | tstg bp | scomb bp blk | tcomb bp blk => exact ranged_ne_refused (outcomeOf_ne_refused _ _)

/-! ## How a command faults (R56, R84) -/

theorem exec_of_not_wf {i : Instr} {s : State} (h : i.wf s.bw = false) :
    exec i s = .fault (.operandRange (encodeHead i) s.cmdPos) := by
  cases i with
  | load | fft | findf r fs | stat | bitrev nb v | pinit | sdec | tdec | rebind => cases h
  | rdb r idx | wrb r idx re im | sstg bp | tstg bp | scomb bp blk | tcomb bp blk => exact ranged_of_not_wf _ h

/-- A computation that faults on an element of one Buffer faults on a missing element. -/
theorem exists_uninitRead {n : Nat} {m : Memory F32} {b : Bit} {e : Fault}
    (h : ∃ j < n, Memory.read m j = none ∧ e = .uninitRead b j) : ∃ b j, e = .uninitRead b j := by
  obtain ⟨j, -, -, he⟩ := h
  exact ⟨b, j, he⟩

/-- In range, the only fault of a command is a read of a missing element. -/
theorem uninitRead_of_exec_fault {i : Instr} {s : State} {e : Fault} (hwf : i.wf s.bw = true) (h : exec i s = .fault e) :
    ∃ b j, e = .uninitRead b j := by
  cases i with
  | load => simp only [exec, execLoad] at h; split at h <;> cases h
  | stat | bitrev nb v | pinit | rebind => cases h
  | wrb r idx re im => cases (ranged_of_wf _ hwf).symm.trans h
  | rdb r idx =>
    have hread := (ranged_of_wf _ hwf).symm.trans h
    split at hread <;> cases hread
    next he => exact ⟨_, _, ((bufRead_error_iff _ _ _ _).1 he).2⟩
  | fft => exact exists_uninitRead (transform_error ((execFft_fault_iff _ _).1 h))
  | findf r fs => exact exists_uninitRead (peakScan_error ((execFindf_fault_iff _ _ _ _).1 h))
  | sdec =>
    exact exists_uninitRead
      (decimate_error _ _ _ _ _ _ _ (Nat.sub_le _ _) ((outcomeOf_runPipeline_fault_iff _ _ _).1 h))
  | tdec =>
    exact exists_uninitRead (decimate_error _ _ _ _ _ _ _ le_rfl ((outcomeOf_runPipeline_fault_iff _ _ _).1 h))
  | sstg bp | tstg bp =>
    have hstage := (outcomeOf_runPipeline_fault_iff _ _ _).1 ((ranged_of_wf _ hwf).symm.trans h)
    exact exists_uninitRead (stage_error _ _ _ _ _ _ (of_decide_eq_true hwf) _ hstage)
  | scomb bp blk | tcomb bp blk =>
    have hblock := (outcomeOf_runCombine_fault_iff _ _ _ _ _).1 ((ranged_of_wf _ hwf).symm.trans h)
    obtain ⟨j, -, -, -, he⟩ := combineBlock_error _ _ _ _ _ _ _ _ _ _ hblock
    exact ⟨_, j, he⟩

/-- The faults of a command: out of range, or a missing element. -/
theorem exec_fault {i : Instr} {s : State} {e : Fault} (h : exec i s = .fault e) :
    (i.wf s.bw = false ∧ e = .operandRange (encodeHead i) s.cmdPos) ∨
    (i.wf s.bw = true ∧ ∃ b j, e = .uninitRead b j) := by
  cases hwf : i.wf s.bw with
  | false => cases (exec_of_not_wf hwf).symm.trans h; exact .inl ⟨rfl, rfl⟩
  | true => exact .inr ⟨rfl, uninitRead_of_exec_fault hwf h⟩

/-! ## How a step faults (R84, R87) -/

theorem step_illegalCommand_iff (s : State) (w : Word) :
    step s = .fault (.illegalCommand w s.cmdPos) ↔ decode s.window = .illegal w := by
  refine ⟨fun h => ?_, step_of_illegal⟩
  cases hd : decode s.window with
  | empty => rw [step_of_window_nil ((decode_eq_empty_iff _).1 hd)] at h; cases h
  | illegal v => rw [step_of_illegal hd] at h; cases h; rfl
  | partialCmd i =>
    rw [step_of_partialCmd hd] at h
    cases hwf : i.wf s.bw with
    | false => cases (ranged_of_not_wf _ hwf).symm.trans h
    | true => cases (awaitStep_of_wf hwf).symm.trans h
  | whole i rest =>
    rw [step_of_whole hd] at h
    obtain ⟨-, he⟩ | ⟨-, b, j, he⟩ := exec_fault h <;> cases he

/-- The range check stands before the payload, so it is the same whether the payload is there or not (R91, R224). -/
theorem step_operandRange_iff {s : State} {i : Instr}
    (hd : (∃ rest, decode s.window = .whole i rest) ∨ decode s.window = .partialCmd i) :
    step s = .fault (.operandRange (encodeHead i) s.cmdPos) ↔ i.wf s.bw = false := by
  rcases hd with ⟨rest, hd⟩ | hd
  · rw [step_of_whole hd]
    refine ⟨fun h => ?_, exec_of_not_wf⟩
    obtain ⟨hwf, -⟩ | ⟨-, b, j, he⟩ := exec_fault h
    · exact hwf
    · cases he
  · rw [step_of_partialCmd hd]
    cases hwf : i.wf s.bw with
    | false => simp [awaitStep, ranged_of_not_wf _ hwf]
    | true => simp [awaitStep_of_wf hwf]

end Sys2Proof.Machine
end

section
/-!
PROOF. The statements about encoding and decoding, faults of the decoder, and the response counts, each assembled from the
rules above.
-/

namespace Sys2Proof.Machine

/-- Settles O2: a command word holds its fields, and its opcode says how many payload words follow. -/
theorem decodeOfEncodedCommand : Obligations.DecodeOfEncodedCommand := decode_encode_append

/-- Settles O3: the fields of a legal word and the constants of its format are all its bits, and the payload is the words
the opcode asks for. -/
theorem encodeOfDecodedCommand : Obligations.EncodeOfDecodedCommand := by
  intro ws i rest h
  cases ws with
  | nil => cases h
  | cons w ws => exact encode_append_of_decode_whole h

/-- Settles O4: the step names a word illegal exactly when the decoder reads no command from it. -/
theorem illegalWordsFault : Obligations.IllegalWordsFault := by
  intro s w rest hw
  rw [step_illegalCommand_iff, hw, decode_cons_eq_illegal_iff, and_iff_left rfl, decodeWord_eq_none_iff]

/-- Settles O5: the word at the front is the command's own, and the fault is the range check failing, one case for each
command. -/
theorem operandsOutOfRangeFault : Obligations.OperandsOutOfRangeFault := by
  intro s w ws i hw hd
  have hhead : encodeHead i = w := by rw [hw] at hd; exact encodeHead_of_decode hd
  have hbw := s.bw.low
  rw [← hhead, step_operandRange_iff hd, ← Bool.not_eq_true]
  cases i with
  | load | fft | findf r fs | stat | bitrev nb v | pinit | sdec | tdec | rebind => simp [Instr.wf]
  | rdb r idx | wrb r idx re im => rw [Instr.wf, idxInRange, decide_eq_true_eq, Nat.not_lt]
  | sstg bp | tstg bp => rw [Instr.wf, stageInRange, decide_eq_true_eq]; omega
  | scomb bp blk | tcomb bp blk => rw [Instr.wf, combine_inRange_iff]; omega

/-- Settles O9: the effect of a command says what it pushes. -/
theorem responseWordCounts : Obligations.ResponseWordCounts := by
  intro i s t h
  cases effect_of_exec h with
  | fft | findf | bitrev => exact ⟨[_], rfl, rfl⟩
  | rdb => exact ⟨[_, _], rfl, rfl⟩
  | stat => exact ⟨[_, _, _], rfl, rfl⟩
  | _ => exact ⟨[], (List.append_nil _).symm, rfl⟩

/-- Settles O1: the decoder evaluated on the words of R92. -/
theorem workedEncodingsDecode : Obligations.WorkedEncodingsDecode := by
  unfold Obligations.WorkedEncodingsDecode
  decide

/-- Settles O7: one case for each answer of the decoder. -/
theorem nothingIsRefused : Obligations.NothingIsRefused := by
  intro s r
  cases hd : decode s.window with
  | empty => rw [step_of_window_nil ((decode_eq_empty_iff _).1 hd)]; nofun
  | illegal w => rw [step_of_illegal hd]; nofun
  | partialCmd i => rw [step_of_partialCmd hd]; exact ranged_ne_refused nofun
  | whole i rest => rw [step_of_whole hd]; exact exec_ne_refused i s r

end Sys2Proof.Machine
end

section
/-!
PROOF. The binary32 format (R110) by its 31 bits below the sign: they are ordered as the magnitudes are, the infinity and
the NaNs stand above the finite numbers, and `negate` flips the sign alone.
-/

namespace Sys2Proof.Machine

/-- The 31 bits below the sign. -/
def f32Bits (a : F32) : Nat := a.toNat % 2 ^ 31

/-- The magnitude that 31 bits stand for, in units of `2^-149`. -/
def magOf (n : Nat) : Nat := if n / 2 ^ 23 = 0 then n % 2 ^ 23 else (2 ^ 23 + n % 2 ^ 23) * 2 ^ (n / 2 ^ 23 - 1)

theorem f32Bits_lt (a : F32) : f32Bits a < 2 ^ 31 := Nat.mod_lt _ (by decide)

theorem f32Exp_eq (a : F32) : f32Exp a = f32Bits a / 2 ^ 23 := by unfold f32Exp f32Bits; omega

theorem f32Frac_eq (a : F32) : f32Frac a = f32Bits a % 2 ^ 23 := by unfold f32Frac f32Bits; omega

theorem f32Mag_eq (a : F32) : f32Mag a = magOf (f32Bits a) := by rw [f32Mag, magOf, f32Exp_eq, f32Frac_eq]

theorem f32Bits_packF32 {neg : Bool} {bits : Nat} (h : bits < 2 ^ 31) : f32Bits (packF32 neg bits) = bits := by
  rw [f32Bits, toNat_packF32 h]
  split <;> omega

theorem f32Mag_packF32 {neg : Bool} {bits : Nat} (h : bits < 2 ^ 31) : f32Mag (packF32 neg bits) = magOf bits := by
  rw [f32Mag_eq, f32Bits_packF32 h]

/-- A pattern is its sign and its 31 bits. -/
theorem f32_ext {a b : F32} (hneg : f32Neg a = f32Neg b) (hbits : f32Bits a = f32Bits b) : a = b := by
  have ha := a.isLt
  have hb := b.isLt
  simp only [f32Neg, decide_eq_decide] at hneg
  unfold f32Bits at hbits
  apply BitVec.eq_of_toNat_eq
  omega

theorem eq_packF32_iff {a : F32} {neg : Bool} {bits : Nat} (h : bits < 2 ^ 31) :
    a = packF32 neg bits ↔ f32Neg a = neg ∧ f32Bits a = bits := by
  constructor
  · rintro rfl; exact ⟨f32Neg_packF32 h, f32Bits_packF32 h⟩
  · rintro ⟨hneg, hbits⟩
    exact f32_ext (hneg.trans (f32Neg_packF32 h).symm) (hbits.trans (f32Bits_packF32 h).symm)

/-! ## Classes of patterns -/

theorem isNaN_iff (a : F32) : isNaN a = true ↔ infBits < f32Bits a := by
  have h := f32Bits_lt a
  simp only [isNaN, f32Exp_eq, f32Frac_eq, Bool.and_eq_true, beq_iff_eq, bne_iff_ne, infBits]
  omega

theorem isInf_iff (a : F32) : isInf a = true ↔ f32Bits a = infBits := by
  simp only [isInf, f32Exp_eq, f32Frac_eq, Bool.and_eq_true, beq_iff_eq, infBits]
  omega

theorem isNaN_eq_false_iff (a : F32) : isNaN a = false ↔ f32Bits a ≤ infBits := by
  rw [← Bool.not_eq_true, isNaN_iff, Nat.not_lt]

theorem isInf_eq_false_iff (a : F32) : isInf a = false ↔ f32Bits a ≠ infBits := by
  rw [← Bool.not_eq_true, isInf_iff]

/-- The finite numbers are the patterns below infinity. -/
theorem finite_iff (a : F32) : isNaN a = false ∧ isInf a = false ↔ f32Bits a < infBits := by
  rw [isNaN_eq_false_iff, isInf_eq_false_iff, Nat.lt_iff_le_and_ne]

theorem isNaN_of_isInf {a : F32} (h : isInf a = true) : isNaN a = false :=
  (isNaN_eq_false_iff a).2 ((isInf_iff a).1 h).le

/-! ## Magnitudes -/

/-- `q` quanta of `2^k` units: the pattern `k·2^23 + q`, a carry into the exponent included. -/
theorem magOf_quanta {k q : Nat} (hq : q ≤ 2 ^ 24) (hk : k = 0 ∨ 2 ^ 23 ≤ q) : magOf (k * 2 ^ 23 + q) = q * 2 ^ k := by
  unfold magOf
  rcases Nat.lt_or_ge q (2 ^ 23) with hlow | hhigh
  · obtain rfl : k = 0 := by omega
    rw [if_pos (by omega), Nat.pow_zero]
    omega
  · rw [if_neg (by omega)]
    rcases Nat.lt_or_eq_of_le hq with hlt | rfl
    · have hexp : (k * 2 ^ 23 + q) / 2 ^ 23 - 1 = k := by omega
      have hsig : 2 ^ 23 + (k * 2 ^ 23 + q) % 2 ^ 23 = q := by omega
      rw [hexp, hsig]
    · have hexp : (k * 2 ^ 23 + 2 ^ 24) / 2 ^ 23 - 1 = k + 1 := by omega
      have hsig : 2 ^ 23 + (k * 2 ^ 23 + 2 ^ 24) % 2 ^ 23 = 2 ^ 23 := by omega
      rw [hexp, hsig, Nat.pow_succ 2 k]
      ring

/-- Every pattern is a number of quanta below the carry. -/
theorem exists_quanta (n : Nat) : ∃ k q, n = k * 2 ^ 23 + q ∧ q < 2 ^ 24 ∧ (k = 0 ∨ 2 ^ 23 ≤ q) :=
  ⟨n / 2 ^ 23 - 1, n - (n / 2 ^ 23 - 1) * 2 ^ 23, by omega, by omega, by omega⟩

/-- Patterns are ordered as their magnitudes are. -/
theorem magOf_strictMono : StrictMono magOf := by
  refine strictMono_nat_of_lt_succ fun n => ?_
  obtain ⟨k, q, rfl, hq, hk⟩ := exists_quanta n
  have hsucc : k * 2 ^ 23 + q + 1 = k * 2 ^ 23 + (q + 1) := Nat.add_assoc _ _ _
  rw [hsucc, magOf_quanta hq.le hk, magOf_quanta hq (hk.imp_right Nat.le_succ_of_le)]
  exact Nat.mul_lt_mul_of_pos_right (Nat.lt_succ_self q) (Nat.two_pow_pos k)

@[simp] theorem magOf_zero : magOf 0 = 0 := rfl

theorem magOf_eq_zero_iff (n : Nat) : magOf n = 0 ↔ n = 0 := magOf_strictMono.injective.eq_iff' magOf_zero

theorem f32Mag_eq_zero_iff (a : F32) : f32Mag a = 0 ↔ f32Bits a = 0 := by rw [f32Mag_eq, magOf_eq_zero_iff]

theorem f32Val_eq_zero_iff (a : F32) : f32Val a = 0 ↔ f32Mag a = 0 := by
  unfold f32Val
  split <;> omega

theorem natAbs_f32Val (a : F32) : (f32Val a).natAbs = f32Mag a := by
  unfold f32Val
  split <;> omega

/-- The sign of a value other than zero is its sign bit. -/
theorem f32Val_neg_iff {a : F32} (h : f32Val a ≠ 0) : f32Val a < 0 ↔ f32Neg a = true := by
  rw [Ne, f32Val_eq_zero_iff] at h
  unfold f32Val
  cases f32Neg a
  · simp
  · simp; omega

/-- The magnitude of an infinity is above that of every finite number. -/
theorem f32Mag_ne_zero_of_isInf {a : F32} (h : isInf a = true) : f32Mag a ≠ 0 := by
  rw [Ne, f32Mag_eq_zero_iff, (isInf_iff a).1 h]
  decide

/-! ## `negate` (R113) -/

theorem f32Neg_eq_msb (a : F32) : f32Neg a = a.msb := by rw [f32Neg, BitVec.msb_eq_decide]

theorem f32Bits_eq_setWidth (a : F32) : f32Bits a = (a.setWidth 31).toNat := by rw [f32Bits, BitVec.toNat_setWidth]

@[simp] theorem f32Neg_f32Negate (a : F32) : f32Neg (f32Negate a) = !f32Neg a := by
  rw [f32Neg_eq_msb, f32Neg_eq_msb, f32Negate, BitVec.msb_xor, (by decide : (0x80000000#32).msb = true), Bool.xor_true]

@[simp] theorem f32Bits_f32Negate (a : F32) : f32Bits (f32Negate a) = f32Bits a := by
  rw [f32Bits_eq_setWidth, f32Bits_eq_setWidth, f32Negate, BitVec.setWidth_xor,
    (by decide : (0x80000000#32).setWidth 31 = 0#31), BitVec.xor_zero]

@[simp] theorem isNaN_f32Negate (a : F32) : isNaN (f32Negate a) = isNaN a := by
  rw [Bool.eq_iff_iff, isNaN_iff, isNaN_iff, f32Bits_f32Negate]

@[simp] theorem isInf_f32Negate (a : F32) : isInf (f32Negate a) = isInf a := by
  rw [Bool.eq_iff_iff, isInf_iff, isInf_iff, f32Bits_f32Negate]

@[simp] theorem f32Mag_f32Negate (a : F32) : f32Mag (f32Negate a) = f32Mag a := by
  rw [f32Mag_eq, f32Mag_eq, f32Bits_f32Negate]

@[simp] theorem f32Val_f32Negate (a : F32) : f32Val (f32Negate a) = -f32Val a := by
  unfold f32Val
  cases h : f32Neg a <;> simp [h]

end Sys2Proof.Machine
end

section
/-!
PROOF. Rounding to nearest (R111): a number of quanta within half a quantum of a value is the pattern nearest to it among
all patterns; `roundUnits` answers such a number, ties to even, and reaches infinity where `RoundedTo` says so.
-/

namespace Sys2Proof.Machine

/-! ## A number of quanta nearest to a value -/

/-- `q` quanta of `2^k` units are nearest to the value `v`, in units: `v` lies in the binade of the quantum, or below it
where the quantum is the smallest, and `q` is at most half a quantum away. -/
structure Rounds (v : ℝ) (k q : Nat) : Prop where
  lower : k = 0 ∨ (2 : ℝ) ^ (k + 23) ≤ v
  upper : v < 2 ^ (k + 24)
  near : |v - q * 2 ^ k| ≤ 2 ^ k / 2

/-- Every other multiple of the quantum is at least half a quantum away. -/
theorem near_multiple {v u : ℝ} {q c : Nat} (hnear : |v - q * u| ≤ u / 2) (hc : c ≠ q) : u / 2 ≤ |v - c * u| := by
  have hu : 0 ≤ u := by linarith [abs_nonneg (v - q * u)]
  have hone : (1 : ℝ) ≤ |(c : ℝ) - q| := by
    have hint : 1 ≤ |(c : ℤ) - q| := Int.one_le_abs (sub_ne_zero.2 (by exact_mod_cast hc))
    exact_mod_cast hint
  have hdist : u ≤ |(c * u - q * u : ℝ)| := by
    rw [← sub_mul, abs_mul, abs_of_nonneg hu]
    exact le_mul_of_one_le_left hu hone
  have htri := abs_sub_le (c * u : ℝ) v (q * u)
  rw [abs_sub_comm (c * u : ℝ) v] at htri
  linarith

theorem abs_sub_multiple_le {v u : ℝ} {q : Nat} (hnear : |v - q * u| ≤ u / 2) (c : Nat) :
    |v - q * u| ≤ |v - c * u| := by
  rcases eq_or_ne c q with rfl | hc
  · exact le_rfl
  · exact hnear.trans (near_multiple hnear hc)

namespace Rounds

variable {v : ℝ} {k q : Nat} (h : Rounds v k q)
include h

theorem le_carry : q ≤ 2 ^ 24 := by
  have hpos : (0 : ℝ) < 2 ^ k := by positivity
  have hnear := (abs_le.1 h.near).1
  have hup := h.upper
  rw [pow_add, mul_comm] at hup
  have hlt : (q : ℝ) < 2 ^ 24 + 1 := by
    refine lt_of_mul_lt_mul_right ?_ hpos.le
    linarith
  exact Nat.lt_succ_iff.1 (by exact_mod_cast hlt)

theorem normal : k = 0 ∨ 2 ^ 23 ≤ q := by
  refine h.lower.imp_right fun hlow => ?_
  have hpos : (0 : ℝ) < 2 ^ k := by positivity
  have hnear := (abs_le.1 h.near).2
  rw [pow_add, mul_comm] at hlow
  have hlt : (2 : ℝ) ^ 23 < q + 1 := by
    refine lt_of_mul_lt_mul_right ?_ hpos.le
    linarith
  exact Nat.lt_succ_iff.1 (by exact_mod_cast hlt)

/-- The pattern of the quanta, and what it stands for. -/
theorem magOf_eq : (magOf (k * 2 ^ 23 + q) : ℝ) = q * 2 ^ k := by
  rw [magOf_quanta h.le_carry h.normal]
  push_cast
  rfl

/-- No pattern is nearer; one as near is half a quantum away. A pattern of smaller quanta lies below the binade of `v`, and
`2^23` quanta, where the binade starts, are nearer. -/
theorem nearest (n : Nat) :
    |v - magOf (k * 2 ^ 23 + q)| ≤ |v - magOf n| ∧
    (|v - magOf (k * 2 ^ 23 + q)| = |v - magOf n| → n ≠ k * 2 ^ 23 + q → |v - magOf (k * 2 ^ 23 + q)| = 2 ^ k / 2) := by
  rw [h.magOf_eq]
  obtain ⟨j, p, rfl, hp, hj⟩ := exists_quanta n
  have hmag : (magOf (j * 2 ^ 23 + p) : ℝ) = p * 2 ^ j := by rw [magOf_quanta hp.le hj]; push_cast; rfl
  rcases Nat.lt_or_ge j k with hlt | hge
  · have hlow : (2 : ℝ) ^ (k + 23) ≤ v := h.lower.resolve_left (by omega)
    have hbelow : (magOf (j * 2 ^ 23 + p) : ℝ) < 2 ^ (k + 23) := by
      rw [hmag]
      calc (p * 2 ^ j : ℝ) < 2 ^ 24 * 2 ^ j := by
            have : (p : ℝ) < 2 ^ 24 := by exact_mod_cast hp
            gcongr
        _ = 2 ^ (j + 24) := by rw [pow_add, mul_comm]
        _ ≤ 2 ^ (k + 23) := pow_le_pow_right₀ (by norm_num) (by omega)
    have hstrict : |v - q * 2 ^ k| < |v - magOf (j * 2 ^ 23 + p)| :=
      calc |v - q * 2 ^ k| ≤ |v - (2 ^ 23 : ℕ) * 2 ^ k| := abs_sub_multiple_le h.near _
        _ = v - 2 ^ (k + 23) := by
          rw [pow_add, mul_comm ((2 : ℝ) ^ k)] at hlow ⊢
          rw [Nat.cast_pow, Nat.cast_ofNat]
          exact abs_of_nonneg (sub_nonneg.2 hlow)
        _ < v - magOf (j * 2 ^ 23 + p) := by linarith
        _ ≤ |v - magOf (j * 2 ^ 23 + p)| := le_abs_self _
    exact ⟨hstrict.le, fun heq => absurd heq hstrict.ne⟩
  · have hmul : (magOf (j * 2 ^ 23 + p) : ℝ) = (p * 2 ^ (j - k) : ℕ) * 2 ^ k := by
      rw [hmag, Nat.cast_mul, Nat.cast_pow, Nat.cast_ofNat, mul_assoc, pow_sub_mul_pow 2 hge]
    rw [hmul]
    refine ⟨abs_sub_multiple_le h.near _, fun heq hne => le_antisymm h.near ?_⟩
    rw [heq]
    refine near_multiple h.near fun hpq => hne (magOf_strictMono.injective ?_)
    have : (magOf (j * 2 ^ 23 + p) : ℝ) = magOf (k * 2 ^ 23 + q) := by rw [hmul, hpq, h.magOf_eq]
    exact_mod_cast this

/-- The rounded pattern is at most half its own last place away. -/
theorem near_lastPlace : |v - magOf (k * 2 ^ 23 + q)| ≤ 2 ^ ((k * 2 ^ 23 + q) / 2 ^ 23 - 1) / 2 := by
  rw [h.magOf_eq]
  have hnormal := h.normal
  have hk : k ≤ (k * 2 ^ 23 + q) / 2 ^ 23 - 1 := by omega
  have := pow_le_pow_right₀ (one_le_two : (1 : ℝ) ≤ 2) hk
  linarith [h.near]

/-- A value that is itself a pattern's is rounded to that pattern. -/
theorem eq_of_exact {n : Nat} (hn : v = magOf n) : k * 2 ^ 23 + q = n := by
  have hzero := (h.nearest n).1
  rw [hn, sub_self, abs_zero] at hzero
  have heq := abs_eq_zero.1 (le_antisymm hzero (abs_nonneg _))
  exact magOf_strictMono.injective (by exact_mod_cast (sub_eq_zero.1 heq).symm)

/-- Rounding does not pass a pattern that the value does not pass. -/
theorem le_of_le {n : Nat} (hn : v ≤ magOf n) : k * 2 ^ 23 + q ≤ n := by
  by_contra hlt
  have hmono : (magOf n : ℝ) < magOf (k * 2 ^ 23 + q) := by exact_mod_cast magOf_strictMono (Nat.lt_of_not_le hlt)
  have hnear := (h.nearest n).1
  rw [abs_of_nonpos (by linarith), abs_of_nonpos (by linarith)] at hnear
  linarith

theorem ge_of_ge {n : Nat} (hn : magOf n ≤ v) : n ≤ k * 2 ^ 23 + q := by
  by_contra hlt
  have hmono : (magOf (k * 2 ^ 23 + q) : ℝ) < magOf n := by exact_mod_cast magOf_strictMono (Nat.lt_of_not_le hlt)
  have hnear := (h.nearest n).1
  rw [abs_of_nonneg (by linarith), abs_of_nonneg (by linarith)] at hnear
  linarith

end Rounds

/-! ## Ties to even, and overflow -/

/-- `Rounds`, and a tie went to the even number of quanta. -/
structure RoundsEven (v : ℝ) (k q : Nat) : Prop extends Rounds v k q where
  tie : |v - q * 2 ^ k| = 2 ^ k / 2 → q % 2 = 0

namespace RoundsEven

variable {v : ℝ} {k q : Nat} (h : RoundsEven v k q)
include h

/-- A pattern as near as the rounded one is another only where the rounded one is even. -/
theorem even_of_tie {n : Nat} (heq : |v - magOf (k * 2 ^ 23 + q)| = |v - magOf n|) (hne : n ≠ k * 2 ^ 23 + q) :
    (k * 2 ^ 23 + q) % 2 = 0 := by
  have htie := (h.nearest n).2 heq hne
  rw [h.magOf_eq] at htie
  have := h.tie htie
  omega

end RoundsEven

theorem magOf_infBits : magOf infBits = 2 ^ 24 * 2 ^ 253 := by rw [magOf]; rfl

theorem magOf_largest : magOf (infBits - 1) = (2 ^ 24 - 1) * 2 ^ 253 := by rw [magOf]; rfl

/-- Overflow: a value is rounded to infinity or above exactly from half a last place above the largest finite number on;
half-way is a tie, and the largest finite number is odd. -/
theorem RoundsEven.infBits_le_iff {v : ℝ} {k q : Nat} (h : RoundsEven v k q) :
    infBits ≤ k * 2 ^ 23 + q ↔ (2 ^ 25 - 1) * 2 ^ 253 ≤ 2 * v := by
  have hinf : (magOf infBits : ℝ) = 2 ^ 24 * 2 ^ 253 := by
    rw [magOf_infBits, Nat.cast_mul, Nat.cast_pow, Nat.cast_pow, Nat.cast_ofNat]
  have hmax : (magOf (infBits - 1) : ℝ) = (2 ^ 24 - 1) * 2 ^ 253 := by
    rw [magOf_largest, Nat.cast_mul, Nat.cast_sub (by norm_num), Nat.cast_pow, Nat.cast_pow, Nat.cast_ofNat, Nat.cast_one]
  have hmaxn := (h.nearest (infBits - 1)).1
  have hinfn := (h.nearest infBits).1
  rw [hmax] at hmaxn
  rw [hinf] at hinfn
  have hu : (0 : ℝ) < 2 ^ 253 := by positivity
  generalize (2 : ℝ) ^ 253 = u at *
  constructor
  · intro hle
    have hmono : (2 ^ 24 * u : ℝ) ≤ magOf (k * 2 ^ 23 + q) := by
      rw [← hinf]; exact_mod_cast magOf_strictMono.monotone hle
    by_contra hlt
    rw [abs_of_nonpos (by linarith)] at hmaxn
    rcases abs_cases (v - (2 ^ 24 - 1) * u) with ⟨habs, -⟩ | ⟨habs, -⟩ <;> rw [habs] at hmaxn <;> linarith
  · intro hge
    by_contra hlt
    have hle : k * 2 ^ 23 + q ≤ infBits - 1 := by omega
    have hmono : (magOf (k * 2 ^ 23 + q) : ℝ) ≤ (2 ^ 24 - 1) * u := by
      rw [← hmax]; exact_mod_cast magOf_strictMono.monotone hle
    have habs : |v - magOf (k * 2 ^ 23 + q)| = v - magOf (k * 2 ^ 23 + q) := abs_of_nonneg (by linarith)
    rw [habs] at hinfn
    rcases abs_cases (v - 2 ^ 24 * u) with ⟨hcase, -⟩ | ⟨hcase, -⟩ <;> rw [hcase] at hinfn
    · linarith
    · have hlast : (magOf (k * 2 ^ 23 + q) : ℝ) = magOf (infBits - 1) := by rw [hmax]; linarith
      have hbits : k * 2 ^ 23 + q = infBits - 1 := magOf_strictMono.injective (by exact_mod_cast hlast)
      have heven := h.even_of_tie (n := infBits) (by rw [habs, hinf, hcase]; linarith) (by omega)
      rw [hbits] at heven
      exact absurd heven (by decide)

/-! ## `roundUnits` rounds -/

/-- Rounding to an integer: at most half away, and even where exactly half. -/
theorem nearestEven_near (a : Nat) {d : Nat} (hd : 0 < d) :
    2 * |(a : ℤ) - nearestEven a d * d| ≤ d ∧ (2 * |(a : ℤ) - nearestEven a d * d| = d → nearestEven a d % 2 = 0) := by
  have hmod : a % d < d := Nat.mod_lt a hd
  have hdiv : (a : ℤ) = (a / d : ℕ) * d + (a % d : ℕ) := by exact_mod_cast (Nat.div_add_mod' a d).symm
  unfold nearestEven
  generalize a / d = m at *
  generalize a % d = r at *
  split
  · have habs : |(a : ℤ) - (m + 1 : ℕ) * d| = d - r := by
      rw [hdiv, abs_of_nonpos (by push_cast; linarith)]; push_cast; ring
    rw [habs]
    omega
  · have habs : |(a : ℤ) - m * d| = r := by rw [hdiv, abs_of_nonneg (by linarith)]; ring
    rw [habs]
    omega

/-- The binade of a quotient. -/
theorem log2_div_bounds {a d : Nat} (hd : 0 < d) :
    ((a / d).log2 - 23 = 0 ∨ (2 : ℝ) ^ ((a / d).log2 - 23 + 23) ≤ a / d) ∧
    (a / d : ℝ) < 2 ^ ((a / d).log2 - 23 + 24) := by
  have hd' : (0 : ℝ) < d := by exact_mod_cast hd
  constructor
  · rcases Nat.lt_or_ge 23 (a / d).log2 with hlog | hlog
    · right
      rw [Nat.sub_add_cancel hlog.le]
      have hpos : a / d ≠ 0 := by rintro h0; rw [h0] at hlog; exact absurd hlog (by decide)
      have hle : ((2 ^ (a / d).log2 : ℕ) : ℝ) ≤ (a / d : ℕ) := by exact_mod_cast Nat.log2_self_le hpos
      exact (by exact_mod_cast hle : (2 : ℝ) ^ (a / d).log2 ≤ (a / d : ℕ)).trans Nat.cast_div_le
    · exact .inl (by omega)
  · rw [div_lt_iff₀ hd']
    have hlt : a / d < 2 ^ ((a / d).log2 - 23 + 24) :=
      Nat.lt_log2_self.trans_le (Nat.pow_le_pow_right (by decide) (by omega))
    exact_mod_cast (Nat.div_lt_iff_lt_mul hd).1 hlt

/-- The number of quanta that `roundUnits` takes for `a / d` units. -/
theorem roundsEven_div (a : Nat) {d : Nat} (hd : 0 < d) :
    RoundsEven (a / d) ((a / d).log2 - 23) (nearestEven a (d * 2 ^ ((a / d).log2 - 23))) := by
  obtain ⟨hlow, hup⟩ := log2_div_bounds (a := a) hd
  generalize (a / d).log2 - 23 = k at *
  obtain ⟨hnear, htie⟩ := nearestEven_near a (d := d * 2 ^ k) (by positivity)
  generalize nearestEven a (d * 2 ^ k) = q at *
  have hd' : (0 : ℝ) < d := by exact_mod_cast hd
  have hscale : 2 * (|(a / d - q * 2 ^ k : ℝ)| * d) = (2 * |(a : ℤ) - q * (d * 2 ^ k : ℕ)| : ℤ) := by
    push_cast
    nth_rw 2 [← abs_of_pos hd']
    rw [← abs_mul, sub_mul, div_mul_cancel₀ _ hd'.ne']
    ring_nf
  refine { lower := hlow, upper := hup, near := ?_, tie := fun heq => htie ?_ }
  · have : (2 * |(a : ℤ) - q * (d * 2 ^ k : ℕ)| : ℤ) ≤ ((d * 2 ^ k : ℕ) : ℝ) := by exact_mod_cast hnear
    rw [← hscale] at this
    push_cast at this
    refine le_of_mul_le_mul_right ?_ hd'
    linarith
  · have : ((2 * |(a : ℤ) - q * (d * 2 ^ k : ℕ)| : ℤ) : ℝ) = ((d * 2 ^ k : ℕ) : ℝ) := by
      rw [← hscale, heq]
      push_cast
      ring
    exact_mod_cast this

/-- What `roundUnits` answers, said once: the nearest pattern, even on a tie, at most infinity. -/
theorem exists_roundUnits (a : Nat) {d : Nat} (hd : 0 < d) :
    ∃ k q, RoundsEven (a / d) k q ∧ roundUnits a d = min (k * 2 ^ 23 + q) infBits :=
  ⟨_, _, roundsEven_div a hd, rfl⟩

theorem roundUnits_le (a d : Nat) : roundUnits a d ≤ infBits := Nat.min_le_right _ _

/-- A magnitude of a finite pattern is rounded to that pattern. -/
theorem roundUnits_of_exact {a d n : Nat} (hd : 0 < d) (hn : n ≤ infBits) (ha : a = magOf n * d) : roundUnits a d = n := by
  obtain ⟨k, q, h, hr⟩ := exists_roundUnits a hd
  have hd' : (d : ℝ) ≠ 0 := by exact_mod_cast hd.ne'
  rw [hr, h.eq_of_exact (n := n) (by rw [ha, Nat.cast_mul, mul_div_cancel_right₀ _ hd']), Nat.min_eq_left hn]

/-! ## Signed values -/

/-- The sign bit of `r` is the sign of `w`; either will do for zero. -/
def HasSignOf (r : F32) (w : ℝ) : Prop := (0 < w → f32Neg r = false) ∧ (w < 0 → f32Neg r = true)

theorem abs_f32Val (x : F32) : |(f32Val x : ℝ)| = magOf (f32Bits x) := by
  rw [← f32Mag_eq, ← natAbs_f32Val, Nat.cast_natAbs, Int.cast_abs]

/-- The distance of a value from a number of its own sign is that of the magnitudes. -/
theorem abs_sub_f32Val_of_hasSignOf {w : ℝ} {r : F32} (h : HasSignOf r w) :
    |w - f32Val r| = |(|w| - magOf (f32Bits r))| := by
  obtain ⟨hpos, hneg⟩ := h
  unfold f32Val
  rw [f32Mag_eq]
  rcases lt_trichotomy w 0 with hw | rfl | hw
  · rw [hneg hw, if_pos rfl, abs_of_neg hw, ← abs_neg]
    push_cast
    ring_nf
  · split <;> simp
  · rw [hpos hw, if_neg (by decide), abs_of_pos hw]
    push_cast
    rfl

section
variable {w : ℝ} {k q : Nat} {r : F32} (hsign : HasSignOf r w) (hbits : f32Bits r = k * 2 ^ 23 + q)
include hsign hbits

/-- The rounded magnitude with the sign of the value is nearest to the value: to a number of the other sign it is no nearer
than to that number's magnitude. -/
theorem Rounds.f32_nearest (h : Rounds |w| k q) (x : F32) : |w - f32Val r| ≤ |w - f32Val x| :=
  calc |w - f32Val r| = |(|w| - magOf (k * 2 ^ 23 + q))| := by rw [abs_sub_f32Val_of_hasSignOf hsign, hbits]
    _ ≤ |(|w| - magOf (f32Bits x))| := (h.nearest _).1
    _ ≤ |w - f32Val x| := by rw [← abs_f32Val]; exact abs_abs_sub_abs_le_abs_sub _ _

/-- A tie between two numbers is one of their magnitudes, or the value is zero. -/
theorem RoundsEven.f32_even (h : RoundsEven |w| k q) {x : F32} (heq : |w - f32Val r| = |w - f32Val x|)
    (hne : f32Val x ≠ f32Val r) : f32Frac r % 2 = 0 := by
  have heven : (k * 2 ^ 23 + q) % 2 = 0 := by
    by_cases hx : f32Bits x = k * 2 ^ 23 + q
    · have hopp : f32Val x = -f32Val r := by
        refine (Int.natAbs_eq_natAbs_iff.1 ?_).resolve_left hne
        rw [natAbs_f32Val, natAbs_f32Val, f32Mag_eq, f32Mag_eq, hx, hbits]
      rw [hopp, Int.cast_neg, sub_neg_eq_add] at heq
      rcases abs_eq_abs.1 heq with hzero | hzero
      · have hr : (f32Val r : ℝ) = 0 := by linarith
        rw [hopp, Int.cast_eq_zero.1 hr] at hne
        exact absurd rfl hne
      · have hw : w = 0 := by linarith
        rw [h.eq_of_exact (n := 0) (by simp [hw])]
    · refine h.even_of_tie (le_antisymm (h.nearest _).1 ?_) hx
      calc |(|w| - magOf (f32Bits x))| ≤ |w - f32Val x| := by
            rw [← abs_f32Val]; exact abs_abs_sub_abs_le_abs_sub _ _
        _ = |(|w| - magOf (k * 2 ^ 23 + q))| := by rw [← heq, abs_sub_f32Val_of_hasSignOf hsign, hbits]
  rw [f32Frac_eq, hbits]
  omega

end

/-! ## `RoundedTo` (R111) -/

section
variable {num : Int} {den : Nat} (hden : 0 < den)
include hden

/-- A distance in the integers of `RoundedTo` is the distance from the quotient, times the denominator. -/
theorem cast_abs_sub_f32Val (x : F32) :
    ((|num - f32Val x * den| : ℤ) : ℝ) = |(num : ℝ) / den - f32Val x| * den := by
  have hden' : (0 : ℝ) < den := by exact_mod_cast hden
  push_cast
  nth_rw 3 [← abs_of_pos hden']
  rw [← abs_mul, sub_mul, div_mul_cancel₀ _ hden'.ne']

theorem abs_sub_f32Val_le_iff (x y : F32) :
    |num - f32Val x * den| ≤ |num - f32Val y * den| ↔ |(num : ℝ) / den - f32Val x| ≤ |(num : ℝ) / den - f32Val y| := by
  have hden' : (0 : ℝ) < den := by exact_mod_cast hden
  rw [← mul_le_mul_iff_left₀ hden', ← cast_abs_sub_f32Val hden, ← cast_abs_sub_f32Val hden, Int.cast_le]

theorem abs_sub_f32Val_eq_iff (x y : F32) :
    |num - f32Val x * den| = |num - f32Val y * den| ↔ |(num : ℝ) / den - f32Val x| = |(num : ℝ) / den - f32Val y| := by
  simp only [le_antisymm_iff, abs_sub_f32Val_le_iff hden]

theorem natAbs_div_eq : (num.natAbs / den : ℝ) = |(num : ℝ) / den| := by
  have hden' : (0 : ℝ) < den := by exact_mod_cast hden
  rw [abs_div, abs_of_pos hden', Nat.cast_natAbs, Int.cast_abs]

/-- The threshold of `RoundedTo` is the one of the rounding. -/
theorem RoundsEven.overflow_iff {k q : Nat} (h : RoundsEven |(num : ℝ) / den| k q) :
    (2 ^ 25 - 1) * 2 ^ 253 * (den : ℤ) ≤ 2 * |num| ↔ infBits ≤ k * 2 ^ 23 + q := by
  have hden' : (0 : ℝ) < den := by exact_mod_cast hden
  rw [h.infBits_le_iff, abs_div, abs_of_pos hden', ← mul_div_assoc, le_div_iff₀ hden']
  exact_mod_cast Iff.rfl

theorem hasSignOf_div {neg : Bool} (hneg : num ≠ 0 → neg = decide (num < 0)) {bits : Nat} (hbits : bits < 2 ^ 31) :
    HasSignOf (packF32 neg bits) ((num : ℝ) / den) := by
  have hden' : (0 : ℝ) < den := by exact_mod_cast hden
  rw [HasSignOf, f32Neg_packF32 hbits, div_pos_iff_of_pos_right hden', div_lt_iff₀ hden', zero_mul, Int.cast_pos,
    Int.cast_lt_zero]
  exact ⟨fun h => (hneg h.ne').trans (decide_eq_false h.le.not_gt), fun h => (hneg h.ne).trans (decide_eq_true h)⟩

/-- The pattern `roundUnits` answers, with the sign of the value, is the value rounded. -/
theorem roundedTo_packF32 {neg : Bool} (hneg : num ≠ 0 → neg = decide (num < 0)) :
    RoundedTo num den (packF32 neg (roundUnits num.natAbs den)) := by
  have hlt := roundUnits_lt num.natAbs den
  have hsign := hasSignOf_div hden hneg hlt
  obtain ⟨k, q, h, hround⟩ := exists_roundUnits num.natAbs hden
  rw [natAbs_div_eq hden] at h
  have hbits : f32Bits (packF32 neg (roundUnits num.natAbs den)) = min (k * 2 ^ 23 + q) infBits := by
    rw [f32Bits_packF32 hlt, hround]
  unfold RoundedTo
  split
  next hbig =>
    rw [h.overflow_iff hden] at hbig
    rw [Nat.min_eq_right hbig] at hbits
    refine ⟨(isInf_iff _).2 hbits, (f32Neg_packF32 hlt).trans (hneg ?_)⟩
    rintro rfl
    rw [h.eq_of_exact (n := 0) (by simp)] at hbig
    exact absurd hbig (by decide)
  next hsmall =>
    rw [h.overflow_iff hden] at hsmall
    rw [Nat.min_eq_left (Nat.le_of_not_le hsmall)] at hbits
    obtain ⟨hnan, hinf⟩ := (finite_iff _).2 (hbits.trans_lt (Nat.lt_of_not_le hsmall))
    refine ⟨hnan, hinf, fun x _ _ => ⟨?_, fun heq hne => ?_⟩⟩
    · exact (abs_sub_f32Val_le_iff hden _ _).2 (h.f32_nearest hsign hbits x)
    · exact h.f32_even hsign hbits ((abs_sub_f32Val_eq_iff hden _ _).1 heq) hne

end

end Sys2Proof.Machine
end

section
/-!
PROOF. The scalar operations by the classes of their operands (R111 to R119): one equation for each class, and what `cabs`
answers from them (R123).
-/

namespace Sys2Proof.Machine

section
variable {site : Site} {a b : F32}

theorem isNaN_nanAt (site : Site) : isNaN (nanAt site) = true := isNaN_nanOfDraw _

/-- Where not both operands are numbers, one is a NaN. -/
theorem isNaN_or_iff : (isNaN a || isNaN b) = true ↔ isNaN a = true ∨ isNaN b = true := Bool.or_eq_true_iff

theorem isNaN_or_eq_false (ha : isNaN a = false) (hb : isNaN b = false) : (isNaN a || isNaN b) = false := by
  rw [ha, hb, Bool.or_false]

theorem isNaN_packF32_eq_false {neg : Bool} {bits : Nat} (h : bits ≤ infBits) : isNaN (packF32 neg bits) = false := by
  have hlt : bits < 2 ^ 31 := h.trans_lt (by decide)
  rw [isNaN_eq_false_iff, f32Bits_packF32 hlt]
  exact h

theorem isInf_packF32_infBits (neg : Bool) : isInf (packF32 neg infBits) = true := by
  rw [isInf_iff, f32Bits_packF32 (by decide)]

theorem f32Neg_packF32_infBits (neg : Bool) : f32Neg (packF32 neg infBits) = neg := f32Neg_packF32 (by decide)

theorem f32Neg_packF32_zero (neg : Bool) : f32Neg (packF32 neg 0) = neg := f32Neg_packF32 (by decide)

theorem f32Mag_packF32_zero (neg : Bool) : f32Mag (packF32 neg 0) = 0 := by rw [f32Mag_packF32 (by decide), magOf_zero]

@[simp] theorem roundUnits_zero {d : Nat} (hd : 0 < d) : roundUnits 0 d = 0 :=
  roundUnits_of_exact hd (Nat.zero_le _) (by simp)

theorem f32Neg_eq_decide (h : f32Val a ≠ 0) : f32Neg a = decide (f32Val a < 0) := by
  rw [Bool.eq_iff_iff, decide_eq_true_eq, f32Val_neg_iff h]

/-- The sign of a product of numbers other than zero. -/
theorem xor_decide_neg {x y : ℤ} (hx : x ≠ 0) (hy : y ≠ 0) :
    (decide (x < 0) ^^ decide (y < 0)) = decide (x * y < 0) := by
  rcases lt_or_gt_of_ne hx with hx | hx <;> rcases lt_or_gt_of_ne hy with hy | hy
  · simp [hx, hy, (mul_pos_of_neg_of_neg hx hy).le]
  · simp [hx, hy.le, mul_neg_of_neg_of_pos hx hy]
  · simp [hx.le, hy, mul_neg_of_pos_of_neg hx hy]
  · simp [hx.not_gt, hy.not_gt, (mul_pos hx hy).not_gt]

theorem xor_f32Neg (h : f32Val a * f32Val b ≠ 0) : (f32Neg a ^^ f32Neg b) = decide (f32Val a * f32Val b < 0) := by
  have ha := left_ne_zero_of_mul h
  have hb := right_ne_zero_of_mul h
  rw [f32Neg_eq_decide ha, f32Neg_eq_decide hb, xor_decide_neg ha hb]

/-! ## `fadd` and `fsub` (R112, R113) -/

theorem f32Add_of_nan (h : isNaN a = true ∨ isNaN b = true) : f32Add site a b = nanAt site :=
  if_pos (isNaN_or_iff.2 h)

theorem f32Add_of_opposite_infs (ha : isInf a = true) (hb : isInf b = true) (hne : f32Neg a ≠ f32Neg b) :
    f32Add site a b = nanAt site := by
  simp [f32Add, isNaN_of_isInf, ha, hb, hne]

theorem f32Add_of_inf_left (ha : isInf a = true) (hb : isNaN b = false) (h : isInf b = true → b = a) :
    f32Add site a b = a := by
  have hsame : ¬(isInf b && f32Neg a != f32Neg b) = true := by
    simp only [Bool.and_eq_true, bne_iff_ne, not_and_not_right]
    rintro hinf
    rw [h hinf]
  simp [f32Add, isNaN_of_isInf ha, hb, ha, hsame]

theorem f32Add_of_inf_right (ha : isNaN a = false) (hb : isInf b = true) (h : isInf a = true → a = b) :
    f32Add site a b = b := by
  cases hinf : isInf a with
  | true =>
    obtain rfl := h hinf
    exact f32Add_of_inf_left hb ha fun _ => rfl
  | false => simp [f32Add, isNaN_of_isInf hb, ha, hb, hinf]

section
variable (ha : isNaN a = false) (ha' : isInf a = false) (hb : isNaN b = false) (hb' : isInf b = false)
include ha ha' hb hb'

theorem f32Add_of_finite :
    f32Add site a b =
      if f32Val a + f32Val b = 0 then packF32 (f32Neg a && f32Neg b) 0
      else packF32 (decide (f32Val a + f32Val b < 0)) (roundUnits (f32Val a + f32Val b).natAbs 1) := by
  simp [f32Add, ha, ha', hb, hb']

theorem f32Add_of_zero_sum (hsum : f32Val a + f32Val b = 0) : f32Add site a b = packF32 (f32Neg a && f32Neg b) 0 := by
  rw [f32Add_of_finite ha ha' hb hb', if_pos hsum]

theorem roundedTo_f32Add : RoundedTo (f32Val a + f32Val b) 1 (f32Add site a b) := by
  rw [f32Add_of_finite ha ha' hb hb']
  split
  next hsum =>
    have hround := roundedTo_packF32 (num := f32Val a + f32Val b) (neg := f32Neg a && f32Neg b) Nat.one_pos
      fun hne => absurd hsum hne
    rwa [hsum, Int.natAbs_zero, roundUnits_zero Nat.one_pos, ← hsum] at hround
  next => exact roundedTo_packF32 Nat.one_pos fun _ => rfl

end

theorem eq_negZero_iff : a = 0x80000000#32 ↔ f32Neg a = true ∧ f32Mag a = 0 := by
  rw [f32Mag_eq_zero_iff]
  exact eq_packF32_iff (neg := true) (bits := 0) (by decide)

/-- A zero sum of two negative numbers is a sum of two negative zeros. -/
theorem zero_sum_neg_iff (hsum : f32Val a + f32Val b = 0) :
    (f32Neg a && f32Neg b) = true ↔ a = 0x80000000#32 ∧ b = 0x80000000#32 := by
  rw [Bool.and_eq_true, eq_negZero_iff, eq_negZero_iff]
  constructor
  · rintro ⟨ha, hb⟩
    simp only [f32Val, ha, hb, if_true] at hsum
    exact ⟨⟨ha, by omega⟩, hb, by omega⟩
  · rintro ⟨⟨ha, -⟩, hb, -⟩
    exact ⟨ha, hb⟩

/-! ## `fmul` (R114) -/

theorem f32Mul_of_nan (h : isNaN a = true ∨ isNaN b = true) : f32Mul site a b = nanAt site :=
  if_pos (isNaN_or_iff.2 h)

theorem f32Mul_of_inf (ha : isNaN a = false) (hb : isNaN b = false) (h : isInf a = true ∨ isInf b = true) :
    f32Mul site a b =
      if f32Mag a = 0 ∨ f32Mag b = 0 then nanAt site else packF32 (f32Neg a ^^ f32Neg b) infBits := by
  rw [f32Mul, if_neg (by rw [isNaN_or_eq_false ha hb]; decide), if_pos (Bool.or_eq_true_iff.2 h)]
  simp only [Bool.or_eq_true, decide_eq_true_eq]

theorem f32Mul_of_finite (ha : isNaN a = false) (ha' : isInf a = false) (hb : isNaN b = false) (hb' : isInf b = false) :
    f32Mul site a b = packF32 (f32Neg a ^^ f32Neg b) (roundUnits (f32Mag a * f32Mag b) (2 ^ 149)) := by
  simp [f32Mul, ha, ha', hb, hb']

/-! ## `fdiv` (R115) -/

theorem f32Div_of_nan (h : isNaN a = true ∨ isNaN b = true) : f32Div site a b = nanAt site :=
  if_pos (isNaN_or_iff.2 h)

theorem f32Div_of_infs (ha : isInf a = true) (hb : isInf b = true) : f32Div site a b = nanAt site := by
  simp [f32Div, isNaN_of_isInf, ha, hb]

theorem f32Div_of_zeros (ha : f32Mag a = 0) (hb : f32Mag b = 0) : f32Div site a b = nanAt site := by
  have ha' : isInf a = false := Bool.eq_false_iff.2 fun h => f32Mag_ne_zero_of_isInf h ha
  have hb' : isInf b = false := Bool.eq_false_iff.2 fun h => f32Mag_ne_zero_of_isInf h hb
  simp [f32Div, ha, hb, ha', hb']

section
variable (ha : isNaN a = false) (hb : isNaN b = false)
include ha hb

theorem f32Div_of_inf_left (ha' : isInf a = true) (hb' : isInf b = false) :
    f32Div site a b = packF32 (f32Neg a ^^ f32Neg b) infBits := by
  simp [f32Div, ha, ha', hb, hb']

theorem f32Div_of_inf_right (ha' : isInf a = false) (hb' : isInf b = true) :
    f32Div site a b = packF32 (f32Neg a ^^ f32Neg b) 0 := by
  simp [f32Div, ha, ha', hb, hb']

theorem f32Div_of_zero_right (ha' : isInf a = false) (ha0 : f32Mag a ≠ 0) (hb0 : f32Mag b = 0) :
    f32Div site a b = packF32 (f32Neg a ^^ f32Neg b) infBits := by
  have hb' : isInf b = false := Bool.eq_false_iff.2 fun h => f32Mag_ne_zero_of_isInf h hb0
  simp [f32Div, ha, ha', hb, hb', ha0, hb0]

theorem f32Div_of_finite (ha' : isInf a = false) (hb' : isInf b = false) (hb0 : f32Mag b ≠ 0) :
    f32Div site a b = packF32 (f32Neg a ^^ f32Neg b) (roundUnits (f32Mag a * 2 ^ 149) (f32Mag b)) := by
  simp [f32Div, ha, ha', hb, hb', hb0]

end

/-! ## `fsqrt` (R116) -/

theorem f32Sqrt_of_nan (h : isNaN a = true) : f32Sqrt site a = nanAt site := if_pos h

theorem f32Sqrt_of_zero (h : f32Mag a = 0) : f32Sqrt site a = a := by
  have hnan : isNaN a = false := by rw [isNaN_eq_false_iff, (f32Mag_eq_zero_iff a).1 h]; decide
  simp [f32Sqrt, hnan, h]

theorem f32Sqrt_of_neg (hneg : f32Neg a = true) (h0 : f32Mag a ≠ 0) : f32Sqrt site a = nanAt site := by
  simp [f32Sqrt, hneg, h0]

theorem f32Sqrt_of_inf (hinf : isInf a = true) (hneg : f32Neg a = false) : f32Sqrt site a = a := by
  simp [f32Sqrt, isNaN_of_isInf hinf, f32Mag_ne_zero_of_isInf hinf, hneg, hinf]

theorem f32Sqrt_of_finite (hnan : isNaN a = false) (hinf : isInf a = false) (hneg : f32Neg a = false)
    (h0 : f32Mag a ≠ 0) : f32Sqrt site a = packF32 false (sqrtUnits (f32Mag a)) := by
  simp [f32Sqrt, hnan, hinf, hneg, h0]

end

/-! ### The integer root -/

/-- Bit by bit from the top, the root of `x` above `r` and below `r + 2^b` is found. -/
theorem isqrtBits_spec (b x r : Nat) (hlow : r * r ≤ x) (hup : x < (r + 2 ^ b) * (r + 2 ^ b)) :
    isqrtBits b x r * isqrtBits b x r ≤ x ∧ x < (isqrtBits b x r + 1) * (isqrtBits b x r + 1) := by
  induction b generalizing r with
  | zero => exact ⟨hlow, hup⟩
  | succ b ih =>
    rw [isqrtBits]
    split
    next hbit => exact ih _ hbit (by rwa [Nat.pow_succ, Nat.mul_two, ← Nat.add_assoc] at hup)
    next hbit => exact ih _ hlow (Nat.lt_of_not_le hbit)

theorem sq_multiple (c k : Nat) : (c * 2 ^ k : ℝ) ^ 2 = (c * c * 4 ^ k : ℕ) := by
  push_cast
  rw [(by norm_num : (4 : ℝ) = 2 ^ 2), ← pow_mul]
  ring

theorem multiple_le_sqrt_iff (c k x : Nat) : (c * 2 ^ k : ℝ) ≤ √x ↔ c * c * 4 ^ k ≤ x := by
  rw [Real.le_sqrt (by positivity) (Nat.cast_nonneg x), sq_multiple, Nat.cast_le]

theorem sqrt_le_multiple_iff (c k x : Nat) : √x ≤ (c * 2 ^ k : ℝ) ↔ x ≤ c * c * 4 ^ k := by
  rw [Real.sqrt_le_left (by positivity), sq_multiple, Nat.cast_le]

/-- `q` and `q + 1` quanta enclose the root, and the midpoint says which is nearer. -/
theorem rounds_sqrt_of_mid {x k q : Nat} (hlow : k = 0 ∨ 2 ^ (2 * (k + 23)) ≤ x) (hup : x < 2 ^ (2 * (k + 24)))
    (hq : q * q * 4 ^ k ≤ x) (hq' : x < (q + 1) * (q + 1) * 4 ^ k) :
    Rounds (√x) k
      (if 4 * x > (2 * q + 1) * (2 * q + 1) * 4 ^ k ∨ (4 * x = (2 * q + 1) * (2 * q + 1) * 4 ^ k ∧ q % 2 = 1) then q + 1
        else q) := by
  have htwice : √((4 * x : ℕ) : ℝ) = 2 * √x := by
    rw [Nat.cast_mul, Nat.cast_ofNat, Real.sqrt_mul (by norm_num), (by norm_num : (4 : ℝ) = 2 ^ 2),
      Real.sqrt_sq (by norm_num)]
  have hroot := (multiple_le_sqrt_iff q k x).2 hq
  have hroot' := lt_of_not_ge (mt (multiple_le_sqrt_iff (q + 1) k x).1 hq'.not_ge)
  have hmid := multiple_le_sqrt_iff (2 * q + 1) k (4 * x)
  have hmid' := sqrt_le_multiple_iff (2 * q + 1) k (4 * x)
  rw [htwice] at hmid hmid'
  push_cast at hroot' hmid hmid'
  refine { lower := hlow.imp_right fun h => ?_, upper := ?_, near := ?_ }
  · refine Real.le_sqrt_of_sq_le ?_
    rw [← pow_mul, mul_comm]
    exact_mod_cast h
  · rw [Real.sqrt_lt' (by positivity), ← pow_mul, mul_comm]
    exact_mod_cast hup
  · split
    next h =>
      have := hmid.2 (by omega)
      rw [abs_of_nonpos (by push_cast; linarith)]
      push_cast
      linarith
    next h =>
      have := hmid'.2 (by omega)
      rw [abs_of_nonneg (by linarith)]
      linarith

/-- The quanta of `sqrtUnits` are those of the root. -/
theorem rounds_isqrtBits {x : Nat} (hx : x ≠ 0) :
    let k := x.log2 / 2 - 23
    let q := isqrtBits 24 (x / 4 ^ k) 0
    Rounds (√x) k
      (if 4 * x > (2 * q + 1) * (2 * q + 1) * 4 ^ k ∨ (4 * x = (2 * q + 1) * (2 * q + 1) * 4 ^ k ∧ q % 2 = 1) then q + 1
        else q) := by
  intro k q
  have hlow : k = 0 ∨ 2 ^ (2 * (k + 23)) ≤ x := by
    rcases Nat.eq_zero_or_pos k with h0 | hpos
    · exact .inl h0
    · exact .inr ((Nat.pow_le_pow_right (by decide) (by omega)).trans (Nat.log2_self_le hx))
  have hup : x < 2 ^ (2 * (k + 24)) := Nat.lt_log2_self.trans_le (Nat.pow_le_pow_right (by decide) (by omega))
  have h48 : x / 4 ^ k < (0 + 2 ^ 24) * (0 + 2 ^ 24) := by
    rw [Nat.div_lt_iff_lt_mul (by positivity)]
    refine hup.trans_eq ?_
    rw [pow_mul, pow_add, mul_comm]
    norm_num
  obtain ⟨hq, hq'⟩ := isqrtBits_spec 24 (x / 4 ^ k) 0 (Nat.zero_le _) h48
  exact rounds_sqrt_of_mid hlow hup ((Nat.le_div_iff_mul_le (by positivity)).1 hq)
    ((Nat.div_lt_iff_lt_mul (by positivity)).1 hq')

/-- What `sqrtUnits` answers, said once: the pattern nearest to the root, far below infinity. -/
theorem exists_sqrtUnits {m : Nat} (hm : 0 < m) (hlt : m < 2 ^ 24 * 2 ^ 254) :
    ∃ k q, Rounds (√((m : ℝ) * 2 ^ 149)) k q ∧ sqrtUnits m = k * 2 ^ 23 + q ∧ k * 2 ^ 23 + q < infBits := by
  have hcast : (m : ℝ) * 2 ^ 149 = (m * 2 ^ 149 : ℕ) := by rw [Nat.cast_mul, Nat.cast_pow, Nat.cast_ofNat]
  have hrounds := rounds_isqrtBits (x := m * 2 ^ 149) (by positivity)
  have hcarry := hrounds.le_carry
  have hlog := log2_radicand_lt hlt
  rw [hcast]
  refine ⟨_, _, hrounds, rfl, ?_⟩
  unfold infBits
  omega

/-! ## `itof` (R119) -/

/-- Every natural up to `2^24` is the magnitude of a pattern: its own bits, shifted up to 24. -/
theorem exists_magOf_eq_nat {n : Nat} (hn : n ≤ 2 ^ 24) : ∃ bits < infBits, magOf bits = n * 2 ^ 149 := by
  rcases Nat.lt_or_eq_of_le hn with hlt | rfl
  · rcases Nat.eq_zero_or_pos n with rfl | hpos
    · exact ⟨0, by decide, by simp⟩
    · have hlog : n.log2 < 24 := (Nat.log2_lt hpos.ne').2 hlt
      have hlow := Nat.log2_self_le hpos.ne'
      have hup := Nat.lt_log2_self (n := n)
      have hq : 2 ^ 23 ≤ n * 2 ^ (23 - n.log2) := by
        calc 2 ^ 23 = 2 ^ n.log2 * 2 ^ (23 - n.log2) := by rw [← pow_add]; congr 1; omega
          _ ≤ n * 2 ^ (23 - n.log2) := Nat.mul_le_mul_right _ hlow
      have hq' : n * 2 ^ (23 - n.log2) < 2 ^ 24 := by
        calc n * 2 ^ (23 - n.log2) < 2 ^ (n.log2 + 1) * 2 ^ (23 - n.log2) :=
              Nat.mul_lt_mul_of_pos_right hup (by positivity)
          _ = 2 ^ 24 := by rw [← pow_add]; congr 1; omega
      refine ⟨(126 + n.log2) * 2 ^ 23 + n * 2 ^ (23 - n.log2), by unfold infBits; omega, ?_⟩
      rw [magOf_quanta hq'.le (.inr hq), mul_assoc, ← pow_add]
      congr 2
      omega
  · exact ⟨151 * 2 ^ 23, by decide, by decide +kernel⟩

theorem f32OfNat_exact {n : Nat} (hn : n ≤ 2 ^ 24) :
    isNaN (f32OfNat n) = false ∧ isInf (f32OfNat n) = false ∧ f32Neg (f32OfNat n) = false ∧
      f32Val (f32OfNat n) = n * 2 ^ 149 := by
  obtain ⟨bits, hbits, hmag⟩ := exists_magOf_eq_nat hn
  have hlt : bits < 2 ^ 31 := hbits.trans (by decide)
  have hpack : f32OfNat n = packF32 false bits := by
    rw [f32OfNat, roundUnits_of_exact Nat.one_pos hbits.le (by rw [hmag, Nat.mul_one])]
  obtain ⟨hnan, hinf⟩ := (finite_iff (packF32 false bits)).2 (by rwa [f32Bits_packF32 hlt])
  rw [hpack, f32Val, f32Neg_packF32 hlt, f32Mag_packF32 hlt, hmag]
  exact ⟨hnan, hinf, rfl, by simp⟩

/-! ## `fge` (R117) -/

theorem f32Ge_iff {a b : F32} (ha : isNaN a = false) (hb : isNaN b = false) :
    f32Ge a b = true ↔ f32Val b ≤ f32Val a := by
  simp [f32Ge, ha, hb]

/-- The magnitude of a number is at most that of the infinities. -/
theorem f32Mag_le_of_not_nan {a : F32} (ha : isNaN a = false) : f32Mag a ≤ magOf infBits := by
  rw [f32Mag_eq]
  exact magOf_strictMono.monotone ((isNaN_eq_false_iff a).1 ha)

theorem f32Val_packF32_infBits (neg : Bool) :
    f32Val (packF32 neg infBits) = if neg then -(magOf infBits : ℤ) else magOf infBits := by
  rw [f32Val, f32Neg_packF32_infBits, f32Mag_packF32 (by decide)]

/-- A number whose magnitude is that of the infinities is the infinity of its sign. -/
theorem eq_packF32_infBits_iff {a : F32} {neg : Bool} :
    a = packF32 neg infBits ↔ f32Neg a = neg ∧ f32Mag a = magOf infBits := by
  rw [f32Mag_eq, magOf_strictMono.injective.eq_iff]
  exact eq_packF32_iff (by decide)

section
variable {a : F32} (ha : isNaN a = false)
include ha

theorem f32Val_le_posInf : f32Val a ≤ f32Val (packF32 false infBits) := by
  have hle := f32Mag_le_of_not_nan ha
  rw [f32Val_packF32_infBits, f32Val]
  cases f32Neg a
  · simp; omega
  · simp

theorem negInf_le_f32Val : f32Val (packF32 true infBits) ≤ f32Val a := by
  have hle := f32Mag_le_of_not_nan ha
  rw [f32Val_packF32_infBits, f32Val]
  cases f32Neg a
  · simp
  · simp; omega

theorem posInf_le_f32Val_iff : f32Val (packF32 false infBits) ≤ f32Val a ↔ a = packF32 false infBits := by
  have hle := f32Mag_le_of_not_nan ha
  have hpos : 0 < magOf infBits := Nat.pos_of_ne_zero (mt (magOf_eq_zero_iff _).1 (by decide))
  rw [f32Val_packF32_infBits, eq_packF32_infBits_iff, f32Val]
  cases f32Neg a <;> simp <;> omega

theorem f32Val_le_negInf_iff : f32Val a ≤ f32Val (packF32 true infBits) ↔ a = packF32 true infBits := by
  have hle := f32Mag_le_of_not_nan ha
  have hpos : 0 < magOf infBits := Nat.pos_of_ne_zero (mt (magOf_eq_zero_iff _).1 (by decide))
  rw [f32Val_packF32_infBits, eq_packF32_infBits_iff, f32Val]
  cases f32Neg a <;> simp <;> omega

end

/-! ## `cabs` (R123) -/

section
variable {site : Site} {a b : F32}

theorem isNaN_f32Add_eq_false (ha : isNaN a = false) (hb : isNaN b = false) (hna : f32Neg a = false)
    (hnb : f32Neg b = false) : isNaN (f32Add site a b) = false := by
  have heq : isInf a = true → isInf b = true → b = a := fun ha' hb' =>
    f32_ext (hnb.trans hna.symm) (((isInf_iff b).1 hb').trans ((isInf_iff a).1 ha').symm)
  cases ha' : isInf a with
  | true => rwa [f32Add_of_inf_left ha' hb (heq ha')]
  | false =>
    cases hb' : isInf b with
    | true => rwa [f32Add_of_inf_right ha hb' fun h => absurd h (by rw [ha']; decide)]
    | false =>
      rw [f32Add_of_finite ha ha' hb hb']
      split
      · exact isNaN_packF32_eq_false (Nat.zero_le _)
      · exact isNaN_packF32_eq_false (roundUnits_le _ _)

theorem isNaN_f32Sqrt_eq_false (ha : isNaN a = false) (hneg : f32Neg a = false) : isNaN (f32Sqrt site a) = false := by
  rcases Nat.eq_zero_or_pos (f32Mag a) with h0 | hpos
  · rwa [f32Sqrt_of_zero h0]
  · cases ha' : isInf a with
    | true => rwa [f32Sqrt_of_inf ha' hneg]
    | false =>
      obtain ⟨k, q, -, hbits, hlt⟩ := exists_sqrtUnits hpos (f32Mag_lt a)
      rw [f32Sqrt_of_finite ha ha' hneg hpos.ne', hbits]
      exact isNaN_packF32_eq_false hlt.le

theorem f32Mul_self_of_inf (h : isInf a = true) : f32Mul site a a = packF32 false infBits := by
  have hnan := isNaN_of_isInf h
  rw [f32Mul_of_inf hnan hnan (.inl h), if_neg (by rw [or_self]; exact f32Mag_ne_zero_of_isInf h), Bool.xor_self]

theorem isNaN_f32Mul_self_eq_false (ha : isNaN a = false) : isNaN (f32Mul site a a) = false := by
  cases ha' : isInf a with
  | true => rw [f32Mul_self_of_inf ha']; exact isNaN_packF32_eq_false le_rfl
  | false => rw [f32Mul_of_finite ha ha' ha ha']; exact isNaN_packF32_eq_false (roundUnits_le _ _)

/-- A square that is a number is not negative. -/
theorem f32Neg_f32Mul_self (ha : isNaN a = false) : f32Neg (f32Mul site a a) = false :=
  (notNegative_f32Mul_self site a).resolve_left (Bool.eq_false_iff.1 (isNaN_f32Mul_self_eq_false ha))

theorem eq_posInf_of_isInf (hinf : isInf a = true) (hneg : f32Neg a = false) : a = packF32 false infBits :=
  (eq_packF32_iff (by decide)).2 ⟨hneg, (isInf_iff a).1 hinf⟩

/-- A sum of squares is `+inf` when one of them is. -/
theorem f32Add_squares_of_inf {site₀ site₁ : Site} (ha : isNaN a = false) (hb : isNaN b = false)
    (h : isInf a = true ∨ isInf b = true) :
    f32Add site (f32Mul site₀ a a) (f32Mul site₁ b b) = packF32 false infBits := by
  have hsq : ∀ {c : F32} (s : Site), isNaN c = false → isInf (f32Mul s c c) = true →
      f32Mul s c c = packF32 false infBits := fun s hc hinf => eq_posInf_of_isInf hinf (f32Neg_f32Mul_self hc)
  rcases h with h | h
  · rw [f32Mul_self_of_inf h]
    exact f32Add_of_inf_left (isInf_packF32_infBits _) (isNaN_f32Mul_self_eq_false hb) (hsq _ hb)
  · rw [f32Mul_self_of_inf h]
    exact f32Add_of_inf_right (isNaN_f32Mul_self_eq_false ha) (isInf_packF32_infBits _) (hsq _ ha)

end

section
variable (site : Site) (v : Sample F32)

theorem cabs_binary32 :
    cabs binary32 site v = f32Sqrt (site.nth 3)
      (f32Add (site.nth 2) (f32Mul (site.nth 0) v.re v.re) (f32Mul (site.nth 1) v.im v.im)) := rfl

/-- A NaN component goes through every operation; without one, no operation of `cabs` is invalid. -/
theorem isNaN_cabs_iff : isNaN (cabs binary32 site v) = true ↔ isNaN v.re = true ∨ isNaN v.im = true := by
  rw [cabs_binary32]
  constructor
  · contrapose!
    simp only [ne_eq, Bool.not_eq_true]
    rintro ⟨hre, him⟩
    have hneg := (notNegative_f32Add (site.nth 2) (notNegative_f32Mul_self (site.nth 0) v.re)
      (notNegative_f32Mul_self (site.nth 1) v.im))
    have hsum := isNaN_f32Add_eq_false (site := site.nth 2) (isNaN_f32Mul_self_eq_false (site := site.nth 0) hre)
      (isNaN_f32Mul_self_eq_false (site := site.nth 1) him) (f32Neg_f32Mul_self hre) (f32Neg_f32Mul_self him)
    exact isNaN_f32Sqrt_eq_false hsum (hneg.resolve_left (Bool.eq_false_iff.1 hsum))
  · intro h
    have hsum : isNaN (f32Mul (site.nth 0) v.re v.re) = true ∨ isNaN (f32Mul (site.nth 1) v.im v.im) = true :=
      h.imp (fun h => by rw [f32Mul_of_nan (.inl h), isNaN_nanAt]) fun h => by rw [f32Mul_of_nan (.inl h), isNaN_nanAt]
    rw [f32Add_of_nan hsum, f32Sqrt_of_nan (isNaN_nanAt _), isNaN_nanAt]

theorem cabs_ideal (v : Sample ℝ) : cabs ideal site v = ‖toComplex v‖ := by
  rw [Complex.norm_def, Complex.normSq_apply]
  rfl

end

end Sys2Proof.Machine
end

section
/-!
PROOF. The statements about `fadd`, `fsub`, `fmul`, `fdiv`, `fsqrt`, `fge`, `itof`, `u16tof`, `cabs` and the invalid
operations, each assembled from the rules above.
-/

namespace Sys2Proof.Machine

/-- Settles O48: the sum by cases on the classes of the operands, the sign of a zero sum by what two negative numbers that
add up to zero are. -/
theorem faddIsTheRoundedSum : Obligations.FaddIsTheRoundedSum := by
  intro site a b
  refine ⟨fun ha ha' hb hb' => ⟨roundedTo_f32Add ha ha' hb hb', fun hsum => ?_⟩, fun ha hb hsame => ?_⟩
  · rw [f32Add_of_zero_sum ha ha' hb hb' hsum]
    have hneg := zero_sum_neg_iff hsum
    split
    next h => rw [hneg.2 h]; rfl
    next h => rw [Bool.eq_false_iff.2 (mt hneg.1 h)]; rfl
  · exact ⟨f32Add_of_inf_left ha hb hsame, f32Add_of_inf_right hb ha hsame⟩

/-- Settles O49: by the statement about `fadd`, at the negated operand. -/
theorem fsubIsTheRoundedDifference : Obligations.FsubIsTheRoundedDifference := by
  intro site a b
  refine ⟨rfl, fun ha ha' => ?_, fun ha ha' hb hb' => ?_⟩
  · have hb : isNaN (f32Negate a) = false := by rwa [isNaN_f32Negate]
    have hb' : isInf (f32Negate a) = false := by rwa [isInf_f32Negate]
    rw [f32Sub, f32Add_of_zero_sum ha ha' hb hb' (by simp), f32Neg_f32Negate, Bool.and_not_self]
    rfl
  · rw [sub_eq_add_neg, ← f32Val_f32Negate]
    exact roundedTo_f32Add ha ha' (by rwa [isNaN_f32Negate]) (by rwa [isInf_f32Negate])

/-- Settles O50: a product of finite numbers is packed with the exclusive or of the signs, and so is the infinity. -/
theorem fmulIsTheRoundedProduct : Obligations.FmulIsTheRoundedProduct := by
  intro site a b
  refine ⟨fun ha ha' hb hb' => ?_, fun ha hb hb0 => ?_, ?_⟩
  · rw [f32Mul_of_finite ha ha' hb hb', f32Neg_packF32 (roundUnits_lt _ _), ← natAbs_f32Val, ← natAbs_f32Val,
      ← Int.natAbs_mul]
    exact ⟨roundedTo_packF32 (by positivity) xor_f32Neg, rfl⟩
  · have ha0 := f32Mag_ne_zero_of_isInf ha
    rw [Ne, f32Val_eq_zero_iff] at hb0
    have hna := isNaN_of_isInf ha
    rw [f32Mul_of_inf hna hb (.inl ha), f32Mul_of_inf hb hna (.inr ha), if_neg (not_or.2 ⟨ha0, hb0⟩),
      if_neg (not_or.2 ⟨hb0, ha0⟩), Bool.xor_comm (f32Neg b)]
    exact ⟨⟨isInf_packF32_infBits _, f32Neg_packF32_infBits _⟩, isInf_packF32_infBits _, f32Neg_packF32_infBits _⟩
  · rw [f32Mul_of_finite (by decide) (by decide) (by decide) (by decide)]
    decide +kernel

/-- Settles O51: a case for each class of operands; the sign is packed in every one of them. -/
theorem fdivIsTheRoundedQuotient : Obligations.FdivIsTheRoundedQuotient := by
  intro site a b ha hb
  simp only [ne_eq, f32Val_eq_zero_iff]
  refine ⟨fun ha' hb' hb0 => ?_, fun ha' ha0 hb0 => ?_, fun ha' hb' => ?_, fun ha' hb' => ?_, fun hinf hzero => ?_⟩
  · have hnum : ((if f32Neg b then -1 else 1) * f32Val a * 2 ^ 149).natAbs = f32Mag a * 2 ^ 149 := by
      rw [Int.natAbs_mul, Int.natAbs_mul, natAbs_f32Val]
      split <;> simp
    rw [f32Div_of_finite ha hb ha' hb' hb0, ← hnum]
    refine roundedTo_packF32 (Nat.pos_of_ne_zero hb0) fun hne => ?_
    have hsign : (if f32Neg b then -1 else 1 : ℤ) ≠ 0 := by split <;> decide
    have hnegb : f32Neg b = decide ((if f32Neg b then -1 else 1 : ℤ) < 0) := by cases f32Neg b <;> rfl
    have ha0 := right_ne_zero_of_mul (left_ne_zero_of_mul hne)
    calc (f32Neg a ^^ f32Neg b) = (decide ((if f32Neg b then -1 else 1 : ℤ) < 0) ^^ decide (f32Val a < 0)) := by
          rw [Bool.xor_comm, ← hnegb, f32Neg_eq_decide ha0]
      _ = decide ((if f32Neg b then -1 else 1) * f32Val a < 0) := xor_decide_neg hsign ha0
      _ = decide ((if f32Neg b then -1 else 1) * f32Val a * 2 ^ 149 < 0) :=
          decide_eq_decide.2 (by omega)
  · rw [f32Div_of_zero_right ha hb ha' ha0 hb0]; exact isInf_packF32_infBits _
  · rw [f32Div_of_inf_left ha hb ha' hb']; exact isInf_packF32_infBits _
  · rw [f32Div_of_inf_right ha hb ha' hb']
    exact ⟨isNaN_packF32_eq_false (Nat.zero_le _), f32Mag_packF32_zero _⟩
  · cases ha' : isInf a with
    | true =>
      have hb' : isInf b = false := Bool.eq_false_iff.2 fun h => hinf ⟨ha', h⟩
      rw [f32Div_of_inf_left ha hb ha' hb', f32Neg_packF32_infBits]
    | false =>
      cases hb' : isInf b with
      | true => rw [f32Div_of_inf_right ha hb ha' hb', f32Neg_packF32_zero]
      | false =>
        by_cases hb0 : f32Mag b = 0
        · rw [f32Div_of_zero_right ha hb ha' (fun ha0 => hzero ⟨ha0, hb0⟩) hb0, f32Neg_packF32_infBits]
        · rw [f32Div_of_finite ha hb ha' hb' hb0, f32Neg_packF32 (roundUnits_lt _ _)]

/-- Settles O52: the pattern of the root is nearest among all patterns; the special values by their own equations. -/
theorem fsqrtIsTheRoundedRoot : Obligations.FsqrtIsTheRoundedRoot := by
  intro site a
  refine ⟨fun hnan hinf hneg => ?_, f32Sqrt_of_zero (by decide), f32Sqrt_of_inf (by decide) (by decide), ?_⟩
  · rcases Nat.eq_zero_or_pos (f32Mag a) with h0 | hpos
    · rw [f32Sqrt_of_zero h0]
      have hval : f32Val a = 0 := (f32Val_eq_zero_iff a).2 h0
      exact ⟨hnan, hinf, hneg, fun x _ _ => by simp [h0, hval]⟩
    · obtain ⟨k, q, hrounds, hbits, hlt⟩ := exists_sqrtUnits hpos (f32Mag_lt a)
      have hlt' : k * 2 ^ 23 + q < 2 ^ 31 := hlt.trans (by decide)
      rw [f32Sqrt_of_finite hnan hinf hneg hpos.ne', hbits]
      obtain ⟨hnan', hinf'⟩ := (finite_iff (packF32 false (k * 2 ^ 23 + q))).2 (by rwa [f32Bits_packF32 hlt'])
      refine ⟨hnan', hinf', f32Neg_packF32 hlt', fun x _ _ => ?_⟩
      have hroot := Real.sqrt_nonneg ((f32Mag a : ℝ) * 2 ^ 149)
      rw [← abs_of_nonneg hroot] at hrounds
      exact hrounds.f32_nearest ⟨fun _ => f32Neg_packF32 hlt', fun h => absurd hroot h.not_ge⟩ (f32Bits_packF32 hlt') x
  · rintro (hnan | ⟨hneg, h0⟩)
    · rw [f32Sqrt_of_nan hnan]; exact isNaN_nanAt _
    · rw [f32Sqrt_of_neg hneg h0]; exact isNaN_nanAt _

/-- Settles O55: a natural up to `2^24` is a pattern's magnitude, and such a magnitude is rounded to itself. -/
theorem indicesConvertExactly : Obligations.IndicesConvertExactly :=
  ⟨fun _ hn => f32OfNat_exact hn, by decide +kernel⟩

/-- Settles O53: by the comparison of the values, and how the infinities stand to every number. -/
theorem fgeIsTheQuietComparison : Obligations.FgeIsTheQuietComparison := by
  intro a b
  refine ⟨?_, f32Ge_iff, by decide +kernel, by decide +kernel, fun ha => ?_⟩
  · rintro (h | h) <;> simp [f32Ge, h]
  · have hpos : isNaN (packF32 false infBits) = false := isNaN_packF32_eq_false le_rfl
    have hneg : isNaN (packF32 true infBits) = false := isNaN_packF32_eq_false le_rfl
    exact ⟨(f32Ge_iff hpos ha).2 (f32Val_le_posInf ha), (f32Ge_iff ha hneg).2 (negInf_le_f32Val ha),
      (f32Ge_iff ha hpos).trans (posInf_le_f32Val_iff ha), (f32Ge_iff hneg ha).trans (f32Val_le_negInf_iff ha)⟩

/-- Settles O54: a sample is below `2^16`, so its conversion is exact as that of an index. -/
theorem samplesConvertExactly : Obligations.SamplesConvertExactly := by
  refine ⟨fun n => f32OfNat_exact (n.isLt.le.trans (by decide)), ?_⟩
  decide +kernel

/-- Settles O57: NaN by the classes of the four operations; the sign by what squares, their sum and a root keep. -/
theorem magnitudesAreNeverNegative : Obligations.MagnitudesAreNeverNegative := by
  refine ⟨fun site v => ⟨rfl, isNaN_cabs_iff site v, fun hnan => ?_, fun hre him hinf => ?_⟩, cabs_ideal⟩
  · exact (notNegative_cabs site v).resolve_left (Bool.eq_false_iff.1 hnan)
  · rw [cabs_binary32, f32Add_squares_of_inf hre him hinf]
    exact f32Sqrt_of_inf (isInf_packF32_infBits _) (f32Neg_packF32_infBits _)

/-- Settles O56: each invalid operation answers the NaN of its site. -/
theorem invalidOperationsGiveNan : Obligations.InvalidOperationsGiveNan := by
  intro site a b
  refine ⟨fun h => ?_, fun h => ?_, fun hneg h0 => ?_, fun ha hb => ⟨fun hsame => ?_, fun hopp => ?_, ?_⟩,
    fun ha hb => ?_, fun ha hb => ?_⟩
  · have hsub : isNaN a = true ∨ isNaN (f32Negate b) = true := by rwa [isNaN_f32Negate]
    rw [f32Sub, f32Add_of_nan h, f32Add_of_nan hsub, f32Mul_of_nan h, f32Div_of_nan h, isNaN_nanAt]
    exact ⟨rfl, rfl, rfl, rfl⟩
  · rw [f32Sqrt_of_nan h, isNaN_nanAt]
  · rw [f32Sqrt_of_neg hneg h0, isNaN_nanAt]
  · rw [f32Sub, f32Add_of_opposite_infs ha (by rwa [isInf_f32Negate]) (by simp [hsame]), isNaN_nanAt]
  · rw [f32Add_of_opposite_infs ha hb hopp, isNaN_nanAt]
  · rw [f32Div_of_infs ha hb, isNaN_nanAt]
  · have hna := isNaN_of_isInf ha
    have hnb : isNaN b = false := by rw [isNaN_eq_false_iff, (f32Mag_eq_zero_iff b).1 hb]; decide
    rw [f32Mul_of_inf hna hnb (.inl ha), f32Mul_of_inf hnb hna (.inr ha), if_pos (.inr hb), if_pos (.inl hb), isNaN_nanAt]
    exact ⟨rfl, rfl⟩
  · rw [f32Div_of_zeros ha hb, isNaN_nanAt]

end Sys2Proof.Machine
end

section
/-!
PROOF. The butterfly on one block: what a twiddle combine that meets full source elements leaves, and the statement about
`TCOMB` (R120, R121, R145, R147, R148).
-/

namespace Sys2Proof.Machine

section
variable {F : Type} {f : Nat → Sample F → Sample F → Sample F × Sample F} {src dst : Memory F} {base half i : Nat}
  {x y : Sample F}

/-! ## The image of a block at its own elements -/

theorem blockImage_lower (hi : i < half) (hx : Memory.read src (base + 2 * i) = some x)
    (hy : Memory.read src (base + 2 * i + 1) = some y) :
    blockImage f src base half half dst (base + i) = some (f i x y).1 := by
  have hlane : base + i - base = i := Nat.add_sub_cancel_left _ _
  rw [blockImage, if_pos ⟨Nat.le_add_right _ _, by omega⟩, hlane, hx, hy]

theorem blockImage_upper (hi : i < half) (hx : Memory.read src (base + 2 * i) = some x)
    (hy : Memory.read src (base + 2 * i + 1) = some y) :
    blockImage f src base half half dst (base + half + i) = some (f i x y).2 := by
  have hlane : base + half + i - base - half = i := by omega
  rw [blockImage, if_neg (by omega), if_pos ⟨Nat.le_add_right _ _, by omega⟩, hlane, hx, hy]

theorem blockImage_of_outside {p : Nat} (hp : p < base ∨ base + 2 * half ≤ p) :
    blockImage f src base half half dst p = Memory.read dst p := by
  rw [blockImage, if_neg (by omega), if_neg (by omega)]

end

theorem exec_tcomb_of_ok {s : State} {bp : BitVec 5} {blk : BitVec 23} {d : Memory F32} (hbp : bp.toNat < s.bw.val)
    (hblk : blk.toNat < 2 ^ bp.toNat)
    (hd : combineBlock binary32 .twiddle s.bw s.cmdPos bp.toNat (sourceOf s.par) (s.bufs.get (sourceOf s.par)) blk.toNat
      (s.bufs.get (destOf s.par)) = .ok d) :
    exec (.tcomb bp blk) s = .next ({ s with bufs := s.bufs.set (destOf s.par) d }.retire 1) :=
  ranged_eq_of_wf (combine_inRange_iff.2 ⟨hbp, hblk⟩) (by rw [runCombine, hd, outcomeOf_ok])

/-- Settles O31: the block is full, so the combine completes, and its image at an element of either half is an output of
the butterfly. -/
theorem tcombIsTheButterfly : Obligations.TcombIsTheButterfly := by
  intro s bp blk a b hbp hblk m base w site p hsrc
  have hhalf : m = 2 * (m / 2) := blockSize_half s.bw hbp
  have hfull : ∀ j, base ≤ j → j < base + 2 * (m / 2) →
      (Memory.read (s.bufs.get (sourceOf s.par)) j).isSome = true := fun j hlo hhi => by
    obtain ⟨ha, hb⟩ := hsrc ((j - base) / 2) (by omega)
    obtain hj | hj : j = base + 2 * ((j - base) / 2) ∨ j = base + 2 * ((j - base) / 2) + 1 := by omega
    · rw [hj, ha]; rfl
    · rw [hj, hb]; rfl
  obtain ⟨d, hd⟩ := combineBlock_ok binary32 .twiddle s.bw s.cmdPos bp.toNat (sourceOf s.par)
    (s.bufs.get (sourceOf s.par)) blk.toNat (s.bufs.get (destOf s.par)) hfull
  have hread := combineBlock_read binary32 .twiddle s.bw s.cmdPos bp.toNat _ _ blk.toNat _ d hd
  have hw : binary32.tw s.bw (twiddleIndex s.bw bp.toNat blk.toNat) = w := by
    rw [twiddleIndex, Nat.shiftLeft_eq]; rfl
  refine ⟨_, exec_tcomb_of_ok hbp hblk hd, ⟨rfl, rfl, rfl⟩, fun i hi => ?_, fun q hq => ?_, fun q => ?_, rfl, rfl,
    ⟨rfl, rfl⟩, ⟨rfl, rfl, rfl⟩⟩
  · obtain ⟨ha, hb⟩ := hsrc i hi
    simp only [State.retire_bufs, Bufs.get_set_same]
    rw [hread, hread]
    constructor
    · refine (blockImage_lower hi ha hb).trans ?_
      simp only [butterfly, hw]
      rfl
    · refine (blockImage_upper hi ha hb).trans ?_
      simp only [butterfly, hw]
      rfl
  · simp only [State.retire_bufs, Bufs.get_set_same]
    rw [hread]
    refine blockImage_of_outside ?_
    show q < base ∨ base + 2 * (m / 2) ≤ q
    rwa [← hhalf]
  · simp only [State.retire_bufs, Bufs.get_source_set_dest]

end Sys2Proof.Machine
end

section
/-!
PROOF. A decimation by blocks, over any numerics: before stage `s` the source is `2^s` blocks, and the stage makes each into
two (R145, R163, R164); with the laws of bit reversal (R142) the straight decimation is the bit-reversal permutation (R165).
-/

namespace Sys2Proof.Machine

/-! ## Bit reversal from the low end (R140, R142) -/

/-- The lowest bit becomes the highest one. -/
theorem rev_succ_low (v nb : Nat) : rev v (nb + 1) = rev (v / 2) nb + v % 2 * 2 ^ nb := by
  induction nb with
  | zero => simp [rev]
  | succ nb ih =>
    rw [rev, ih, rev, Nat.div_div_eq_div_mul, ← Nat.pow_succ', Nat.pow_succ 2 nb]
    ring

theorem rev_lt (v nb : Nat) : rev v nb < 2 ^ nb := by
  induction nb with
  | zero => exact Nat.one_pos
  | succ nb ih =>
    have hbit : v / 2 ^ nb % 2 < 2 := Nat.mod_lt _ (by decide)
    rw [rev, Nat.pow_succ]
    omega

/-- Reversing twice gives the low bits back. -/
theorem rev_rev (v nb : Nat) : rev (rev v nb) nb = v % 2 ^ nb := by
  induction nb with
  | zero => simp [rev, Nat.mod_one]
  | succ nb ih =>
    have hbit : v / 2 ^ nb % 2 < 2 := Nat.mod_lt _ (by decide)
    have hhalf : (2 * rev v nb + v / 2 ^ nb % 2) / 2 = rev v nb := by omega
    have hlow : (2 * rev v nb + v / 2 ^ nb % 2) % 2 = v / 2 ^ nb % 2 := by omega
    rw [rev_succ_low, rev, hhalf, hlow, ih, Nat.mod_pow_succ, Nat.mul_comm (2 ^ nb)]

/-! ## A Buffer as blocks -/

section
variable {F : Type}

/-- The Buffer of `2^n` elements is `2^s` blocks, and element `i` of block `blk` holds `g blk i`. -/
def HoldsBlocks (m : Memory F) (n s : Nat) (g : Nat → Nat → Sample F) : Prop :=
  ∀ blk < 2 ^ s, ∀ i < 2 ^ (n - s), Memory.read m (blk * 2 ^ (n - s) + i) = some (g blk i)

theorem block_index_lt {n s blk i : Nat} (hs : s ≤ n) (hblk : blk < 2 ^ s) (hi : i < 2 ^ (n - s)) :
    blk * 2 ^ (n - s) + i < 2 ^ n :=
  calc blk * 2 ^ (n - s) + i < (blk + 1) * 2 ^ (n - s) := by rw [Nat.succ_mul]; omega
    _ ≤ 2 ^ s * 2 ^ (n - s) := Nat.mul_le_mul_right _ hblk
    _ = 2 ^ n := pow_mul_pow_sub 2 hs

section
variable {m : Memory F} {n s : Nat} {g : Nat → Nat → Sample F}

theorem HoldsBlocks.read (h : HoldsBlocks m n s g) (hs : s ≤ n) {p : Nat} (hp : p < 2 ^ n) :
    Memory.read m p = some (g (p / 2 ^ (n - s)) (p % 2 ^ (n - s))) := by
  have hblk : p / 2 ^ (n - s) < 2 ^ s := by
    rwa [Nat.div_lt_iff_lt_mul (Nat.two_pow_pos _), pow_mul_pow_sub 2 hs]
  have hread := h _ hblk _ (Nat.mod_lt p (Nat.two_pow_pos (n - s)))
  rwa [Nat.div_add_mod'] at hread

theorem holdsBlocks_zero_iff {v : Nat → Sample F} :
    HoldsBlocks m n 0 (fun _ => v) ↔ ∀ p < 2 ^ n, Memory.read m p = some (v p) := by
  simp [HoldsBlocks]

end

/-- The values after stage `bp`: block `blk / 2` was read, and `blk` is its lower or its upper half (R146, R148). -/
def stageValues (num : Num F) (kind : Combine) (bw : BitWidth) (pos bp : Nat) (g : Nat → Nat → Sample F)
    (blk i : Nat) : Sample F :=
  let out := butterfly num kind bw pos bp (blk / 2) i (g (blk / 2) (2 * i)) (g (blk / 2) (2 * i + 1))
  if blk % 2 = 0 then out.1 else out.2

/-- The values after the stages `0 .. s − 1`. -/
def decimationValues (num : Num F) (kind : Combine) (bw : BitWidth) (pos : Nat) (g : Nat → Nat → Sample F) :
    Nat → Nat → Nat → Sample F
  | 0 => g
  | s + 1 => stageValues num kind bw pos s (decimationValues num kind bw pos g s)

section
variable {num : Num F} {kind : Combine} {bw : BitWidth} {pos bp : Nat} {x : Pipeline F} {g : Nat → Nat → Sample F}

/-- The stage's image of blocks: each block of `M` elements gives two of `M/2`. -/
theorem stageImage_of_holdsBlocks {src : Memory F} (hbp : bp < bw.val) (hg : HoldsBlocks src bw.val bp g) {blk i : Nat}
    (hblk : blk < 2 ^ (bp + 1)) (hi : i < 2 ^ (bw.val - (bp + 1))) :
    stageImage num kind bw pos bp src (blk * 2 ^ (bw.val - (bp + 1)) + i) =
      some (stageValues num kind bw pos bp g blk i) := by
  have hsize : blockSize bw bp = 2 ^ (bw.val - bp) := blockSize_eq bw hbp
  have hsplit : 2 ^ (bw.val - bp) = 2 * 2 ^ (bw.val - (bp + 1)) := by
    rw [← Nat.pow_succ']; congr 1; omega
  have hblk' : blk / 2 < 2 ^ bp := by rw [Nat.pow_succ] at hblk; omega
  have hx := hg (blk / 2) hblk' (2 * i) (by omega)
  have hy := hg (blk / 2) hblk' (2 * i + 1) (by omega)
  rw [← Nat.add_assoc] at hy
  rw [hsplit] at hx hy
  unfold stageImage stageValues
  rw [hsize, hsplit]
  generalize 2 ^ (bw.val - (bp + 1)) = half at *
  have hplace : blk * half + i = (blk % 2 * half + i) + (2 * half) * (blk / 2) := by
    conv_lhs => rw [← Nat.div_add_mod blk 2]
    ring
  have hwithin : blk % 2 * half + i < 2 * half := by
    rcases Nat.mod_two_eq_zero_or_one blk with h | h <;> rw [h] <;> omega
  have hdiv : (blk * half + i) / (2 * half) = blk / 2 := by
    rw [hplace, Nat.add_mul_div_left _ _ (by omega), Nat.div_eq_of_lt hwithin, Nat.zero_add]
  have hmod : (blk * half + i) % (2 * half) = blk % 2 * half + i := by
    rw [hplace, Nat.add_mul_mod_self_left, Nat.mod_eq_of_lt hwithin]
  have hlane : (blk % 2 * half + i) % half = i := by
    rw [Nat.add_comm, Nat.add_mul_mod_self_right, Nat.mod_eq_of_lt hi]
  have hhalf : 2 * half / 2 = half := by omega
  have hlower : blk % 2 * half + i < half ↔ blk % 2 = 0 := by
    rcases Nat.mod_two_eq_zero_or_one blk with h | h <;> rw [h] <;> omega
  simp only [hdiv, hmod, hhalf, hlane, hx, hy, hlower]

/-- A stage over full blocks completes and leaves twice as many. -/
theorem stage_holdsBlocks (hbp : bp < bw.val) (hg : HoldsBlocks (x.bufs.get (sourceOf x.par)) bw.val bp g) :
    ∃ y, stage num kind bw pos bp x = .ok y ∧
      HoldsBlocks (y.bufs.get (sourceOf y.par)) bw.val (bp + 1) (stageValues num kind bw pos bp g) := by
  obtain ⟨y, hy⟩ := stage_ok num kind bw pos bp x hbp fun j hj => by rw [hg.read hbp.le hj]; rfl
  obtain ⟨hpar, -, hread⟩ := stage_spec num kind bw pos bp x y hbp hy
  refine ⟨y, hy, fun blk hblk i hi => ?_⟩
  have hlt : blk * 2 ^ (bw.val - (bp + 1)) + i < bw.size := block_index_lt hbp hblk hi
  rw [hpar, sourceOf_nextPar, hread, if_pos hlt, stageImage_of_holdsBlocks hbp hg hblk hi]

/-- A decimation over a full Buffer completes with the values of its stages. -/
theorem decimate_holdsBlocks {count : Nat} (hcount : count ≤ bw.val)
    (hg : HoldsBlocks (x.bufs.get (sourceOf x.par)) bw.val 0 g) :
    ∃ y, decimate num kind bw pos count x = .ok y ∧
      HoldsBlocks (y.bufs.get (sourceOf y.par)) bw.val count (decimationValues num kind bw pos g count) := by
  obtain ⟨y, hy, hval⟩ := loop_ok_of (body := stage num kind bw pos) (n := count) (i := 0)
    (P := fun s (z : Pipeline F) =>
      HoldsBlocks (z.bufs.get (sourceOf z.par)) bw.val s (decimationValues num kind bw pos g s))
    (fun s z _ hs hz => stage_holdsBlocks (by omega) hz) hg
  rw [Nat.zero_add] at hval
  exact ⟨y, hy, hval⟩

end

/-! ## The straight decimation (R163, R165) -/

/-- After `s` straight stages block `blk` holds the elements whose low `s` bits are `blk` reversed. -/
theorem decimationValues_straight (num : Num F) (bw : BitWidth) (pos : Nat) (v : Nat → Sample F) (s blk i : Nat) :
    decimationValues num .straight bw pos (fun _ => v) s blk i = v (rev blk s + 2 ^ s * i) := by
  induction s generalizing blk i with
  | zero => simp [decimationValues, rev]
  | succ s ih =>
    rw [decimationValues, stageValues, rev_succ_low, Nat.pow_succ]
    simp only [butterfly, ih]
    rcases Nat.mod_two_eq_zero_or_one blk with h | h
    · rw [if_pos h, h]; congr 1; ring
    · rw [if_neg (by omega), h]; congr 1; ring

/-- The straight decimation of a full Buffer completes as the bit-reversal permutation. -/
theorem straightDecimation_rev (num : Num F) (bw : BitWidth) (pos : Nat) (x : Pipeline F) (v : Nat → Sample F)
    (hv : ∀ p < bw.size, Memory.read (x.bufs.get (sourceOf x.par)) p = some (v p)) :
    ∃ y, straightDecimation num bw pos x = .ok y ∧
      ∀ p < bw.size, Memory.read (y.bufs.get (sourceOf y.par)) p = some (v (rev p bw.val)) := by
  obtain ⟨y, hy, hval⟩ := decimate_holdsBlocks (num := num) (kind := .straight) (pos := pos) (Nat.sub_le bw.val 1)
    (holdsBlocks_zero_iff.2 hv)
  refine ⟨y, hy, fun p hp => ?_⟩
  have hlow := bw.low
  have hlast : bw.val - (bw.val - 1) = 1 := by omega
  have hwidth : bw.val = bw.val - 1 + 1 := by omega
  rw [hval.read (Nat.sub_le bw.val 1) hp, decimationValues_straight, hlast, Nat.pow_one, Nat.mul_comm (2 ^ _),
    ← rev_succ_low, ← hwidth]

end

end Sys2Proof.Machine
end

section
/-!
PROOF. The transform in the ideal numerics (R125; log entry 16): the radix-2 split of the discrete Fourier transform, the
butterfly as that split, and by induction over the stages the statements about the twiddle decimation (R166) and the whole
transform (R180).
-/

namespace Sys2Proof.Machine

/-! ## The radix-2 split of the transform -/

theorem sum_range_two_mul (f : Nat → ℂ) (n : Nat) :
    ∑ m ∈ Finset.range (2 * n), f m = ∑ m ∈ Finset.range n, f (2 * m) + ∑ m ∈ Finset.range n, f (2 * m + 1) := by
  induction n with
  | zero => simp
  | succ n ih =>
    rw [Nat.mul_succ, Finset.sum_range_succ, Finset.sum_range_succ, ih, Finset.sum_range_succ, Finset.sum_range_succ]
    ring

/-- `exp(−j·2π·k/n)`. -/
noncomputable def unitRoot (n k : Nat) : ℂ := Complex.exp (-(2 * Real.pi * k / n : ℝ) * Complex.I)

theorem unitRoot_add (n k l : Nat) : unitRoot n (k + l) = unitRoot n k * unitRoot n l := by
  rw [unitRoot, unitRoot, unitRoot, ← Complex.exp_add]
  congr 1
  push_cast
  ring

section
variable {n : Nat} (hn : 0 < n)
include hn

/-- A common factor of index and order cancels. -/
theorem unitRoot_mul_mul {c : Nat} (hc : 0 < c) (k : Nat) : unitRoot (c * n) (c * k) = unitRoot n k := by
  have hn' : (n : ℝ) ≠ 0 := by exact_mod_cast hn.ne'
  have hc' : (c : ℝ) ≠ 0 := by exact_mod_cast hc.ne'
  rw [unitRoot, unitRoot]
  congr 4
  push_cast
  field_simp

/-- Whole turns do not matter. -/
theorem unitRoot_mul_self (k : Nat) : unitRoot n (n * k) = 1 := by
  have hn' : (n : ℝ) ≠ 0 := by exact_mod_cast hn.ne'
  have hturn : (2 * Real.pi * (n * k : ℕ) / n : ℝ) = k * (2 * Real.pi) := by push_cast; field_simp
  rw [unitRoot, hturn, neg_mul, Complex.exp_neg, inv_eq_one]
  push_cast
  rw [mul_assoc]
  exact Complex.exp_nat_mul_two_pi_mul_I k

/-- Half a turn is a change of sign. -/
theorem unitRoot_half : unitRoot (2 * n) n = -1 := by
  have hn' : (n : ℝ) ≠ 0 := by exact_mod_cast hn.ne'
  have hturn : (2 * Real.pi * n / (2 * n : ℕ) : ℝ) = Real.pi := by push_cast; field_simp
  rw [unitRoot, hturn, neg_mul, Complex.exp_neg, Complex.exp_pi_mul_I]
  norm_num

end

theorem dft_eq (n : Nat) (x : Nat → ℂ) (k : Nat) : dft n x k = ∑ m ∈ Finset.range n, x m * unitRoot n (m * k) := by
  refine Finset.sum_congr rfl fun m _ => ?_
  rw [unitRoot]
  push_cast
  ring_nf

section
variable {n : Nat} (hn : 0 < n)
include hn

/-- The transform of `2n` numbers from those of the even and of the odd ones. -/
theorem dft_two_mul (x : Nat → ℂ) (k : Nat) :
    dft (2 * n) x k = dft n (fun m => x (2 * m)) k + unitRoot (2 * n) k * dft n (fun m => x (2 * m + 1)) k := by
  rw [dft_eq, dft_eq, dft_eq, sum_range_two_mul, Finset.mul_sum]
  congr 1 <;> refine Finset.sum_congr rfl fun m _ => ?_
  · rw [Nat.mul_assoc, unitRoot_mul_mul hn Nat.two_pos]
  · have hodd : (2 * m + 1) * k = 2 * (m * k) + k := by ring
    rw [hodd, unitRoot_add, unitRoot_mul_mul hn Nat.two_pos]
    ring

theorem dft_add_self (x : Nat → ℂ) (k : Nat) : dft n x (k + n) = dft n x k := by
  rw [dft_eq, dft_eq]
  refine Finset.sum_congr rfl fun m _ => ?_
  rw [Nat.mul_add, unitRoot_add, Nat.mul_comm m n, unitRoot_mul_self hn, mul_one]

/-- The same split at the frequency half way on: the difference instead of the sum. -/
theorem dft_two_mul_add (x : Nat → ℂ) (k : Nat) :
    dft (2 * n) x (k + n) = dft n (fun m => x (2 * m)) k - unitRoot (2 * n) k * dft n (fun m => x (2 * m + 1)) k := by
  rw [dft_two_mul hn, dft_add_self hn, dft_add_self hn, unitRoot_add, unitRoot_half hn]
  ring

end

/-! ## The butterfly in the ideal numerics (R120, R121, R125) -/

section
variable (site : Site) (k : Nat) (a b : Sample ℝ)

theorem toComplex_cadd : toComplex (cadd ideal site k a b) = toComplex a + toComplex b :=
  Complex.ext rfl rfl

theorem toComplex_csub : toComplex (csub ideal site k a b) = toComplex a - toComplex b :=
  Complex.ext rfl rfl

theorem toComplex_cmul : toComplex (cmul ideal site a b) = toComplex b * toComplex a := by
  rw [mul_comm]
  exact Complex.ext rfl rfl

theorem toComplex_tw (bw : BitWidth) (t : Nat) : toComplex (ideal.tw bw t) = unitRoot bw.size t := by
  rw [unitRoot, ← Complex.ofReal_neg]
  apply Complex.ext
  · rw [Complex.exp_ofReal_mul_I_re, Real.cos_neg]; rfl
  · rw [Complex.exp_ofReal_mul_I_im, Real.sin_neg]; rfl

end

/-- The factor of block `blk` of stage `bp` is a root of order `2^(bp + 1)` (R147). -/
theorem toComplex_twiddle (bw : BitWidth) {bp : Nat} (hbp : bp < bw.val) (blk : Nat) :
    toComplex (ideal.tw bw (twiddleIndex bw bp blk)) = unitRoot (2 * 2 ^ bp) (rev blk bp) := by
  have hsize : bw.size = 2 ^ (bw.val - 1 - bp) * (2 * 2 ^ bp) := by
    rw [BitWidth.size, ← Nat.pow_succ', ← pow_add]; congr 1; omega
  rw [toComplex_tw, twiddleIndex, Nat.shiftLeft_eq, Nat.mul_comm, hsize,
    unitRoot_mul_mul (by positivity) (Nat.two_pow_pos _)]

/-! ## The stages -/

/-- After `s` twiddle stages block `blk` holds the transforms, at the frequency `blk` reversed, of the inputs whose indices
agree below bit `BW − s`. -/
theorem decimationValues_twiddle (bw : BitWidth) (pos : Nat) (x : Nat → Sample ℝ) {s : Nat} (hs : s ≤ bw.val)
    (blk i : Nat) :
    toComplex (decimationValues ideal .twiddle bw pos (fun _ p => x (rev p bw.val)) s blk i) =
      dft (2 ^ s) (fun m => toComplex (x (rev i (bw.val - s) + m * 2 ^ (bw.val - s)))) (rev blk s) := by
  induction s generalizing blk i with
  | zero => simp [decimationValues, dft_eq, unitRoot]
  | succ s ih =>
    have hwidth : bw.val - s = bw.val - (s + 1) + 1 := by omega
    have heven : ∀ m, rev (2 * i) (bw.val - s) + m * 2 ^ (bw.val - s) =
        rev i (bw.val - (s + 1)) + 2 * m * 2 ^ (bw.val - (s + 1)) := fun m => by
      rw [hwidth, rev_succ_low, Nat.mul_div_cancel_left _ Nat.two_pos, Nat.mul_mod_right, Nat.pow_succ]
      ring
    have hodd : ∀ m, rev (2 * i + 1) (bw.val - s) + m * 2 ^ (bw.val - s) =
        rev i (bw.val - (s + 1)) + (2 * m + 1) * 2 ^ (bw.val - (s + 1)) := fun m => by
      have hdiv : (2 * i + 1) / 2 = i := by omega
      have hmod : (2 * i + 1) % 2 = 1 := by omega
      rw [hwidth, rev_succ_low, hdiv, hmod, Nat.pow_succ]
      ring
    have hpos : 0 < 2 ^ s := Nat.two_pow_pos s
    rw [decimationValues, stageValues, rev_succ_low, Nat.pow_succ']
    simp only [butterfly]
    rcases Nat.mod_two_eq_zero_or_one blk with h | h
    · rw [if_pos h, h, toComplex_cadd, toComplex_cmul, toComplex_twiddle bw hs, ih (by omega), ih (by omega), Nat.zero_mul,
        dft_two_mul hpos]
      simp only [heven, hodd, Nat.add_zero]
    · rw [if_neg (by omega), h, toComplex_csub, toComplex_cmul, toComplex_twiddle bw hs, ih (by omega), ih (by omega),
        Nat.one_mul, dft_two_mul_add hpos]
      simp only [heven, hodd]

/-- Settles O44: after all stages a block is one element, and the frequency is its index reversed. -/
theorem idealTwiddleDecimationIsTheTransformReversed : Obligations.IdealTwiddleDecimationIsTheTransformReversed := by
  intro bw pos d x hx
  obtain ⟨y, hy, hval⟩ := decimate_holdsBlocks (num := ideal) (kind := .twiddle) (pos := pos) (le_refl bw.val)
    (holdsBlocks_zero_iff.2 hx)
  refine ⟨y, hy, fun p hp => ⟨_, hval.read le_rfl hp, ?_⟩⟩
  rw [decimationValues_twiddle bw pos x le_rfl, Nat.sub_self, Nat.pow_zero, Nat.div_one, Nat.mod_one]
  simp [rev, BitWidth.size]

/-- Settles O45: bit reversal, the transform of what is then reversed, and bit reversal again. -/
theorem idealTransformIsTheDiscreteFourierTransform : Obligations.IdealTransformIsTheDiscreteFourierTransform := by
  intro bw pos inSel m x hx
  obtain ⟨d, hd, hdval⟩ := straightDecimation_rev ideal bw pos ⟨m, initialPar inSel⟩ x (by rwa [sourceOf_initialPar])
  obtain ⟨y, hy, hyval⟩ := idealTwiddleDecimationIsTheTransformReversed bw pos d x hdval
  have : Nonempty (Sample ℝ) := ⟨⟨0, 0⟩⟩
  choose! z hzread hz using hyval
  obtain ⟨t, ht, htval⟩ := straightDecimation_rev ideal bw pos y z hzread
  refine ⟨t, by simp only [transform, hd, hy, ht], fun k hk => ⟨_, htval k hk, ?_⟩⟩
  rw [hz _ (rev_lt k bw.val), rev_rev, Nat.mod_eq_of_lt (show k < 2 ^ bw.val from hk)]

end Sys2Proof.Machine
end

section
/-!
PROOF. The twiddle ROM (R122): what `roundFixed` answers, that every entry is such a number, the entries the rule lists;
and, from the finite ROM and the signed zeros, the transform of an all-zero input (R177).
-/

namespace Sys2Proof.Machine

/-! ## `roundFixed` -/

theorem magOf_one : magOf 0x3F800000 = 2 ^ 149 := by decide +kernel

section
variable (neg : Bool) (v : Nat)

/-- The bits of an entry: the fixed-point magnitude rounded, at most 1. -/
def fixedBits (v : Nat) : Nat := min (roundUnits (v * 2 ^ 21) 1) 0x3F800000

theorem roundFixed_eq : roundFixed neg v = packF32 (neg && v != 0) (fixedBits v) := rfl

theorem fixedBits_le : fixedBits v ≤ 0x3F800000 := Nat.min_le_right _ _

theorem fixedBits_lt : fixedBits v < 2 ^ 31 := (fixedBits_le v).trans_lt (by decide)

theorem roundFixed_finite : isNaN (roundFixed neg v) = false ∧ isInf (roundFixed neg v) = false := by
  rw [finite_iff, roundFixed_eq, f32Bits_packF32 (fixedBits_lt v)]
  exact (fixedBits_le v).trans_lt (by decide)

theorem f32Mag_roundFixed_le : f32Mag (roundFixed neg v) ≤ 2 ^ 149 := by
  rw [roundFixed_eq, f32Mag_packF32 (fixedBits_lt v), ← magOf_one]
  exact magOf_strictMono.monotone (fixedBits_le v)

/-- A magnitude other than zero is rounded to one: it is at least the smallest subnormal. -/
theorem fixedBits_pos {v : Nat} (hv : v ≠ 0) : 0 < fixedBits v := by
  obtain ⟨k, q, h, hround⟩ := exists_roundUnits (v * 2 ^ 21) Nat.one_pos
  have hone : (magOf 1 : ℝ) ≤ ((v * 2 ^ 21 : ℕ) : ℝ) / (1 : ℕ) := by
    have hle : magOf 1 ≤ v * 2 ^ 21 := Nat.succ_le_of_lt (show 0 < v * 2 ^ 21 by positivity)
    rw [Nat.cast_one, div_one]
    exact_mod_cast hle
  have hpos := h.ge_of_ge hone
  rw [fixedBits, hround]
  exact lt_min (lt_min hpos (by decide)) (by decide)

theorem roundFixed_ne_negZero : roundFixed neg v ≠ 0x80000000#32 := by
  rw [Ne, eq_negZero_iff, roundFixed_eq, f32Neg_packF32 (fixedBits_lt v), f32Mag_packF32 (fixedBits_lt v),
    magOf_eq_zero_iff, Bool.and_eq_true, bne_iff_ne]
  rintro ⟨⟨-, hv⟩, hbits⟩
  exact (fixedBits_pos hv).ne' hbits

/-- A negated entry is not positive. -/
theorem f32Val_roundFixed_true_nonpos : f32Val (roundFixed true v) ≤ 0 := by
  rcases Nat.eq_zero_or_pos v with rfl | hv
  · exact (by decide +kernel : f32Val (roundFixed true 0) ≤ 0)
  · have hneg : f32Neg (roundFixed true v) = true := by
      rw [roundFixed_eq, f32Neg_packF32 (fixedBits_lt v), Bool.true_and, bne_iff_ne]
      exact hv.ne'
    rw [f32Val, if_pos hneg]
    omega

end

/-! ## The entries -/

/-- Every entry is a pair of rounded fixed-point numbers, the second one negated. -/
theorem exists_twiddle_eq_roundFixed (bw : BitWidth) (t : Nat) :
    ∃ neg v w, twiddle bw t = ⟨roundFixed neg v, roundFixed true w⟩ := by
  unfold twiddle
  split
  · exact ⟨_, _, _, rfl⟩
  · split
    · exact ⟨_, _, _, rfl⟩
    · split
      · exact ⟨_, _, _, rfl⟩
      · exact ⟨_, _, _, rfl⟩

/-- Settles O59: every entry is a pair of rounded fixed-point numbers. -/
theorem romEntriesAreUnitSized : Obligations.RomEntriesAreUnitSized := by
  intro bw t _
  obtain ⟨neg, v, w, h⟩ := exists_twiddle_eq_roundFixed bw t
  obtain ⟨hnan, hinf⟩ := roundFixed_finite neg v
  obtain ⟨hnan', hinf'⟩ := roundFixed_finite true w
  rw [h]
  exact ⟨⟨hnan, hinf, f32Mag_roundFixed_le neg v⟩, ⟨hnan', hinf', f32Mag_roundFixed_le true w⟩,
    f32Val_roundFixed_true_nonpos w, roundFixed_ne_negZero neg v, roundFixed_ne_negZero true w⟩

theorem hornerFixed_zero (off n k : Nat) : hornerFixed 0 off n k = oneFixed := by
  cases n <;> simp [hornerFixed]

theorem cosFixed_zero (bw : BitWidth) : cosFixed bw 0 = oneFixed := by
  simp [cosFixed, angleSquared, angleFixed, hornerFixed_zero]

theorem sinFixed_zero (bw : BitWidth) : sinFixed bw 0 = 0 := by
  simp [sinFixed, angleFixed]

theorem bitWidth_eq_of_val {bw bw' : BitWidth} (h : bw.val = bw'.val) : bw = bw' := by
  cases bw; cases bw'; cases h; rfl

/-- `N` is a multiple of four. -/
theorem exists_size_eq (bw : BitWidth) : ∃ m, 0 < m ∧ bw.size = 4 * m := by
  have hlow := bw.low
  refine ⟨2 ^ (bw.val - 2), Nat.two_pow_pos _, ?_⟩
  rw [BitWidth.size, (by decide : 4 = 2 ^ 2), ← pow_add]
  congr 1
  omega

theorem twiddle_zero (bw : BitWidth) : twiddle bw 0 = ⟨0x3F800000#32, 0x00000000#32⟩ := by
  rw [twiddle, if_pos (Nat.zero_le _), cosFixed_zero, sinFixed_zero]
  decide +kernel

theorem twiddle_quarter (bw : BitWidth) : twiddle bw (bw.size / 4) = ⟨0x00000000#32, 0xBF800000#32⟩ := by
  obtain ⟨m, hm, hsize⟩ := exists_size_eq bw
  rw [twiddle, if_neg (by omega), if_pos (by omega), Nat.sub_self, cosFixed_zero, sinFixed_zero]
  decide +kernel

/-- Settles O58: the exact entries are those of the angle 0, the listed ones by evaluation in their builds. -/
theorem romHoldsItsExactEntries : Obligations.RomHoldsItsExactEntries := by
  refine ⟨fun bw => ⟨twiddle_zero bw, twiddle_quarter bw⟩, fun bw h => ?_, fun bw h => ?_, fun bw h => ?_⟩
  · obtain rfl : bw = ⟨3, by decide, by decide⟩ := bitWidth_eq_of_val h
    decide +kernel
  · obtain rfl : bw = ⟨4, by decide, by decide⟩ := bitWidth_eq_of_val h
    decide +kernel
  · obtain rfl : bw = Config.referenceWidth := bitWidth_eq_of_val h
    decide +kernel

end Sys2Proof.Machine
end

section
/-!
PROOF. The transform of an all-zero input (R177): a zero times a finite factor is a zero of some sign, and `+0.0` plus a
zero of either sign is `+0.0`, so a butterfly of `+0.0` answers `+0.0` (R112 to R114, R120, R121).
-/

namespace Sys2Proof.Machine

/-! ## Zeros of either sign -/

section
variable {site : Site} {a b : F32}

theorem finite_of_zero (h : f32Mag a = 0) : isNaN a = false ∧ isInf a = false := by
  rw [finite_iff, (f32Mag_eq_zero_iff a).1 h]; decide

theorem f32Mul_zero_left (ha : f32Mag a = 0) (hb : isNaN b = false) (hb' : isInf b = false) :
    f32Mag (f32Mul site a b) = 0 := by
  obtain ⟨hnan, hinf⟩ := finite_of_zero ha
  rw [f32Mul_of_finite hnan hinf hb hb', ha, Nat.zero_mul, roundUnits_zero (by positivity), f32Mag_packF32_zero]

theorem f32Add_zeros (ha : f32Mag a = 0) (hb : f32Mag b = 0) :
    f32Add site a b = packF32 (f32Neg a && f32Neg b) 0 := by
  obtain ⟨hnan, hinf⟩ := finite_of_zero ha
  obtain ⟨hnan', hinf'⟩ := finite_of_zero hb
  refine f32Add_of_zero_sum hnan hinf hnan' hinf' ?_
  rw [(f32Val_eq_zero_iff a).2 ha, (f32Val_eq_zero_iff b).2 hb, add_zero]

theorem f32Add_posZero (hb : f32Mag b = 0) : f32Add site 0x00000000#32 b = 0x00000000#32 := by
  rw [f32Add_zeros (by decide) hb]
  rfl

theorem f32Sub_posZero (hb : f32Mag b = 0) : f32Sub site 0x00000000#32 b = 0x00000000#32 :=
  f32Add_posZero (by rwa [f32Mag_f32Negate])

end

/-- The Sample `(+0.0, +0.0)`. -/
def zeroSample : Sample F32 := ⟨0x00000000#32, 0x00000000#32⟩

/-- A butterfly of zeros answers zeros, whatever the factor of the ROM. -/
theorem butterfly_zero (kind : Combine) (bw : BitWidth) (pos bp blk i : Nat) :
    butterfly binary32 kind bw pos bp blk i zeroSample zeroSample = (zeroSample, zeroSample) := by
  cases kind with
  | straight => rfl
  | twiddle =>
    obtain ⟨neg, v, w, htw⟩ := exists_twiddle_eq_roundFixed bw (twiddleIndex bw bp blk)
    obtain ⟨hnan, hinf⟩ := roundFixed_finite neg v
    obtain ⟨hnan', hinf'⟩ := roundFixed_finite true w
    have hre : ∀ s, f32Mag (f32Mul s 0x00000000#32 (roundFixed neg v)) = 0 := fun s =>
      f32Mul_zero_left (by decide) hnan hinf
    have him : ∀ s, f32Mag (f32Mul s 0x00000000#32 (roundFixed true w)) = 0 := fun s =>
      f32Mul_zero_left (by decide) hnan' hinf'
    have hsum : ∀ {s a b}, f32Mag a = 0 → f32Mag b = 0 → f32Mag (f32Add s a b) = 0 := fun ha hb => by
      rw [f32Add_zeros ha hb, f32Mag_packF32_zero]
    have hdiff : ∀ {s a b}, f32Mag a = 0 → f32Mag b = 0 → f32Mag (f32Sub s a b) = 0 := fun ha hb =>
      hsum ha (by rwa [f32Mag_f32Negate])
    simp only [butterfly, cadd, csub, cmul, binary32, htw, zeroSample]
    rw [f32Add_posZero (hdiff (hre _) (him _)), f32Add_posZero (hsum (him _) (hre _)),
      f32Sub_posZero (hdiff (hre _) (him _)), f32Sub_posZero (hsum (him _) (hre _))]

/-! ## Buffers of zeros -/

/-- Every element of the Buffer is zero. -/
def AllZero (bw : BitWidth) (m : Memory F32) : Prop := ∀ i < bw.size, Memory.read m i = some zeroSample

section
variable {kind : Combine} {bw : BitWidth} {pos bp : Nat} {x : Pipeline F32}

theorem AllZero.holdsBlocks {m : Memory F32} (h : AllZero bw m) (hbp : bp ≤ bw.val) :
    HoldsBlocks m bw.val bp fun _ _ => zeroSample :=
  fun _ hblk _ hi => h _ (block_index_lt hbp hblk hi)

theorem stageValues_zero (blk i : Nat) :
    stageValues binary32 kind bw pos bp (fun _ _ => zeroSample) blk i = zeroSample := by
  rw [stageValues, butterfly_zero]
  exact ite_self _

theorem eq_sourceOf_or_destOf (par : BitVec 8) (b : Bit) : b = sourceOf par ∨ b = destOf par :=
  (by decide : ∀ a b : Bit, b = a ∨ b = ~~~a) _ _

/-- A stage over a source of zeros completes and leaves zeros in both Buffers. -/
theorem stage_allZero (hbp : bp < bw.val) (hx : AllZero bw (x.bufs.get (sourceOf x.par))) :
    ∃ y, stage binary32 kind bw pos bp x = .ok y ∧ ∀ b, AllZero bw (y.bufs.get b) := by
  obtain ⟨y, hy, hblocks⟩ := stage_holdsBlocks (num := binary32) (kind := kind) (pos := pos) hbp (hx.holdsBlocks hbp.le)
  obtain ⟨hpar, hsrc, -⟩ := stage_spec binary32 kind bw pos bp x y hbp hy
  refine ⟨y, hy, fun b => ?_⟩
  rcases eq_sourceOf_or_destOf x.par b with rfl | rfl
  · rwa [hsrc]
  · rw [hpar, sourceOf_nextPar] at hblocks
    exact fun p hp => (hblocks.read hbp hp).trans (congrArg some (stageValues_zero _ _))

/-- A decimation of at least one stage over zeros leaves zeros in both Buffers. -/
theorem decimate_allZero {count : Nat} (hpos : 0 < count) (hcount : count ≤ bw.val)
    (hx : AllZero bw (x.bufs.get (sourceOf x.par))) :
    ∃ y, decimate binary32 kind bw pos count x = .ok y ∧ ∀ b, AllZero bw (y.bufs.get b) := by
  obtain ⟨y, hy, hzero⟩ := loop_ok_of (body := stage binary32 kind bw pos) (n := count) (i := 0)
    (P := fun s (z : Pipeline F32) =>
      AllZero bw (z.bufs.get (sourceOf z.par)) ∧ (0 < s → ∀ b, AllZero bw (z.bufs.get b)))
    (fun s z _ hs ⟨hz, _⟩ => by
      obtain ⟨z', hz', hall⟩ := stage_allZero (kind := kind) (pos := pos) (bp := s) (by omega) hz
      exact ⟨z', hz', hall _, fun _ => hall⟩) ⟨hx, fun h => absurd h (Nat.lt_irrefl 0)⟩
  rw [Nat.zero_add] at hzero
  exact ⟨y, hy, hzero.2 hpos⟩

theorem transform_allZero {inSel : Bit} {m : Bufs F32} (hm : AllZero bw (m.get inSel)) :
    ∃ y, transform binary32 bw pos inSel m = .ok y ∧ ∀ b, AllZero bw (y.bufs.get b) := by
  have hlow := bw.low
  obtain ⟨x, hx, hxzero⟩ := decimate_allZero (bw := bw) (kind := .straight) (pos := pos) (x := ⟨m, initialPar inSel⟩)
    (count := bw.val - 1) (by omega) (Nat.sub_le _ _) (by rwa [sourceOf_initialPar])
  obtain ⟨y, hy, hyzero⟩ := decimate_allZero (kind := .twiddle) (pos := pos) (count := bw.val) (by omega) le_rfl
    (hxzero _)
  obtain ⟨z, hz, hzzero⟩ := decimate_allZero (kind := .straight) (pos := pos) (count := bw.val - 1) (by omega)
    (Nat.sub_le _ _) (hyzero _)
  refine ⟨z, ?_, hzzero⟩
  simp only [transform, straightDecimation, twiddleDecimation, hx, hy, hz]

end

/-- A transform that completes is an `FFT` that completes (R177). -/
theorem exec_fft_of_ok {s : State} {x : Pipeline F32}
    (hx : transform binary32 s.bw s.cmdPos s.inSel s.bufs = .ok x) :
    exec .fft s = .next ((({ s with bufs := x.bufs, par := x.par, inSel := reboundInSel x.par }).push
      [outputWord (reboundInSel x.par)]).retire 1) := by
  simp only [exec, execFft, hx]

/-- Settles O40: each of the three decimations leaves zeros in both Buffers. -/
theorem fftOfZerosIsZero : Obligations.FftOfZerosIsZero := by
  intro s hs
  obtain ⟨y, hy, hzero⟩ := transform_allZero (pos := s.cmdPos) hs
  exact ⟨_, exec_fft_of_ok hy, hzero⟩

end Sys2Proof.Machine
end

section
/-!
PROOF. The constant `π` of the ROM: `piFixed` is `π` in 128 fraction bits, rounded down, by Machin's formula and the
alternating series of the arcus tangent.
-/

namespace Sys2Proof.Machine

/-! ## Alternating series -/

/-- The limit of an alternating series lies between two consecutive partial sums. -/
theorem alternating_bounds {f : ℕ → ℝ} {l : ℝ} (hsum : HasSum (fun n => (-1) ^ n * f n) l) (hanti : Antitone f)
    (k : ℕ) :
    ∑ i ∈ Finset.range (2 * k), (-1) ^ i * f i ≤ l ∧ l ≤ ∑ i ∈ Finset.range (2 * k + 1), (-1) ^ i * f i :=
  ⟨hanti.alternating_series_le_tendsto hsum.tendsto_sum_nat k,
    hanti.tendsto_le_alternating_series hsum.tendsto_sum_nat k⟩

/-- The terms of the arcus tangent series. -/
noncomputable def arctanTerm (x : ℝ) (n : ℕ) : ℝ := x ^ (2 * n + 1) / (2 * n + 1)

theorem antitone_arctanTerm {x : ℝ} (h0 : 0 ≤ x) (h1 : x ≤ 1) : Antitone (arctanTerm x) := by
  refine antitone_nat_of_succ_le fun n => ?_
  unfold arctanTerm
  push_cast
  exact div_le_div₀ (by positivity) (pow_le_pow_of_le_one h0 h1 (by omega)) (by positivity) (by linarith)

theorem arctan_bounds {x : ℝ} (h0 : 0 ≤ x) (h1 : x < 1) (k : ℕ) :
    ∑ i ∈ Finset.range (2 * k), (-1) ^ i * arctanTerm x i ≤ Real.arctan x ∧
    Real.arctan x ≤ ∑ i ∈ Finset.range (2 * k + 1), (-1) ^ i * arctanTerm x i := by
  refine alternating_bounds ?_ (antitone_arctanTerm h0 h1.le) k
  have hsum := Real.hasSum_arctan (x := x) (by rwa [Real.norm_eq_abs, abs_of_nonneg h0])
  refine hsum.congr_fun fun n => ?_
  rw [arctanTerm, mul_div_assoc]
  push_cast
  rfl

theorem piFixed_le : (piFixed : ℝ) ≤ Real.pi * 2 ^ 128 := by
  obtain ⟨h5, -⟩ := arctan_bounds (x := 5⁻¹) (by norm_num) (by norm_num) 14
  obtain ⟨-, h239⟩ := arctan_bounds (x := 239⁻¹) (by norm_num) (by norm_num) 4
  have hmachin := Real.four_mul_arctan_inv_5_sub_arctan_inv_239
  norm_num [Finset.sum_range_succ, arctanTerm] at h5 h239
  norm_num [piFixed]
  linarith

theorem le_piFixed_add_one : Real.pi * 2 ^ 128 ≤ piFixed + 1 := by
  obtain ⟨-, h5⟩ := arctan_bounds (x := 5⁻¹) (by norm_num) (by norm_num) 14
  obtain ⟨h239, -⟩ := arctan_bounds (x := 239⁻¹) (by norm_num) (by norm_num) 5
  have hmachin := Real.four_mul_arctan_inv_5_sub_arctan_inv_239
  norm_num [Finset.sum_range_succ, arctanTerm] at h5 h239
  norm_num [piFixed]
  linarith

end Sys2Proof.Machine
end

section
/-!
PROOF. The fixed-point cosine and sine of the ROM are a few units of `2^-128` away from the exact ones, in the first octant:
the angle, its square and every step of Horner's sum lose at most a unit each, and the series is cut after `1/40!`.
-/

namespace Sys2Proof.Machine

/-! ## Horner's sum over the real numbers -/

/-- Horner's sum of `hornerFixed`, exact: `m` is the number of factorial factors already divided out. -/
noncomputable def hornerReal (y : ℝ) : (n m : ℕ) → ℝ
  | 0, _ => 1
  | n + 1, m => 1 - y * hornerReal y n (m + 2) / ((m + 1) * (m + 2))

/-- Written out, it is a partial sum of the alternating series. -/
theorem hornerReal_eq_sum (y : ℝ) (n m : ℕ) :
    hornerReal y n m = ∑ j ∈ Finset.range (n + 1), (-1) ^ j * (y ^ j * (m.factorial / (m + 2 * j).factorial)) := by
  induction n generalizing m with
  | zero =>
    have : (m.factorial : ℝ) ≠ 0 := by exact_mod_cast m.factorial_ne_zero
    simp [hornerReal, this]
  | succ n ih =>
    have hm : (m.factorial : ℝ) ≠ 0 := by exact_mod_cast m.factorial_ne_zero
    rw [hornerReal, ih, Finset.sum_range_succ' _ (n + 1), Finset.mul_sum, Finset.sum_div, sub_eq_neg_add,
      ← Finset.sum_neg_distrib]
    congr 1
    · refine Finset.sum_congr rfl fun j _ => ?_
      have hindex : m + 2 * (j + 1) = m + 2 + 2 * j := by ring
      have hfact : ((m + 2).factorial : ℝ) = (m + 2) * (m + 1) * m.factorial := by
        rw [Nat.factorial_succ, Nat.factorial_succ]
        push_cast
        ring
      have hpos : ((m + 2 + 2 * j).factorial : ℝ) ≠ 0 := by exact_mod_cast Nat.factorial_ne_zero _
      rw [hindex, hfact, pow_succ (-1 : ℝ), pow_succ y]
      field_simp
    · simp [hm]

/-- A unit of the fixed-point numbers. -/
noncomputable def ulp : ℝ := 1 / 2 ^ 128

theorem ulp_pos : 0 < ulp := by unfold ulp; positivity

/-- A fixed-point number as a real number. -/
noncomputable def fixed (n : ℕ) : ℝ := n * ulp

theorem fixed_nonneg (n : ℕ) : 0 ≤ fixed n := mul_nonneg (Nat.cast_nonneg n) ulp_pos.le

theorem fixed_oneFixed : fixed oneFixed = 1 := by
  rw [fixed, ulp, oneFixed, Nat.cast_pow, Nat.cast_ofNat, mul_one_div_cancel (by positivity)]

theorem fixed_le_one {n : ℕ} (h : n ≤ oneFixed) : fixed n ≤ 1 := by
  rw [← fixed_oneFixed]
  exact mul_le_mul_of_nonneg_right (by exact_mod_cast h) ulp_pos.le

/-- A quotient rounded down loses less than a unit. -/
theorem fixed_div_bounds (a : ℕ) {d : ℕ} (hd : 0 < d) :
    (a / d : ℝ) * ulp - ulp ≤ fixed (a / d) ∧ fixed (a / d) ≤ (a / d : ℝ) * ulp := by
  have hlow : (a / d : ℝ) < (a / d : ℕ) + 1 := by
    rw [div_lt_iff₀ (by exact_mod_cast hd)]
    exact_mod_cast Nat.lt_mul_of_div_lt (Nat.lt_succ_self _) hd
  have hup : ((a / d : ℕ) : ℝ) ≤ a / d := Nat.cast_div_le
  have hpos := ulp_pos
  unfold fixed
  constructor
  · nlinarith
  · nlinarith

/-- A product of fixed-point numbers, divided by `d` and rounded down. -/
theorem fixed_mul_div_bounds (a b : ℕ) {d : ℕ} (hd : 0 < d) :
    fixed a * fixed b / d - ulp ≤ fixed (a * b / 2 ^ 128 / d) ∧ fixed (a * b / 2 ^ 128 / d) ≤ fixed a * fixed b / d := by
  have h := fixed_div_bounds (a * b) (d := 2 ^ 128 * d) (by positivity)
  have heq : ((a * b : ℕ) / (2 ^ 128 * d : ℕ) : ℝ) * ulp = fixed a * fixed b / d := by
    rw [fixed, fixed, ulp, Nat.cast_mul, Nat.cast_mul, Nat.cast_pow, Nat.cast_ofNat]
    field_simp
  rw [heq] at h
  rwa [Nat.div_div_eq_div_mul]

theorem hornerFixed_le (x2 off n k : ℕ) : hornerFixed x2 off n k ≤ oneFixed := by
  cases n with
  | zero => exact le_rfl
  | succ n => exact Nat.sub_le _ _

/-- The number subtracted in a step of Horner's sum is at most 1, so the subtraction is exact. -/
theorem fixed_hornerFixed_succ {x2 : ℕ} (hx2 : x2 ≤ oneFixed) (off n k : ℕ) :
    fixed (hornerFixed x2 off (n + 1) k) =
      1 - fixed (x2 * hornerFixed x2 off n (k + 1) / 2 ^ 128 / ((2 * k - 1 + off) * (2 * k + off))) := by
  have hle : x2 * hornerFixed x2 off n (k + 1) / 2 ^ 128 / ((2 * k - 1 + off) * (2 * k + off)) ≤ oneFixed :=
    calc _ ≤ x2 * hornerFixed x2 off n (k + 1) / 2 ^ 128 := Nat.div_le_self _ _
      _ ≤ x2 * oneFixed / 2 ^ 128 := Nat.div_le_div_right (Nat.mul_le_mul_left _ (hornerFixed_le _ _ _ _))
      _ = x2 := Nat.mul_div_cancel _ (Nat.two_pow_pos 128)
      _ ≤ oneFixed := hx2
  rw [hornerFixed, fixed, Nat.cast_sub hle, sub_mul, ← fixed, fixed_oneFixed, fixed]

/-- Horner's sum in fixed point is within eight units of the exact one, if the square is within five units. -/
theorem abs_hornerFixed_sub_le {x2 : ℕ} {y : ℝ} (hx2 : x2 ≤ oneFixed) (hy0 : 0 ≤ y) (hy1 : y ≤ 1)
    (hy : |fixed x2 - y| ≤ 5 * ulp) {off n k m : ℕ} (hm : m + 2 = 2 * k + off) (hk : 0 < k) :
    |fixed (hornerFixed x2 off n k) - hornerReal y n m| ≤ 8 * ulp := by
  have hulp := ulp_pos
  induction n generalizing k m with
  | zero =>
    rw [hornerFixed, fixed_oneFixed, hornerReal, sub_self, abs_zero]
    positivity
  | succ n ih =>
    have hih := ih (k := k + 1) (m := m + 2) (by omega) (Nat.succ_pos k)
    have hfactors : (2 * k - 1 + off) * (2 * k + off) = (m + 1) * (m + 2) := by
      rw [hm]; congr 1; omega
    obtain ⟨hlow, hup⟩ := fixed_mul_div_bounds x2 (hornerFixed x2 off n (k + 1)) (d := (m + 1) * (m + 2)) (by positivity)
    rw [fixed_hornerFixed_succ hx2, hornerReal, hfactors]
    have hh0 := fixed_nonneg (hornerFixed x2 off n (k + 1))
    have hh1 := fixed_le_one (hornerFixed_le x2 off n (k + 1))
    generalize fixed (hornerFixed x2 off n (k + 1)) = h at *
    generalize hornerReal y n (m + 2) = r at *
    have hd : (2 : ℝ) ≤ (m + 1) * (m + 2) := by
      have : (0 : ℝ) ≤ m := Nat.cast_nonneg m
      nlinarith
    have hcast : (((m + 1) * (m + 2) : ℕ) : ℝ) = (m + 1) * (m + 2) := by push_cast; rfl
    rw [hcast] at hlow hup
    clear hcast
    generalize ((m : ℝ) + 1) * (m + 2) = d at *
    have hdpos : 0 < d := by linarith
    have hprod : |fixed x2 * h - y * r| ≤ 13 * ulp := by
      have hsplit : fixed x2 * h - y * r = (fixed x2 - y) * h + y * (h - r) := by ring
      rw [hsplit]
      refine (abs_add_le _ _).trans ?_
      rw [abs_mul, abs_mul, abs_of_nonneg hh0, abs_of_nonneg hy0]
      nlinarith [abs_nonneg (fixed x2 - y), abs_nonneg (h - r)]
    have hquot : |fixed x2 * h / d - y * r / d| ≤ 13 / 2 * ulp := by
      rw [← sub_div, abs_div, abs_of_pos hdpos, div_le_iff₀ hdpos]
      nlinarith
    rw [abs_le] at hquot ⊢
    constructor <;> linarith [hquot.1, hquot.2]

end Sys2Proof.Machine
end

section
/-!
PROOF. The entries of the ROM against the exact cosine and sine (R122; log entry 7): the fixed-point values of the first
octant, their rounding, and the fold of the other octants into it.
-/

namespace Sys2Proof.Machine

/-! ## Where the series are cut -/

/-- The terms of the cosine series (`c = 0`) and of the sine series (`c = 1`). -/
noncomputable def powerTerm (c : ℕ) (x : ℝ) (n : ℕ) : ℝ := x ^ (2 * n + c) / (2 * n + c).factorial

section
variable {x : ℝ} (h0 : 0 ≤ x) (h1 : x ≤ 1)
include h0 h1

theorem antitone_powerTerm (c : ℕ) : Antitone (powerTerm c x) := by
  refine antitone_nat_of_succ_le fun n => ?_
  unfold powerTerm
  exact div_le_div₀ (by positivity) (pow_le_pow_of_le_one h0 h1 (by omega)) (by positivity)
    (by exact_mod_cast Nat.factorial_le (by omega))

/-- Cut after an odd number of terms, the error is at most the last one. -/
theorem abs_sum_powerTerm_sub_le {c : ℕ} {l : ℝ} (hsum : HasSum (fun n => (-1) ^ n * powerTerm c x n) l) (k : ℕ) :
    |∑ i ∈ Finset.range (2 * k + 1), (-1) ^ i * powerTerm c x i - l| ≤ powerTerm c x (2 * k) := by
  obtain ⟨hlow, hup⟩ := alternating_bounds hsum (antitone_powerTerm h0 h1 c) k
  rw [Finset.sum_range_succ, pow_mul, neg_one_sq, one_pow, one_mul] at hup ⊢
  rw [abs_of_nonneg (by linarith)]
  linarith

theorem powerTerm_le_ulp {c : ℕ} : powerTerm c x 20 ≤ ulp := by
  have hfact : (2 : ℝ) ^ 128 ≤ (2 * 20 + c).factorial := by
    have hforty : 2 ^ 128 ≤ (2 * 20).factorial := by decide +kernel
    exact_mod_cast hforty.trans (Nat.factorial_le (Nat.le_add_right _ _))
  unfold powerTerm ulp
  exact div_le_div₀ zero_le_one (pow_le_one₀ h0 h1) (by positivity) hfact

theorem abs_hornerReal_sub_cos_le : |hornerReal (x * x) 20 0 - Real.cos x| ≤ ulp := by
  have hsum : HasSum (fun n => (-1) ^ n * powerTerm 0 x n) (Real.cos x) := by
    refine (Real.hasSum_cos x).congr_fun fun n => ?_
    rw [powerTerm, Nat.add_zero, mul_div_assoc]
  have hseries : hornerReal (x * x) 20 0 = ∑ i ∈ Finset.range (2 * 10 + 1), (-1) ^ i * powerTerm 0 x i := by
    rw [hornerReal_eq_sum]
    refine Finset.sum_congr rfl fun j _ => ?_
    rw [powerTerm, Nat.factorial_zero, Nat.zero_add, Nat.add_zero, pow_mul, sq, Nat.cast_one, mul_one_div]
  rw [hseries]
  exact (abs_sum_powerTerm_sub_le h0 h1 hsum 10).trans (powerTerm_le_ulp h0 h1)

theorem abs_mul_hornerReal_sub_sin_le : |x * hornerReal (x * x) 20 1 - Real.sin x| ≤ ulp := by
  have hsum : HasSum (fun n => (-1) ^ n * powerTerm 1 x n) (Real.sin x) := by
    refine (Real.hasSum_sin x).congr_fun fun n => ?_
    rw [powerTerm, mul_div_assoc]
  have hseries : x * hornerReal (x * x) 20 1 = ∑ i ∈ Finset.range (2 * 10 + 1), (-1) ^ i * powerTerm 1 x i := by
    rw [hornerReal_eq_sum, Finset.mul_sum]
    refine Finset.sum_congr rfl fun j _ => ?_
    rw [powerTerm, Nat.factorial_one, Nat.add_comm 1, pow_succ x, pow_mul, sq, Nat.cast_one]
    ring
  rw [hseries]
  exact (abs_sum_powerTerm_sub_le h0 h1 hsum 10).trans (powerTerm_le_ulp h0 h1)

end

/-! ## The angle -/

/-- The angle of entry `u`. -/
noncomputable def angle (bw : BitWidth) (u : ℕ) : ℝ := 2 * Real.pi * u / bw.size

theorem angle_nonneg (bw : BitWidth) (u : ℕ) : 0 ≤ angle bw u := by unfold angle; positivity

theorem fixed_piFixed_bounds : fixed piFixed ≤ Real.pi ∧ Real.pi ≤ fixed piFixed + ulp := by
  have hlow := piFixed_le
  have hup := le_piFixed_add_one
  have hpow : (0 : ℝ) < 2 ^ 128 := by positivity
  unfold fixed ulp
  rw [mul_one_div, ← add_div]
  exact ⟨(div_le_iff₀ hpow).2 hlow, (le_div_iff₀ hpow).2 hup⟩

section
variable {bw : BitWidth} {u : ℕ} (hu : 8 * u ≤ bw.size)
include hu

/-- The first octant: the angle is at most `π/4`. -/
theorem turn_bounds : (0 : ℝ) ≤ 2 * u / bw.size ∧ (2 * u / bw.size : ℝ) ≤ 1 / 4 := by
  have hsize : (0 : ℝ) < bw.size := by exact_mod_cast size_pos bw
  refine ⟨by positivity, ?_⟩
  have : (8 * u : ℝ) ≤ bw.size := by exact_mod_cast hu
  rw [div_le_iff₀ hsize]
  linarith

theorem angle_le_one : angle bw u ≤ 1 := by
  have ⟨h0, h1⟩ := turn_bounds hu
  have heq : angle bw u = Real.pi * (2 * u / bw.size) := by unfold angle; ring
  rw [heq]
  nlinarith [Real.pi_pos, Real.pi_le_four]

theorem angleFixed_bounds : fixed (angleFixed bw u) ≤ angle bw u ∧ angle bw u ≤ fixed (angleFixed bw u) + 2 * ulp := by
  have hulp := ulp_pos
  have ⟨h0, h1⟩ := turn_bounds hu
  have ⟨hpi, hpi'⟩ := fixed_piFixed_bounds
  have ⟨hlow, hup⟩ := fixed_div_bounds (piFixed * 2 * u) (size_pos bw)
  have hfixed : ((piFixed * 2 * u : ℕ) / bw.size : ℝ) * ulp = fixed piFixed * (2 * u / bw.size) := by
    rw [Nat.cast_mul, Nat.cast_mul, fixed]
    push_cast
    ring
  have hangle : angle bw u = Real.pi * (2 * u / bw.size) := by unfold angle; ring
  rw [hfixed] at hlow hup
  rw [hangle, angleFixed]
  constructor
  · exact hup.trans (mul_le_mul_of_nonneg_right hpi h0)
  · nlinarith

theorem angleFixed_le : angleFixed bw u ≤ oneFixed := by
  have h1 := angle_le_one hu
  have ⟨hlow, _⟩ := angleFixed_bounds hu
  have hle : fixed (angleFixed bw u) ≤ fixed oneFixed := by rw [fixed_oneFixed]; linarith
  exact_mod_cast le_of_mul_le_mul_right hle ulp_pos

theorem abs_angleSquared_sub_le : |fixed (angleSquared bw u) - angle bw u * angle bw u| ≤ 5 * ulp := by
  have hulp := ulp_pos
  have h1 := angle_le_one hu
  have ⟨hlow, hup⟩ := angleFixed_bounds hu
  have ha := fixed_nonneg (angleFixed bw u)
  have ⟨hsqlow, hsqup⟩ := fixed_mul_div_bounds (angleFixed bw u) (angleFixed bw u) Nat.one_pos
  rw [Nat.div_one, ← angleSquared, Nat.cast_one, div_one] at hsqlow hsqup
  rw [abs_of_nonpos (by nlinarith)]
  nlinarith

theorem angleSquared_le : angleSquared bw u ≤ oneFixed := by
  have hle := angleFixed_le hu
  calc angleSquared bw u ≤ oneFixed * oneFixed / 2 ^ 128 := Nat.div_le_div_right (Nat.mul_le_mul hle hle)
    _ = oneFixed := Nat.mul_div_cancel _ (Nat.two_pow_pos 128)

/-! ## The first octant -/

theorem abs_hornerFixed_angle_sub_le {off m : ℕ} (hm : m + 2 = 2 * 1 + off) :
    |fixed (hornerFixed (angleSquared bw u) off 20 1) - hornerReal (angle bw u * angle bw u) 20 m| ≤ 8 * ulp := by
  have h0 := angle_nonneg bw u
  have h1 := angle_le_one hu
  exact abs_hornerFixed_sub_le (angleSquared_le hu) (by positivity) (by nlinarith) (abs_angleSquared_sub_le hu) hm
    Nat.one_pos

theorem abs_cosFixed_sub_le : |fixed (cosFixed bw u) - Real.cos (angle bw u)| ≤ 9 * ulp := by
  have hhorner := abs_hornerFixed_angle_sub_le hu (off := 0) (m := 0) rfl
  have hcut := abs_hornerReal_sub_cos_le (angle_nonneg bw u) (angle_le_one hu)
  refine (abs_sub_le _ (hornerReal (angle bw u * angle bw u) 20 0) _).trans ?_
  rw [cosFixed]
  linarith

theorem abs_sinFixed_sub_le : |fixed (sinFixed bw u) - Real.sin (angle bw u)| ≤ 12 * ulp := by
  have hulp := ulp_pos
  have h0 := angle_nonneg bw u
  have h1 := angle_le_one hu
  have hhorner := abs_hornerFixed_angle_sub_le hu (off := 1) (m := 1) rfl
  have hcut := abs_mul_hornerReal_sub_sin_le h0 h1
  have ⟨hlow, hup⟩ := angleFixed_bounds hu
  have hh0 := fixed_nonneg (hornerFixed (angleSquared bw u) 1 20 1)
  have hh1 := fixed_le_one (hornerFixed_le (angleSquared bw u) 1 20 1)
  have ⟨hmullow, hmulup⟩ := fixed_mul_div_bounds (angleFixed bw u) (hornerFixed (angleSquared bw u) 1 20 1) Nat.one_pos
  rw [Nat.div_one, ← sinFixed, Nat.cast_one, div_one] at hmullow hmulup
  generalize fixed (hornerFixed (angleSquared bw u) 1 20 1) = h at *
  generalize hornerReal (angle bw u * angle bw u) 20 1 = r at *
  have hprod : |fixed (angleFixed bw u) * h - angle bw u * r| ≤ 10 * ulp := by
    have hsplit : fixed (angleFixed bw u) * h - angle bw u * r =
        (fixed (angleFixed bw u) - angle bw u) * h + angle bw u * (h - r) := by ring
    have hangle : |fixed (angleFixed bw u) - angle bw u| ≤ 2 * ulp := by rw [abs_le]; constructor <;> linarith
    rw [hsplit]
    refine (abs_add_le _ _).trans ?_
    rw [abs_mul, abs_mul, abs_of_nonneg hh0, abs_of_nonneg h0]
    nlinarith [abs_nonneg (fixed (angleFixed bw u) - angle bw u), abs_nonneg (h - r)]
  rw [abs_le] at hprod hcut ⊢
  constructor <;> linarith [hprod.1, hprod.2, hcut.1, hcut.2]

theorem sinFixed_le : sinFixed bw u ≤ oneFixed := by
  calc sinFixed bw u ≤ oneFixed * oneFixed / 2 ^ 128 :=
        Nat.div_le_div_right (Nat.mul_le_mul (angleFixed_le hu) (hornerFixed_le _ _ _ _))
    _ = oneFixed := Nat.mul_div_cancel _ (Nat.two_pow_pos 128)

end

/-! ## The rounded entry -/

/-- What the statement about the ROM says of an entry `r` and an exact value `c`. -/
def NearTo (r : F32) (c : ℝ) : Prop :=
  |(f32Val r : ℝ) - 2 ^ 149 * c| ≤ 2 ^ (f32Exp r - 1) / 2 + 2 ^ 49 ∧
  ∀ x : F32, isNaN x = false → isInf x = false →
    |(f32Val r : ℝ) - 2 ^ 149 * c| ≤ |(f32Val x : ℝ) - 2 ^ 149 * c| + 2 ^ 50

/-- A sign as a factor. -/
def signed (neg : Bool) (w : ℝ) : ℝ := if neg then -w else w

/-- The quanta of an entry: a magnitude of at most 1 is rounded to at most 1. -/
theorem exists_fixedBits {v : ℕ} (hv : v ≤ oneFixed) :
    ∃ k q, Rounds (fixed v * 2 ^ 149) k q ∧ fixedBits v = k * 2 ^ 23 + q := by
  obtain ⟨k, q, h, hround⟩ := exists_roundUnits (v * 2 ^ 21) Nat.one_pos
  have hvalue : ((v * 2 ^ 21 : ℕ) / (1 : ℕ) : ℝ) = fixed v * 2 ^ 149 := by
    rw [fixed, ulp, Nat.cast_one, div_one, Nat.cast_mul, Nat.cast_pow, Nat.cast_ofNat, mul_one_div, div_mul_eq_mul_div,
      mul_div_assoc]
    norm_num
  rw [hvalue] at h
  have hle : k * 2 ^ 23 + q ≤ 0x3F800000 := by
    refine h.le_of_le ?_
    rw [magOf_one, Nat.cast_pow, Nat.cast_ofNat]
    exact mul_le_of_le_one_left (by positivity) (fixed_le_one hv)
  refine ⟨k, q, h.toRounds, ?_⟩
  rw [fixedBits, hround, Nat.min_eq_left (hle.trans (by decide)), Nat.min_eq_left hle]

theorem hasSignOf_roundFixed (neg : Bool) (v : ℕ) : HasSignOf (roundFixed neg v) (signed neg (fixed v) * 2 ^ 149) := by
  have h0 : 0 ≤ fixed v * 2 ^ 149 := mul_nonneg (fixed_nonneg v) (by positivity)
  rw [HasSignOf, roundFixed_eq, f32Neg_packF32 (fixedBits_lt v)]
  cases neg with
  | false => exact ⟨fun _ => rfl, fun h => absurd h h0.not_gt⟩
  | true =>
    have hneg : signed true (fixed v) * 2 ^ 149 = -(fixed v * 2 ^ 149) := neg_mul _ _
    rw [hneg]
    refine ⟨fun h => absurd (neg_pos.1 h) h0.not_gt, fun h => ?_⟩
    rw [Bool.true_and, bne_iff_ne]
    rintro rfl
    simp [fixed] at h

/-- A fixed-point value within `2^28` units of the exact one is rounded to an entry as the statement asks. -/
theorem nearTo_roundFixed {neg : Bool} {v : ℕ} {c : ℝ} (hv : v ≤ oneFixed)
    (hc : |signed neg (fixed v) - c| ≤ 2 ^ 28 * ulp) : NearTo (roundFixed neg v) c := by
  obtain ⟨k, q, h, hbits⟩ := exists_fixedBits hv
  have hsign := hasSignOf_roundFixed neg v
  have hrbits : f32Bits (roundFixed neg v) = k * 2 ^ 23 + q := by
    rw [roundFixed_eq, f32Bits_packF32 (fixedBits_lt v), hbits]
  have habs : |signed neg (fixed v) * 2 ^ 149| = fixed v * 2 ^ 149 := by
    rw [abs_mul, abs_of_pos (by positivity : (0 : ℝ) < 2 ^ 149)]
    cases neg <;> simp [signed, abs_of_nonneg (fixed_nonneg v)]
  have herr : |signed neg (fixed v) * 2 ^ 149 - 2 ^ 149 * c| ≤ 2 ^ 49 := by
    rw [mul_comm (2 ^ 149 : ℝ) c, ← sub_mul, abs_mul, abs_of_pos (by positivity : (0 : ℝ) < 2 ^ 149)]
    refine (mul_le_mul_of_nonneg_right hc (by positivity)).trans_eq ?_
    unfold ulp
    norm_num
  rw [← habs] at h
  have hlast : |signed neg (fixed v) * 2 ^ 149 - f32Val (roundFixed neg v)| ≤ 2 ^ (f32Exp (roundFixed neg v) - 1) / 2 := by
    rw [abs_sub_f32Val_of_hasSignOf hsign, f32Exp_eq, hrbits]
    exact h.near_lastPlace
  have hnearest := h.f32_nearest hsign hrbits
  generalize signed neg (fixed v) * 2 ^ 149 = w at *
  refine ⟨?_, fun x _ _ => ?_⟩
  · have := abs_sub_le (f32Val (roundFixed neg v) : ℝ) w (2 ^ 149 * c)
    rw [abs_sub_comm _ w] at this
    exact this.trans (add_le_add hlast herr)
  · have h1 := abs_sub_le (f32Val (roundFixed neg v) : ℝ) w (2 ^ 149 * c)
    have h2 := abs_sub_le w (2 ^ 149 * c) (f32Val x)
    rw [abs_sub_comm _ w] at h1
    rw [abs_sub_comm (2 ^ 149 * c)] at h2
    linarith [hnearest x]

/-! ## The fold -/

theorem abs_signed_sub (neg : Bool) (a b : ℝ) : |signed neg a - signed neg b| = |a - b| := by
  cases neg
  · rfl
  · simp only [signed, if_true, neg_sub_neg, abs_sub_comm]

section
variable {bw : BitWidth} {u : ℕ} (hu : 8 * u ≤ bw.size)
include hu

theorem nearTo_cosFixed (neg : Bool) : NearTo (roundFixed neg (cosFixed bw u)) (signed neg (Real.cos (angle bw u))) := by
  refine nearTo_roundFixed (hornerFixed_le _ _ _ _) ?_
  rw [abs_signed_sub]
  linarith [abs_cosFixed_sub_le hu, ulp_pos]

theorem nearTo_sinFixed (neg : Bool) : NearTo (roundFixed neg (sinFixed bw u)) (signed neg (Real.sin (angle bw u))) := by
  refine nearTo_roundFixed (sinFixed_le hu) ?_
  rw [abs_signed_sub]
  linarith [abs_sinFixed_sub_le hu, ulp_pos]

end

theorem angle_sub (bw : BitWidth) {t u : ℕ} (h : t ≤ u) : angle bw (u - t) = angle bw u - angle bw t := by
  unfold angle
  rw [Nat.cast_sub h]
  ring

theorem angle_quarter (bw : BitWidth) : angle bw (bw.size / 4) = Real.pi / 2 := by
  obtain ⟨m, hm, hsize⟩ := exists_size_eq bw
  have hm' : (m : ℝ) ≠ 0 := by exact_mod_cast hm.ne'
  rw [angle, hsize, Nat.mul_div_cancel_left _ (by decide)]
  push_cast
  field_simp
  norm_num

theorem angle_half (bw : BitWidth) : angle bw (bw.size / 2) = Real.pi := by
  obtain ⟨m, hm, hsize⟩ := exists_size_eq bw
  have hm' : (m : ℝ) ≠ 0 := by exact_mod_cast hm.ne'
  have hhalf : 4 * m / 2 = 2 * m := by omega
  rw [angle, hsize, hhalf]
  push_cast
  field_simp
  norm_num

/-- Settles O60: each octant is folded into the first by a symmetry of cosine and sine. -/
theorem romEntriesAreTheRoundedFactors : Obligations.RomEntriesAreTheRoundedFactors := by
  intro bw t ht
  show NearTo (twiddle bw t).re (Real.cos (angle bw t)) ∧ NearTo (twiddle bw t).im (-Real.sin (angle bw t))
  obtain ⟨m, hm, hsize⟩ := exists_size_eq bw
  unfold twiddle
  split
  next h => exact ⟨nearTo_cosFixed h false, nearTo_sinFixed h true⟩
  next h =>
    split
    · have hcos := nearTo_cosFixed (bw := bw) (u := bw.size / 4 - t) (by omega) true
      have hsin := nearTo_sinFixed (bw := bw) (u := bw.size / 4 - t) (by omega) false
      rw [angle_sub bw (by omega), angle_quarter] at hcos hsin
      rw [Real.cos_pi_div_two_sub] at hcos
      rw [Real.sin_pi_div_two_sub] at hsin
      exact ⟨hsin, hcos⟩
    · split
      · have hcos := nearTo_cosFixed (bw := bw) (u := t - bw.size / 4) (by omega) true
        have hsin := nearTo_sinFixed (bw := bw) (u := t - bw.size / 4) (by omega) true
        rw [angle_sub bw (by omega), angle_quarter] at hcos hsin
        rw [Real.cos_sub_pi_div_two] at hcos
        rw [Real.sin_sub_pi_div_two, signed, if_pos rfl, neg_neg] at hsin
        exact ⟨hsin, hcos⟩
      · have hcos := nearTo_cosFixed (bw := bw) (u := bw.size / 2 - t) (by omega) true
        have hsin := nearTo_sinFixed (bw := bw) (u := bw.size / 2 - t) (by omega) true
        rw [angle_sub bw (by omega), angle_half] at hcos hsin
        rw [Real.cos_pi_sub, signed, if_pos rfl, neg_neg] at hcos
        rw [Real.sin_pi_sub] at hsin
        exact ⟨hcos, hsin⟩

end Sys2Proof.Machine
end

section
/-!
PROOF. The bit reversal bit by bit and as the stated sum (R140), its laws (R142), and the command that answers it (R141).
-/

namespace Sys2Proof.Machine

/-! ## The bits of the reversed value (R140) -/

/-- One more bit: the reversed value moves up and bit `nb` of `v` comes in at the bottom. -/
theorem rev_succ (v nb : Nat) : rev v (nb + 1) = 2 * rev v nb + (v.testBit nb).toNat := by
  rw [rev, Nat.toNat_testBit]

theorem rev_eq_sum (v nb : Nat) : rev v nb = ∑ k ∈ Finset.range nb, (v.testBit k).toNat * 2 ^ (nb - 1 - k) := by
  induction nb with
  | zero => rfl
  | succ nb ih =>
    have hshift : ∀ k ∈ Finset.range nb,
        2 * ((v.testBit k).toNat * 2 ^ (nb - 1 - k)) = (v.testBit k).toNat * 2 ^ (nb - k) := fun k hk => by
      have hlt : k < nb := Finset.mem_range.1 hk
      have hexp : nb - k = nb - 1 - k + 1 := by omega
      rw [hexp, pow_succ', Nat.mul_left_comm]
    rw [rev_succ, ih, Finset.mul_sum, Finset.sum_congr rfl hshift, Finset.sum_range_succ, Nat.add_sub_cancel, Nat.sub_self,
      pow_zero, mul_one]

theorem testBit_rev (v nb j : Nat) : (rev v nb).testBit j = (decide (j < nb) && v.testBit (nb - 1 - j)) := by
  induction nb generalizing j with
  | zero => simp [rev]
  | succ nb ih =>
    rw [rev_succ]
    cases j with
    | zero => cases h : v.testBit nb <;> simp [h]
    | succ j =>
      have hbit : (v.testBit nb).toNat < 2 := Bool.toNat_lt _
      have hhalf : (2 * rev v nb + (v.testBit nb).toNat) / 2 = rev v nb := by omega
      have hindex : nb + 1 - 1 - (j + 1) = nb - 1 - j := by omega
      rw [Nat.testBit_succ, hhalf, ih, hindex]
      simp only [Nat.add_lt_add_iff_right]

/-- The higher bits do not matter: the sum reads the low ones only. -/
theorem rev_congr {v w nb : Nat} (h : ∀ k < nb, v.testBit k = w.testBit k) : rev v nb = rev w nb := by
  rw [rev_eq_sum, rev_eq_sum]
  exact Finset.sum_congr rfl fun k hk => by rw [h k (Finset.mem_range.1 hk)]

theorem rev_mod_two_pow (v nb : Nat) : rev (v % 2 ^ nb) nb = rev v nb :=
  rev_congr fun k hk => by rw [Nat.testBit_mod_two_pow, decide_eq_true hk, Bool.true_and]

/-! ## `BITREV` (R141) -/

theorem exec_bitrev (nb : BitVec 5) (v : BitVec 23) (s : State) :
    exec (.bitrev nb v) s = .next ((s.push [BitVec.ofNat 32 (rev v.toNat nb.toNat)]).retire 1) := rfl

/-- At most 31 bits are reversed, so the result fits the response word. -/
theorem rev_lt_word (v : Nat) (nb : BitVec 5) : rev v nb.toNat < 2 ^ 32 :=
  calc rev v nb.toNat < 2 ^ nb.toNat := rev_lt v _
    _ ≤ 2 ^ 32 := Nat.pow_le_pow_right Nat.two_pos (by omega)

/-! ## The statements -/

/-- Settles O23: each clause from the bits of the reversed value or from the sum. -/
theorem bitReversalIsTheStatedSum : Obligations.BitReversalIsTheStatedSum := by
  intro v nb
  refine ⟨rev_eq_sum v nb, fun k hk => ?_, fun k hk => ?_, fun w hw => rev_congr hw, rfl⟩
  · have hlt : nb - 1 - k < nb := by omega
    have hback : nb - 1 - (nb - 1 - k) = k := by omega
    rw [testBit_rev, decide_eq_true hlt, hback, Bool.true_and]
  · rw [testBit_rev, decide_eq_false (Nat.not_lt.2 hk), Bool.false_and]

/-- Settles O24: law 4 peels off the lowest bit of the operand, law 5 the highest. -/
theorem bitReversalLaws : Obligations.BitReversalLaws := by
  refine ⟨rev_lt, fun v nb => (rev_mod_two_pow v nb).symm, rev_rev, fun b s _ => ?_, fun q nb hnb hq => ?_⟩
  · have hhalf : (2 * b + 1) / 2 = b := by omega
    have hlow : (2 * b + 1) % 2 = 1 := by omega
    constructor
    · rw [rev_succ_low, Nat.mul_div_cancel_left b Nat.two_pos, Nat.mul_mod_right, Nat.zero_mul, Nat.add_zero]
    · rw [rev_succ_low, hhalf, hlow, Nat.one_mul]
  · obtain ⟨n, rfl⟩ := Nat.exists_eq_add_of_le' hnb
    rw [Nat.add_sub_cancel] at hq ⊢
    constructor
    · rw [rev_succ, Nat.testBit_lt_two_pow hq, Bool.toNat_false, Nat.add_zero]
    · have htop : (q + 2 ^ n).testBit n = true := by
        rw [Nat.add_comm, Nat.testBit_two_pow_add_eq, Nat.testBit_lt_two_pow hq, Bool.not_false]
      have hrest : rev (q + 2 ^ n) n = rev q n := by rw [← rev_mod_two_pow, Nat.add_mod_right, rev_mod_two_pow]
      rw [rev_succ, htop, hrest, Bool.toNat_true]

/-- Settles O25: the word pushed holds the whole reversed value. -/
theorem bitrevAnswersTheReversedValue : Obligations.BitrevAnswersTheReversedValue := by
  intro s nb v
  refine ⟨_, _, exec_bitrev nb v s, ⟨rfl, rfl, rfl⟩, rfl, ?_, fun _ _ => rfl, rfl, ⟨rfl, rfl⟩, ⟨rfl, rfl, rfl⟩⟩
  rw [BitVec.toNat_ofNat, Nat.mod_eq_of_lt (rev_lt_word _ nb), rev_eq_sum]

end Sys2Proof.Machine
end

section
/-!
PROOF. The tiling of the Buffer by the blocks of a stage, the two orders in which a block is indexed (R145, R150), and the
straight combine of one block (R146).
-/

namespace Sys2Proof.Machine

/-! ## The blocks of a stage (R145) -/

/-- A block has at least one butterfly, and block 0 of stage 0 is the whole Buffer. -/
theorem blockSize_bounds (bw : BitWidth) {bp : Nat} (hbp : bp < bw.val) :
    2 ≤ blockSize bw bp ∧ blockSize bw bp ≤ bw.size := by
  have hhalf := blockSize_half bw hbp
  have hpos := half_blockSize_pos hbp
  exact ⟨by omega, Nat.shiftRight_le _ _⟩

/-- Element `p` lies in block `p / M` and in no other. -/
theorem existsUnique_block (bw : BitWidth) {bp p : Nat} (hbp : bp < bw.val) (hp : p < bw.size) :
    ∃! blk, blk < 2 ^ bp ∧ blk * blockSize bw bp ≤ p ∧ p < blk * blockSize bw bp + blockSize bw bp := by
  have hpos : 0 < blockSize bw bp := Nat.zero_lt_two.trans_le (blockSize_bounds bw hbp).1
  refine ⟨p / blockSize bw bp, ⟨?_, Nat.div_mul_le_self _ _, Nat.lt_div_mul_add hpos⟩, fun blk ⟨_, hlo, hhi⟩ => ?_⟩
  · rwa [Nat.div_lt_iff_lt_mul hpos, blocks_tile bw hbp]
  · exact (Nat.div_eq_of_lt_le hlo (by rwa [Nat.succ_mul])).symm

/-! ## Indices in a block (R150) -/

/-- `n` rows of `k` elements from `base` on: an element is in one row at one place, quotient and remainder by `k`. -/
theorem existsUnique_row_place {base n k p : Nat} (hlo : base ≤ p) (hhi : p < base + n * k) :
    ∃! x : Nat × Nat, x.1 < n ∧ x.2 < k ∧ p = base + x.1 * k + x.2 := by
  have hr : p - base < n * k := by omega
  have hk : 0 < k := Nat.pos_of_mul_pos_left (Nat.zero_lt_of_lt hr)
  have hsplit : (p - base) / k * k + (p - base) % k = p - base := Nat.div_add_mod' _ _
  refine ⟨((p - base) / k, (p - base) % k), ⟨(Nat.div_lt_iff_lt_mul hk).2 hr, Nat.mod_lt _ hk, by dsimp only; omega⟩, ?_⟩
  rintro ⟨row, place⟩ ⟨-, hplace, hp⟩
  dsimp only at hplace hp
  have hrest : place + k * row = p - base := by rw [Nat.mul_comm]; omega
  obtain ⟨hrow, hrem⟩ := (Nat.div_mod_unique hk).2 ⟨hrest, hplace⟩
  rw [hrow, hrem]

section
variable {base half p : Nat}

/-- The source indices: `half` rows of two, the even and the odd element of a butterfly. -/
theorem existsUnique_sourceIndex (hlo : base ≤ p) (hhi : p < base + 2 * half) :
    ∃! ih : Nat × Nat, ih.1 < half ∧ ih.2 < 2 ∧ p = base + 2 * ih.1 + ih.2 := by
  rw [Nat.mul_comm] at hhi
  simpa only [Nat.mul_comm 2] using existsUnique_row_place hlo hhi

/-- The destination indices: two rows of `half`, the lower and the upper half of the block. -/
theorem existsUnique_destIndex (hlo : base ≤ p) (hhi : p < base + 2 * half) :
    ∃! ih : Nat × Nat, ih.1 < half ∧ ih.2 < 2 ∧ p = base + ih.2 * half + ih.1 :=
  ((Equiv.prodComm Nat Nat).existsUnique_congr fun {_} => and_left_comm).1 (existsUnique_row_place hlo hhi)

end

/-- Settles O29: the parts are assembled over the two halves of a block, at its base. -/
theorem blocksCoverTheBufferOnce : Obligations.BlocksCoverTheBufferOnce := by
  intro bw bp hbp m
  have hhalf : m = 2 * (m / 2) := blockSize_half bw hbp
  obtain ⟨hmin, hmax⟩ := blockSize_bounds bw hbp
  refine ⟨hmin, hmax, fun p hp => existsUnique_block bw hbp hp,
    fun blk hblk => ⟨block_end_le bw hbp hblk, fun p hlo hhi => ?_⟩, fun blk _ i hi h hh => ?_⟩
  · have hhi' : p < blk * m + 2 * (m / 2) := by omega
    exact ⟨existsUnique_sourceIndex hlo hhi', existsUnique_destIndex hlo hhi'⟩
  · have hrow : h * (m / 2) ≤ 1 * (m / 2) := Nat.mul_le_mul_right _ (Nat.le_of_lt_succ hh)
    omega

/-! ## `SCOMB` (R146) -/

/-- A straight combine of a full block completes, and leaves the image of the block in the destination. -/
theorem exec_scomb_of_holds {s : State} {bp : BitVec 5} {blk : BitVec 23} (hbp : bp.toNat < s.bw.val)
    (hblk : blk.toNat < 2 ^ bp.toNat)
    (hfull : Holds (s.bufs.get (sourceOf s.par)) (blockBase s.bw bp.toNat blk.toNat)
      (blockBase s.bw bp.toNat blk.toNat + blockSize s.bw bp.toNat)) :
    ∃ d, exec (.scomb bp blk) s = .next ({ s with bufs := s.bufs.set (destOf s.par) d }.retire 1) ∧
      ∀ p, Memory.read d p = blockImage (fun _ x y => (x, y)) (s.bufs.get (sourceOf s.par))
        (blockBase s.bw bp.toNat blk.toNat) (blockSize s.bw bp.toNat / 2) (blockSize s.bw bp.toNat / 2)
        (s.bufs.get (destOf s.par)) p := by
  obtain ⟨d, hd⟩ := combineBlock_ok binary32 .straight s.bw s.cmdPos bp.toNat (sourceOf s.par)
    (s.bufs.get (sourceOf s.par)) blk.toNat (s.bufs.get (destOf s.par))
    (fun j hlo hhi => hfull j (by rwa [blockSize_half s.bw hbp]) hlo)
  exact ⟨d, ranged_eq_of_wf (combine_inRange_iff.2 ⟨hbp, hblk⟩) (by rw [runCombine, hd, outcomeOf_ok]),
    combineBlock_read binary32 .straight s.bw s.cmdPos bp.toNat _ _ blk.toNat _ d hd⟩

/-- Settles O30: the image of the block at an element of the lower half is the even element of the pair, of the upper half
the odd one. -/
theorem scombDeinterleavesTheBlock : Obligations.ScombDeinterleavesTheBlock := by
  intro s bp blk hbp hblk m base src hfull
  have hhalf : m = 2 * (m / 2) := blockSize_half s.bw hbp
  obtain ⟨d, hd, hread⟩ := exec_scomb_of_holds hbp hblk hfull
  refine ⟨_, hd, ⟨rfl, rfl, rfl⟩, fun i hi => ?_, fun p hp => ?_, fun p => ?_, rfl, rfl, ⟨rfl, rfl⟩, ⟨rfl, rfl, rfl⟩⟩
  · obtain ⟨x, hx⟩ := Option.isSome_iff_exists.1 (hfull (base + 2 * i) (by omega) (by omega))
    obtain ⟨y, hy⟩ := Option.isSome_iff_exists.1 (hfull (base + 2 * i + 1) (by omega) (by omega))
    rw [State.retire_bufs, Bufs.get_set_same, hread, hread, hx, hy]
    exact ⟨blockImage_lower hi hx hy, blockImage_upper hi hx hy⟩
  · rw [State.retire_bufs, Bufs.get_set_same, hread]
    refine blockImage_of_outside ?_
    show p < base ∨ base + 2 * (m / 2) ≤ p
    rwa [← hhalf]
  · rw [State.retire_bufs, Bufs.get_source_set_dest]

end Sys2Proof.Machine
end

section
/-!
PROOF. The commands of the decimation driver: a stage over a full source butterfly by butterfly (R160 to R162), the straight
decimation as the bit-reversal permutation (R163, R165), and the twiddle decimation as its chain of stages (R164).
-/

namespace Sys2Proof.Machine

/-! ## The image of a stage at the two elements a butterfly writes -/

section
variable {F : Type} {num : Num F} {kind : Combine} {bw : BitWidth} {pos bp : Nat}

/-- The element `i` places after the base of a block lies in that block. -/
theorem blockBase_add_div {blk i : Nat} (hi : i < blockSize bw bp) :
    (blockBase bw bp blk + i) / blockSize bw bp = blk :=
  Nat.div_eq_of_lt_le (Nat.le_add_right _ _) (by rw [Nat.succ_mul]; exact Nat.add_lt_add_left hi _)

section
variable {src : Memory F} {blk i : Nat} {a b : Sample F}

theorem stageImage_lower (hbp : bp < bw.val) (hi : i < blockSize bw bp / 2)
    (ha : Memory.read src (blockBase bw bp blk + 2 * i) = some a)
    (hb : Memory.read src (blockBase bw bp blk + 2 * i + 1) = some b) :
    stageImage num kind bw pos bp src (blockBase bw bp blk + i) = some (butterfly num kind bw pos bp blk i a b).1 :=
  (blockImage_eq_stageImage num kind bw pos bp src [] hbp blk _ (blockBase_add_div (by omega))).symm.trans
    (blockImage_lower hi ha hb)

theorem stageImage_upper (hbp : bp < bw.val) (hi : i < blockSize bw bp / 2)
    (ha : Memory.read src (blockBase bw bp blk + 2 * i) = some a)
    (hb : Memory.read src (blockBase bw bp blk + 2 * i + 1) = some b) :
    stageImage num kind bw pos bp src (blockBase bw bp blk + blockSize bw bp / 2 + i) =
      some (butterfly num kind bw pos bp blk i a b).2 := by
  have hblock : (blockBase bw bp blk + blockSize bw bp / 2 + i) / blockSize bw bp = blk := by
    rw [Nat.add_assoc]; exact blockBase_add_div (by omega)
  exact (blockImage_eq_stageImage num kind bw pos bp src [] hbp blk _ hblock).symm.trans (blockImage_upper hi ha hb)

end

/-! ## A stage over a full source -/

/-- The outputs of every butterfly of stage `bp` over source values `v` are in the two halves of their block (R161, R162). -/
def HoldsButterflies (num : Num F) (kind : Combine) (bw : BitWidth) (pos bp : Nat) (v : Nat → Sample F)
    (dst : Memory F) : Prop :=
  ∀ blk < 2 ^ bp, ∀ i < blockSize bw bp / 2,
    let out := butterfly num kind bw pos bp blk i (v (blockBase bw bp blk + 2 * i)) (v (blockBase bw bp blk + 2 * i + 1))
    Memory.read dst (blockBase bw bp blk + i) = some out.1 ∧
      Memory.read dst (blockBase bw bp blk + blockSize bw bp / 2 + i) = some out.2

/-- The two source elements of a butterfly are elements of the Buffer. -/
theorem butterfly_source_lt (hbp : bp < bw.val) {blk i h : Nat} (hblk : blk < 2 ^ bp) (hi : i < blockSize bw bp / 2)
    (hh : h < 2) : blockBase bw bp blk + 2 * i + h < bw.size := by
  have hend := block_end_le bw hbp hblk
  omega

section
variable {x y : Pipeline F}

theorem stage_holdsButterflies {v : Nat → Sample F} (hbp : bp < bw.val)
    (hv : ∀ j < bw.size, Memory.read (x.bufs.get (sourceOf x.par)) j = some (v j)) :
    ∃ y, stage num kind bw pos bp x = .ok y ∧ HoldsButterflies num kind bw pos bp v (y.bufs.get (destOf x.par)) := by
  obtain ⟨y, hy⟩ := stage_ok num kind bw pos bp x hbp fun j hj => by rw [hv j hj]; rfl
  obtain ⟨-, -, hread⟩ := stage_spec num kind bw pos bp x y hbp hy
  refine ⟨y, hy, fun blk hblk i hi => ?_⟩
  have hend := block_end_le bw hbp hblk
  have ha := hv _ (butterfly_source_lt hbp hblk hi Nat.zero_lt_two)
  have hb := hv _ (butterfly_source_lt hbp hblk hi Nat.one_lt_two)
  rw [hread, if_pos (by omega), hread, if_pos (by omega)]
  exact ⟨stageImage_lower hbp hi ha hb, stageImage_upper hbp hi ha hb⟩

/-! ## What a stage and a decimation leave unchanged -/

/-- A stage writes no index from `N` on, in either Buffer. -/
theorem stage_read_outside (hbp : bp < bw.val) (h : stage num kind bw pos bp x = .ok y) (b : Bit) {p : Nat}
    (hp : bw.size ≤ p) : Memory.read (y.bufs.get b) p = Memory.read (x.bufs.get b) p := by
  obtain ⟨-, hsrc, hread⟩ := stage_spec num kind bw pos bp x y hbp h
  rcases eq_sourceOf_or_destOf x.par b with rfl | rfl
  · rw [hsrc]
  · rw [hread, if_neg (Nat.not_lt.2 hp)]

theorem decimate_read_outside {count : Nat} (hcount : count ≤ bw.val) (h : decimate num kind bw pos count x = .ok y)
    (b : Bit) {p : Nat} (hp : bw.size ≤ p) : Memory.read (y.bufs.get b) p = Memory.read (x.bufs.get b) p :=
  loop_inv (P := fun _ (z : Pipeline F) => Memory.read (z.bufs.get b) p = Memory.read (x.bufs.get b) p)
    (fun _ _ _ _ hk hz hz' => (stage_read_outside (by omega) hz' b hp).trans hz) rfl h

theorem decimate_one (num : Num F) (kind : Combine) (bw : BitWidth) (pos : Nat) (x : Pipeline F) :
    decimate num kind bw pos 1 x = stage num kind bw pos 0 x := by
  rw [decimate, loop_succ]
  cases stage num kind bw pos 0 x <;> rfl

end

end

/-! ## The commands -/

/-- The values of a full range of elements. -/
theorem Holds.exists_values {m : Memory F32} {n : Nat} (h : Holds m 0 n) :
    ∃ v : Nat → Sample F32, ∀ j < n, Memory.read m j = some (v j) :=
  ⟨fun j => (Memory.read m j).getD zeroSample, fun j hj =>
    (Option.getD_of_ne_none (Option.isSome_iff_ne_none.1 (h j hj (Nat.zero_le j))) _).symm⟩

section
variable {s : State} {x : Pipeline F32}

/-- A command over the Buffers and `PAR` completes where its computation does. -/
theorem outcomeOf_runPipeline_of_ok {f : Pipeline F32 → Except Fault (Pipeline F32)} (h : f s.pipeline = .ok x) :
    outcomeOf (runPipeline f s) = .next ((s.setPipeline x).retire 1) := by
  rw [runPipeline, h, outcomeOf_ok]

theorem exec_sstg_of_ok {bp : BitVec 5} (hbp : bp.toNat < s.bw.val)
    (h : stage binary32 .straight s.bw s.cmdPos bp.toNat s.pipeline = .ok x) :
    exec (.sstg bp) s = .next ((s.setPipeline x).retire 1) :=
  ranged_eq_of_wf (decide_eq_true hbp) (outcomeOf_runPipeline_of_ok h)

theorem exec_tstg_of_ok {bp : BitVec 5} (hbp : bp.toNat < s.bw.val)
    (h : stage binary32 .twiddle s.bw s.cmdPos bp.toNat s.pipeline = .ok x) :
    exec (.tstg bp) s = .next ((s.setPipeline x).retire 1) :=
  ranged_eq_of_wf (decide_eq_true hbp) (outcomeOf_runPipeline_of_ok h)

theorem exec_sdec_of_ok (h : straightDecimation binary32 s.bw s.cmdPos s.pipeline = .ok x) :
    exec .sdec s = .next ((s.setPipeline x).retire 1) := outcomeOf_runPipeline_of_ok h

theorem exec_tdec_of_ok (h : twiddleDecimation binary32 s.bw s.cmdPos s.pipeline = .ok x) :
    exec .tdec s = .next ((s.setPipeline x).retire 1) := outcomeOf_runPipeline_of_ok h

end

/-- Settles O33: a straight butterfly answers its two operands, so the half `h` of a block holds its elements `2i + h`. -/
theorem sstgPermutesTheBuffer : Obligations.SstgPermutesTheBuffer := by
  intro s bp hbp hfull m
  obtain ⟨v, hv⟩ := hfull.exists_values
  obtain ⟨y, hy, hout⟩ := stage_holdsButterflies (x := s.pipeline) hbp hv
  obtain ⟨hpar, hsrc, -⟩ := stage_spec _ _ _ _ _ _ _ hbp hy
  refine ⟨_, exec_sstg_of_ok hbp hy, ⟨rfl, rfl, rfl⟩, fun blk hblk h hh i hi => ?_,
    fun p hp => stage_read_outside hbp hy _ hp, fun p => congrArg (Memory.read · p) hsrc,
    (congrArg BitVec.toNat hpar).trans (nextPar_toNat s.par), rfl, rfl, rfl, rfl, rfl, rfl⟩
  obtain ⟨hlower, hupper⟩ := hout blk hblk i hi
  refine Eq.trans ?_ (hv _ (butterfly_source_lt hbp hblk hi hh)).symm
  obtain rfl | rfl : h = 0 ∨ h = 1 := by omega
  · rw [Nat.zero_mul]; exact hlower
  · rw [Nat.one_mul]; exact hupper

/-- Settles O34: a twiddle butterfly answers the sum and the difference of `a` and `b · W`, with the factor of its block. -/
theorem tstgAppliesEveryButterfly : Obligations.TstgAppliesEveryButterfly := by
  intro s bp v hbp hv m w site
  obtain ⟨y, hy, hout⟩ := stage_holdsButterflies (x := s.pipeline) hbp hv
  obtain ⟨hpar, hsrc, -⟩ := stage_spec _ _ _ _ _ _ _ hbp hy
  refine ⟨_, exec_tstg_of_ok hbp hy, ⟨rfl, rfl, rfl⟩, fun blk hblk i hi => ?_,
    fun p hp => stage_read_outside hbp hy _ hp, fun p => congrArg (Memory.read · p) hsrc,
    (congrArg BitVec.toNat hpar).trans (nextPar_toNat s.par), rfl, rfl, rfl, rfl, rfl, rfl⟩
  have hw : binary32.tw s.bw (twiddleIndex s.bw bp.toNat blk) = w blk := by
    rw [twiddleIndex, Nat.shiftLeft_eq]; rfl
  have houtput := hout blk hblk i hi
  simp only [butterfly, hw] at houtput
  exact houtput

/-- Settles O36: the permutation is the one of `straightDecimation_rev`; with `BW = 2` the decimation is a single stage. -/
theorem sdecIsTheBitReversalPermutation : Obligations.SdecIsTheBitReversalPermutation := by
  intro s hfull
  obtain ⟨v, hv⟩ := hfull.exists_values
  obtain ⟨y, hy, hrev⟩ := straightDecimation_rev binary32 s.bw s.cmdPos s.pipeline v hv
  obtain ⟨y', hy', hpar, -⟩ := decimate_ok binary32 .straight s.bw s.cmdPos (s.bw.val - 1) s.pipeline (Nat.sub_le _ _)
    fun j hj => hfull j hj (Nat.zero_le j)
  obtain rfl : y' = y := Except.ok.inj (hy'.symm.trans hy)
  refine ⟨_, exec_sdec_of_ok hy, ⟨rfl, rfl, rfl⟩, fun p hp => ?_,
    fun b p hp => decimate_read_outside (Nat.sub_le _ _) hy' b hp, fun hbw p => ?_, hpar, rfl, rfl, rfl, rfl, rfl, rfl⟩
  · exact (hrev p hp).trans (hv _ (rev_lt p s.bw.val)).symm
  · rw [hbw, decimate_one] at hy'
    obtain ⟨-, hsrc, -⟩ := stage_spec _ _ _ _ _ _ _ (Nat.zero_lt_of_lt s.bw.low) hy'
    exact congrArg (Memory.read · p) hsrc

/-- Settles O37: a decimation that completes is a chain of stages. -/
theorem tdecRunsItsStagesInOrder : Obligations.TdecRunsItsStagesInOrder := by
  intro s hfull
  obtain ⟨y, hy, hpar, hyfull⟩ := decimate_ok binary32 .twiddle s.bw s.cmdPos s.bw.val s.pipeline le_rfl
    fun j hj => hfull j hj (Nat.zero_le j)
  obtain ⟨c, hfirst, hlast, hstages⟩ := decimate_chain _ _ _ _ _ _ _ hy
  exact ⟨_, c, exec_tdec_of_ok hy, ⟨rfl, rfl, rfl⟩, hfirst, hlast, hstages, hpar, fun j hj _ => hyfull j hj,
    fun b p hp => decimate_read_outside le_rfl hy b hp, rfl, rfl, rfl, rfl, rfl, rfl⟩

end Sys2Proof.Machine
end

section
/-!
PROOF. The transform orchestrator (R175 to R184): `PINIT` and `REBIND`, the three decimations of `FFT` one after the other,
the values they leave, and the Buffer that a `LOAD` after an `FFT` writes.
-/

namespace Sys2Proof.Machine

/-! ## Roles and parity (R25, R175, R179) -/

theorem initialPar_toNat (inSel : Bit) : (initialPar inSel).toNat = inSel.toNat :=
  BitVec.toNat_setWidth_of_le (by decide)

theorem sourceOf_toNat (par : BitVec 8) : (sourceOf par).toNat = par.toNat % 2 := by
  rw [sourceOf, BitVec.extractLsb'_toNat, Nat.shiftRight_zero, Nat.pow_one]

theorem reboundInSel_toNat (par : BitVec 8) : (reboundInSel par).toNat = 1 - par.toNat % 2 :=
  BitVec.toNat_not.trans (congrArg (1 - ·) (sourceOf_toNat par))

/-- After `REBIND` the Buffer bound "output" is the one `PAR` names. -/
theorem not_reboundInSel (par : BitVec 8) : ~~~reboundInSel par = sourceOf par := BitVec.not_not

theorem outputWord_toNat (inSel : Bit) : (outputWord inSel).toNat = 1 - inSel.toNat :=
  (BitVec.toNat_setWidth_of_le (by decide)).trans BitVec.toNat_not

/-! ## A stage that completes -/

section
variable {num : Num F32} {kind : Combine} {bw : BitWidth} {pos bp : Nat} {x y : Pipeline F32}

/-- Its source was full. -/
theorem holds_of_stage_ok (hbp : bp < bw.val) (h : stage num kind bw pos bp x = .ok y) :
    Holds (x.bufs.get (sourceOf x.par)) 0 bw.size :=
  (holds_or_firstMissing _ _ _).resolve_right fun ⟨_, hj, hfirst⟩ => by
    rw [stage_firstMissing hbp hj hfirst] at h; cases h

/-- It leaves both Buffers full: the source as it was, the destination with its image. -/
theorem stage_leaves_full (hbp : bp < bw.val) (h : stage num kind bw pos bp x = .ok y) (b : Bit) :
    Holds (y.bufs.get b) 0 bw.size := by
  have hfull := holds_of_stage_ok hbp h
  obtain ⟨-, hsrc, hread⟩ := stage_spec num kind bw pos bp x y hbp h
  rcases eq_sourceOf_or_destOf x.par b with rfl | rfl
  · rwa [hsrc]
  · intro p hp _
    rw [hread, if_pos hp]
    exact stageImage_isSome num kind bw pos bp _ hbp (fun j hj => hfull j hj (Nat.zero_le j)) p hp

/-- A straight stage moves element `2i + h` of each block to place `i` of the block's half `h` (R146, R161). -/
theorem straightStage_read (hbp : bp < bw.val) (hy : stage num .straight bw pos bp x = .ok y) {blk h i : Nat}
    (hblk : blk < 2 ^ bp) (hh : h < 2) (hi : i < blockSize bw bp / 2) :
    Memory.read (y.bufs.get (destOf x.par)) (blockBase bw bp blk + h * (blockSize bw bp / 2) + i) =
      Memory.read (x.bufs.get (sourceOf x.par)) (blockBase bw bp blk + 2 * i + h) := by
  obtain ⟨v, hv⟩ := (holds_of_stage_ok hbp hy).exists_values
  obtain ⟨y', hy', hout⟩ := stage_holdsButterflies (num := num) (kind := .straight) (pos := pos) hbp hv
  obtain rfl : y' = y := Except.ok.inj (hy'.symm.trans hy)
  obtain ⟨hlower, hupper⟩ := hout blk hblk i hi
  refine Eq.trans ?_ (hv _ (butterfly_source_lt hbp hblk hi hh)).symm
  obtain rfl | rfl : h = 0 ∨ h = 1 := by omega
  · rw [Nat.zero_mul]; exact hlower
  · rw [Nat.one_mul]; exact hupper

/-! ## The last stage of a decimation -/

theorem exists_last_stage {n : Nat} (h : decimate num kind bw pos (n + 1) x = .ok y) :
    ∃ z, stage num kind bw pos n z = .ok y := by
  obtain ⟨c, -, hlast, hstages⟩ := decimate_chain num kind bw pos (n + 1) x y h
  exact ⟨c n, hlast ▸ hstages n n.lt_succ_self⟩

/-- The last straight stage works on blocks of four (R163, R182). -/
theorem straightDecimation_last_stage (h : straightDecimation num bw pos x = .ok y) :
    ∃ z, stage num .straight bw pos (bw.val - 2) z = .ok y := by
  have hlow := bw.low
  rw [straightDecimation, show bw.val - 1 = bw.val - 2 + 1 by omega] at h
  exact exists_last_stage h

end

/-! ## The transform as its three decimations (R176, R177) -/

section
variable {F : Type} {num : Num F} {bw : BitWidth} {pos : Nat} {inSel : Bit} {m : Bufs F} {z : Pipeline F}

theorem transform_ok_iff : transform num bw pos inSel m = .ok z ↔
    ∃ x y, straightDecimation num bw pos ⟨m, initialPar inSel⟩ = .ok x ∧ twiddleDecimation num bw pos x = .ok y ∧
      straightDecimation num bw pos y = .ok z := by
  constructor
  · intro h
    unfold transform at h
    split at h
    · cases h
    next x hx =>
      split at h
      · cases h
      next y hy => exact ⟨x, y, hx, hy, h⟩
  · rintro ⟨x, y, hx, hy, hz⟩
    simp only [transform, hx, hy, hz]

/-- The transform writes no index from `N` on, in either Buffer. -/
theorem transform_read_outside (h : transform num bw pos inSel m = .ok z) (b : Bit) {p : Nat} (hp : bw.size ≤ p) :
    Memory.read (z.bufs.get b) p = Memory.read (m.get b) p := by
  obtain ⟨x, y, hx, hy, hz⟩ := transform_ok_iff.1 h
  calc Memory.read (z.bufs.get b) p = Memory.read (y.bufs.get b) p := decimate_read_outside (Nat.sub_le _ _) hz b hp
    _ = Memory.read (x.bufs.get b) p := decimate_read_outside le_rfl hy b hp
    _ = Memory.read (m.get b) p := decimate_read_outside (Nat.sub_le _ _) hx b hp

/-- The values of the spectrum of `v`: those of the twiddle stages over `v` reversed, reversed again (R180). -/
def spectrumValues (num : Num F) (bw : BitWidth) (pos : Nat) (v : Nat → Sample F) (p : Nat) : Sample F :=
  decimationValues num .twiddle bw pos (fun _ i => v (rev i bw.val)) bw.val (rev p bw.val) 0

/-- The transform of a full input Buffer leaves its spectrum in the Buffer that `PAR` names. -/
theorem transform_read {v : Nat → Sample F} (hv : ∀ i < bw.size, Memory.read (m.get inSel) i = some (v i))
    (h : transform num bw pos inSel m = .ok z) {p : Nat} (hp : p < bw.size) :
    Memory.read (z.bufs.get (sourceOf z.par)) p = some (spectrumValues num bw pos v p) := by
  obtain ⟨x, hx, hxread⟩ := straightDecimation_rev num bw pos ⟨m, initialPar inSel⟩ v (by rwa [sourceOf_initialPar])
  obtain ⟨y, hy, hyblocks⟩ := decimate_holdsBlocks (num := num) (kind := .twiddle) (pos := pos) (le_refl bw.val)
    (holdsBlocks_zero_iff.2 hxread)
  have hyread : ∀ q < bw.size, Memory.read (y.bufs.get (sourceOf y.par)) q =
      some (decimationValues num .twiddle bw pos (fun _ i => v (rev i bw.val)) bw.val q 0) := fun q hq => by
    rw [hyblocks.read le_rfl hq, Nat.sub_self, Nat.pow_zero, Nat.div_one, Nat.mod_one]
  obtain ⟨z', hz', hzread⟩ := straightDecimation_rev num bw pos y _ hyread
  obtain rfl : z' = z := Except.ok.inj ((transform_ok_iff.2 ⟨x, y, hx, hy, hz'⟩).symm.trans h)
  exact hzread p hp

end

section
variable {num : Num F32} {bw : BitWidth} {pos : Nat} {inSel : Bit} {m : Bufs F32} {z : Pipeline F32}

/-- The input Buffer of a transform that completes was full. -/
theorem holds_of_transform_ok (h : transform num bw pos inSel m = .ok z) : Holds (m.get inSel) 0 bw.size :=
  (holds_or_firstMissing _ _ _).resolve_right fun ⟨_, hj, hfirst⟩ => by
    rw [transform_firstMissing hj hfirst] at h; cases h

/-- A transform that completes ends with a straight stage over blocks of four. -/
theorem transform_last_stage (h : transform num bw pos inSel m = .ok z) :
    ∃ x, stage num .straight bw pos (bw.val - 2) x = .ok z := by
  obtain ⟨_, _, _, _, hz⟩ := transform_ok_iff.1 h
  exact straightDecimation_last_stage hz

/-- Its last stage leaves both Buffers full. -/
theorem transform_leaves_full (h : transform num bw pos inSel m = .ok z) (b : Bit) : Holds (z.bufs.get b) 0 bw.size := by
  obtain ⟨x, hx⟩ := transform_last_stage h
  exact stage_leaves_full (Nat.sub_lt (Nat.zero_lt_of_lt bw.low) Nat.zero_lt_two) hx b

end

/-! ## The statements -/

/-- Settles O26: the parity is the role bit zero-extended. -/
theorem pinitSeedsTheParity : Obligations.PinitSeedsTheParity := by
  intro s
  exact ⟨_, rfl, ⟨rfl, rfl, rfl⟩, initialPar_toNat s.inSel, sourceOf_initialPar s.inSel, rfl, fun _ _ => rfl, rfl, rfl,
    ⟨rfl, rfl, rfl⟩⟩

/-- Settles O27: the role bit is the complement of the lowest bit of the parity. -/
theorem rebindNamesTheLiveBuffer : Obligations.RebindNamesTheLiveBuffer := by
  intro s
  exact ⟨_, rfl, ⟨rfl, rfl, rfl⟩, reboundInSel_toNat s.par, not_reboundInSel s.par, rfl, fun _ _ => rfl, rfl, rfl,
    ⟨rfl, rfl, rfl⟩⟩

/-- Settles O38: each decimation leaves the next a full source; together they are `3·BW − 2` stages, one step of `PAR` each,
so `PAR[0]` ends as the complement of the old `IN_SEL` exactly when `BW` is odd. -/
theorem fftRunsItsPhasesAndRebinds : Obligations.FftRunsItsPhasesAndRebinds := by
  intro s hfull
  obtain ⟨x, hx, hxpar, hxfull⟩ := decimate_ok binary32 .straight s.bw s.cmdPos (s.bw.val - 1)
    ⟨s.bufs, initialPar s.inSel⟩ (Nat.sub_le _ _)
    fun j hj => by rw [sourceOf_initialPar]; exact hfull j hj (Nat.zero_le j)
  obtain ⟨y, hy, hypar, hyfull⟩ := decimate_ok binary32 .twiddle s.bw s.cmdPos s.bw.val x le_rfl hxfull
  obtain ⟨z, hz, hzpar, -⟩ := decimate_ok binary32 .straight s.bw s.cmdPos (s.bw.val - 1) y (Nat.sub_le _ _) hyfull
  have htransform : transform binary32 s.bw s.cmdPos s.inSel s.bufs = .ok z := transform_ok_iff.2 ⟨x, y, hx, hy, hz⟩
  have hlow := s.bw.low
  have hhigh := s.bw.high
  have hsel := s.inSel.isLt
  have hpar : z.par.toNat = s.inSel.toNat + (3 * s.bw.val - 2) := by
    rw [initialPar_toNat] at hxpar
    omega
  have hswap : reboundInSel z.par ≠ s.inSel ↔ s.bw.val % 2 = 0 := by
    rw [Ne, ← BitVec.toNat_inj, reboundInSel_toNat, hpar]
    omega
  exact ⟨_, x, y, _, exec_fft_of_ok htransform, ⟨rfl, rfl, rfl⟩, hx, hy, hz, hpar, reboundInSel_toNat z.par, hswap, rfl,
    outputWord_toNat _, transform_leaves_full htransform, fun b _ hp => transform_read_outside htransform b hp, rfl,
    ⟨rfl, rfl, rfl⟩⟩

/-- Settles O41: both runs leave the spectrum of the same values. -/
theorem spectrumDependsOnTheInputDataAlone : Obligations.SpectrumDependsOnTheInputDataAlone := by
  intro bw pos a b m m' y y' hsame hy hy' p hp
  obtain ⟨v, hv⟩ := (holds_of_transform_ok hy).exists_values
  exact (transform_read hv hy hp).trans
    (transform_read (fun i hi => (hsame i hi).symm.trans (hv i hi)) hy' hp).symm

/-- Settles O42: `REBIND` binds "output" to the last stage's destination, so "input" is that stage's source, which it left
as it was. -/
theorem fftLeavesTheLastStagesSource : Obligations.FftLeavesTheLastStagesSource := by
  intro s t ht blk hblk h hh i hi
  cases effect_of_exec ht with
  | @fft y hy =>
    obtain ⟨x, hx⟩ := transform_last_stage hy
    have hlow := s.bw.low
    have hbp : s.bw.val - 2 < s.bw.val := by omega
    have hsize : blockSize s.bw (s.bw.val - 2) = 4 := by
      rw [blockSize_eq s.bw hbp, Nat.sub_sub_self hlow]
      rfl
    obtain ⟨hpar, hsrc, -⟩ := stage_spec _ _ _ _ _ _ _ hbp hx
    have hread := straightStage_read hbp hx hblk hh (by rwa [hsize] : i < _)
    have hsource : sourceOf y.par = destOf x.par := by rw [hpar, sourceOf_nextPar]
    have hinput : reboundInSel y.par = sourceOf x.par := by rw [reboundInSel, hsource, destOf, BitVec.not_not]
    rw [blockBase, hsize] at hread
    simp only [State.retire_inSel, State.retire_bufs, State.push_inSel, State.push_bufs, not_reboundInSel, hsource]
    rw [hinput, hsrc]
    exact hread

/-- Settles O43: a `LOAD` writes the Buffer bound "input" or, while it waits, none. -/
theorem loadAfterFftKeepsTheResult : Obligations.LoadAfterFftKeepsTheResult := by
  intro s t u ht hu
  have hroles : ~~~t.inSel = sourceOf t.par := by
    cases effect_of_exec ht with
    | fft => exact not_reboundInSel _
  have hother : ~~~t.inSel ≠ t.inSel := (by decide : ∀ b : Bit, ~~~b ≠ b) _
  cases effect_of_exec hu with
  | loadWaits => exact ⟨hroles, rfl, fun _ => rfl⟩
  | load => exact ⟨hroles, rfl, fun i => congrArg (Memory.read · i) (Bufs.get_set_other _ _ hother)⟩

end Sys2Proof.Machine
end

section
/-!
PROOF. The loader's Buffer read by index, and the statements about `LOAD` and about an element read back (R190 to R192).
-/

namespace Sys2Proof.Machine

/-! ## A whole Buffer loaded from the front of SMP (R190) -/

section
variable {F : Type} {num : Num F} {ns : List Half} {n p : Nat} {m : Memory F}

theorem loadFrom_take_read_inside (hn : n ≤ ns.length) (hp : p < n) :
    Memory.read (loadFrom num (ns.take n) 0 m) p = some ⟨num.u16tof (ns[p]'(hp.trans_le hn)), num.zero⟩ := by
  have hloaded : 0 ≤ p ∧ p < 0 + (ns.take n).length := by rw [List.length_take]; omega
  rw [loadFrom_read, if_pos hloaded, Nat.sub_zero, List.getElem?_take_of_lt hp, List.getElem?_eq_getElem (hp.trans_le hn),
    Option.map_some]

theorem loadFrom_take_read_outside (hp : n ≤ p) :
    Memory.read (loadFrom num (ns.take n) 0 m) p = Memory.read m p := by
  have hbeyond : ¬(0 ≤ p ∧ p < 0 + (ns.take n).length) := by rw [List.length_take]; omega
  rw [loadFrom_read, if_neg hbeyond]

end

/-! ## The statements -/

/-- Settles O18: the loaded Buffer read below `N` and from `N` on; the other Buffer is distinct storage. -/
theorem loadFillsTheInputBuffer : Obligations.LoadFillsTheInputBuffer := by
  intro s hsmp
  have hother : ~~~s.inSel ≠ s.inSel := (by decide : ∀ b : Bit, ~~~b ≠ b) _
  refine ⟨_, execLoad_of_enough hsmp, ⟨rfl, rfl, rfl⟩, fun i hi => ?_, fun i hi => ?_, fun i => ?_, rfl, rfl, ⟨rfl, rfl⟩,
    ⟨rfl, rfl, rfl⟩⟩
  · refine ⟨_, List.getElem?_eq_getElem (hi.trans_le hsmp), ?_⟩
    rw [State.retire_bufs, Bufs.get_set_same]
    exact loadFrom_take_read_inside hsmp hi
  · rw [State.retire_bufs, Bufs.get_set_same, loadFrom_take_read_outside hi]
  · rw [State.retire_bufs, Bufs.get_set_other _ _ hother]

/-- Settles O22: `WRB` leaves the roles and the build, so `RDB` meets the element it wrote. -/
theorem rdbAfterWrbAnswersWhatWasStored : Obligations.RdbAfterWrbAnswersWhatWasStored := by
  intro s r idx re im hidx
  obtain ⟨t, ht, -, hread, -, -, -, hrsp, ⟨hsel, -⟩, ⟨-, -, hbw⟩⟩ := wrbStoresTheElement s r idx re im hidx
  obtain ⟨hrdb, -⟩ := rdbAnswersTheElement t r idx (hbw ▸ hidx)
  obtain ⟨u, hu, -, hans, -⟩ := hrdb ⟨re, im⟩ (hsel ▸ hread)
  exact ⟨t, u, ht, hu, hans.trans (congrArg (· ++ [re, im]) hrsp)⟩

end Sys2Proof.Machine
end

section
/-!
PROOF. The peak finder (R205, R206): what it has done to its Buffer and what its registers say of the bins visited so far,
kept by every visited bin; and the statements about `FINDF`.
-/

namespace Sys2Proof.Machine

/-! ## The order of magnitudes (R117) -/

section
variable {a b c : F32}

theorem f32Ge_of_isNaN_left (h : isNaN a = true) : f32Ge a b = false := by simp [f32Ge, h]

theorem isNaN_of_f32Ge_right (h : f32Ge a b = true) : isNaN b = false := by
  simp only [f32Ge, Bool.and_eq_true, Bool.not_eq_true'] at h
  obtain ⟨⟨-, hb⟩, -⟩ := h
  exact hb

theorem f32Ge_refl (ha : isNaN a = false) : f32Ge a a = true := (f32Ge_iff ha ha).2 le_rfl

theorem f32Ge_trans (hab : f32Ge a b = true) (hbc : f32Ge b c = true) : f32Ge a c = true := by
  have ha := isNaN_of_f32Ge hab
  have hb := isNaN_of_f32Ge hbc
  have hc := isNaN_of_f32Ge_right hbc
  exact (f32Ge_iff ha hc).2 (((f32Ge_iff hb hc).1 hbc).trans ((f32Ge_iff ha hb).1 hab))

/-- Two numbers compare one way or the other. -/
theorem f32Ge_of_not_f32Ge (ha : isNaN a = false) (hb : isNaN b = false) (h : f32Ge a b = false) :
    f32Ge b a = true := by
  have hlt : ¬f32Val b ≤ f32Val a := fun hle => by simp [(f32Ge_iff ha hb).2 hle] at h
  exact (f32Ge_iff hb ha).2 (by omega)

/-- A number that is not negative is at least the `+0.0` the peak finder starts from. -/
theorem f32Ge_posZero (ha : isNaN a = false) (h : NotNegative a) : f32Ge a 0#32 = true := by
  have hneg := h.resolve_left (by rw [ha]; decide)
  have hzero : f32Val 0#32 = 0 := by decide
  refine (f32Ge_iff ha (by decide)).2 ?_
  rw [hzero]
  exact f32Val_nonneg hneg

end

/-! ## The peak of the bins visited so far -/

section
variable {mag : Nat → F32} {n k : Nat} {g : F32}

/-- Bin `k` is the highest among the bins `1 .. n − 1` of the largest magnitude that is a number. -/
structure HighestLargest (mag : Nat → F32) (n k : Nat) : Prop where
  one_le : 1 ≤ k
  lt : k < n
  number : isNaN (mag k) = false
  largest : ∀ j, 1 ≤ j → j < n → isNaN (mag j) = false →
    f32Ge (mag k) (mag j) = true ∧ (k < j → f32Ge (mag j) (mag k) = false)

/-- What the peak registers say of the bins `1 .. n − 1`: no magnitude was a number and they stand as they started, or they
hold the peak and its magnitude (R205, U7). -/
inductive PeakOf (mag : Nat → F32) (n : Nat) : Nat → F32 → Prop where
  | start (hnan : ∀ i, 1 ≤ i → i < n → isNaN (mag i) = true) : PeakOf mag n 0 0#32
  | found {k : Nat} (hk : HighestLargest mag n k) : PeakOf mag n k (mag k)

/-- A magnitude that is at least every one before it is the new peak: ties go to the higher bin. -/
theorem HighestLargest.of_ge (hn : 1 ≤ n) (hnum : isNaN (mag n) = false)
    (hge : ∀ j, 1 ≤ j → j < n → isNaN (mag j) = false → f32Ge (mag n) (mag j) = true) : HighestLargest mag (n + 1) n where
  one_le := hn
  lt := Nat.lt_succ_self n
  number := hnum
  largest j hj hjn hjnum := by
    refine ⟨?_, fun hlt => absurd hlt (by omega)⟩
    rcases Nat.lt_succ_iff_lt_or_eq.1 hjn with hlt | rfl
    · exact hge j hj hlt hjnum
    · exact f32Ge_refl hnum

/-- A magnitude that is not at least the peak's leaves the peak. -/
theorem HighestLargest.of_not_ge (hk : HighestLargest mag n k) (hnot : f32Ge (mag n) (mag k) = false) :
    HighestLargest mag (n + 1) k where
  one_le := hk.one_le
  lt := Nat.lt_succ_of_lt hk.lt
  number := hk.number
  largest j hj hjn hjnum := by
    rcases Nat.lt_succ_iff_lt_or_eq.1 hjn with hlt | rfl
    · exact hk.largest j hj hlt hjnum
    · exact ⟨f32Ge_of_not_f32Ge hjnum hk.number hnot, fun _ => hnot⟩

/-- Visiting bin `n` keeps what the registers say, now of the bins up to `n` (R205). -/
theorem PeakOf.visit (hn : 1 ≤ n) (hmag : NotNegative (mag n)) (h : PeakOf mag n k g) :
    PeakOf mag (n + 1) (if f32Ge (mag n) g then n else k) (if f32Ge (mag n) g then mag n else g) := by
  cases h with
  | start hnan =>
    cases hnum : isNaN (mag n) with
    | false =>
      rw [if_pos (f32Ge_posZero hnum hmag), if_pos (f32Ge_posZero hnum hmag)]
      exact .found (.of_ge hn hnum fun j hj hjn hjnum => absurd (hnan j hj hjn) (by rw [hjnum]; decide))
    | true =>
      rw [f32Ge_of_isNaN_left hnum]
      refine .start fun i hi hin => ?_
      rcases Nat.lt_succ_iff_lt_or_eq.1 hin with hlt | rfl
      · exact hnan i hi hlt
      · exact hnum
  | found hk =>
    cases hge : f32Ge (mag n) (mag k) with
    | true =>
      refine .found (.of_ge hn (isNaN_of_f32Ge hge) fun j hj hjn hjnum => ?_)
      obtain ⟨hkj, -⟩ := hk.largest j hj hjn hjnum
      exact f32Ge_trans hge hkj
    | false => exact .found (hk.of_not_ge hge)

/-- Where some magnitude is a number, the registers hold the peak. -/
theorem PeakOf.highestLargest (h : PeakOf mag n k g) (hnum : ∃ i, 1 ≤ i ∧ i < n ∧ isNaN (mag i) = false) :
    HighestLargest mag n k ∧ g = mag k := by
  cases h with
  | start hnan =>
    obtain ⟨i, hi, hin, hi_num⟩ := hnum
    exact absurd (hnan i hi hin) (by rw [hi_num]; decide)
  | found hk => exact ⟨hk, rfl⟩

/-- Where every magnitude is a NaN, the registers stand as they started. -/
theorem PeakOf.zero_of_isNaN (h : PeakOf mag n k g) (hnan : ∀ i, 1 ≤ i → i < n → isNaN (mag i) = true) :
    k = 0 ∧ g = 0#32 := by
  cases h with
  | start => exact ⟨rfl, rfl⟩
  | found hk => exact absurd (hnan k hk.one_le hk.lt) (by rw [hk.number]; decide)

end

/-! ## What the scan has done -/

/-- The magnitude `FINDF` at CMD position `pos` gives bin `i` of the values `v` (sites: log entry 5). -/
def binMagnitude (pos : Nat) (v : Nat → Sample F32) (i : Nat) : F32 := cabs binary32 ⟨pos, 0, 0, i, 0⟩ (v i)

section
variable {bw : BitWidth} {pos n : Nat} {b : Bit} {m : Memory F32} {v : Nat → Sample F32} {x : Peak F32}

/-- The scan of `m` has visited the bins `1 .. n − 1`: their magnitudes stand in their place, every other element reads as
in `m`, and the registers hold their peak. -/
structure Scanned (pos : Nat) (v : Nat → Sample F32) (m : Memory F32) (n : Nat) (x : Peak F32) : Prop where
  bins : ∀ p, 1 ≤ p → p < n → Memory.read x.mem p = some ⟨binMagnitude pos v p, 0#32⟩
  others : ∀ p, p = 0 ∨ n ≤ p → Memory.read x.mem p = Memory.read m p
  peak : PeakOf (binMagnitude pos v) n x.pkidx.toNat x.pkmag

theorem scanned_start : Scanned pos v m 1 ⟨m, 0#24, 0#32⟩ where
  bins _ hp hp1 := absurd hp1 (by omega)
  others _ _ := rfl
  peak := .start fun _ hi hi1 => absurd hi1 (by omega)

/-- The pass over the next bin (R205); its index fits `PKIDX`. -/
theorem Scanned.visit (h : Scanned pos v m n x) (hn : 1 ≤ n) (hfits : n < 2 ^ 24)
    (hv : Memory.read m n = some (v n)) : ∃ y, peakBin binary32 pos b n x = .ok y ∧ Scanned pos v m (n + 1) y := by
  have hread : Memory.read x.mem n = some (v n) := (h.others n (.inr le_rfl)).trans hv
  obtain ⟨y, hy⟩ := exists_peakBin_ok (num := binary32) (pos := pos) (b := b) (Option.isSome_of_eq_some hread)
  obtain ⟨w, hw, hmem, hidx, hpkmag⟩ := (peakBin_ok_iff _ _ _ _ _ _).1 hy
  obtain rfl : v n = w := Option.some.inj (hread.symm.trans hw)
  have hnat : (BitVec.ofNat 24 n).toNat = n := (BitVec.toNat_ofNat _ _).trans (Nat.mod_eq_of_lt hfits)
  refine ⟨y, hy, fun p hp hpn => ?_, fun p hp => ?_, ?_⟩
  · rw [hmem]
    rcases Nat.lt_succ_iff_lt_or_eq.1 hpn with hlt | rfl
    · rw [Memory.read_write_other _ _ (by omega)]
      exact h.bins p hp hlt
    · exact Memory.read_write_same _ _ _
  · rw [hmem, Memory.read_write_other _ _ (by omega)]
    exact h.others p (by omega)
  · rw [hidx, hpkmag, apply_ite BitVec.toNat, hnat]
    exact h.peak.visit hn (notNegative_cabs _ _)

theorem half_size_le (bw : BitWidth) : bw.size / 2 ≤ 2 ^ 23 := by
  have hsize : bw.size ≤ 2 ^ 24 := Nat.pow_le_pow_right (by decide) bw.high
  omega

/-- A scan of bins that all hold values visits them all. -/
theorem peakScan_scanned (b : Bit) (hv : ∀ i, 1 ≤ i → i < bw.size / 2 → Memory.read m i = some (v i)) :
    ∃ x, peakScan binary32 bw pos b m = .ok x ∧ Scanned pos v m (bw.size / 2) x := by
  have hlow := half_size_pos bw
  have hhigh := half_size_le bw
  have hend : 1 + (bw.size / 2 - 1) = bw.size / 2 := by omega
  rw [← hend]
  exact loop_ok_of (fun n _ hn hlt hx => hx.visit hn (by omega) (hv n hn (by omega))) scanned_start

end

theorem exec_findf_of_ok {s : State} {r : Bit} {x : Peak F32} (fs : F32)
    (h : peakScan binary32 s.bw s.cmdPos (phys s.inSel r) (s.bufs.get (phys s.inSel r)) = .ok x) :
    exec (.findf r fs) s =
      .next ((({ s with bufs := s.bufs.set (phys s.inSel r) x.mem, pkidx := x.pkidx, pkmag := x.pkmag }).push
        [frequency binary32 s.bw s.cmdPos fs x.pkidx]).retire 2) := by
  simp only [exec, execFindf, h]

/-! ## The statements -/

/-- Settles O46: the scan visits every bin; the response is computed from the peak it answers. -/
theorem findfReplacesTheBinsByMagnitudes : Obligations.FindfReplacesTheBinsByMagnitudes := by
  intro s r fs v b hv
  obtain ⟨x, hx, hscan⟩ := peakScan_scanned (pos := s.cmdPos) b hv
  have hother : ~~~b ≠ b := (by decide : ∀ b : Bit, ~~~b ≠ b) _
  refine ⟨_, exec_findf_of_ok fs hx, ⟨rfl, rfl, rfl⟩, fun i hi hin => ?_, fun i hi => ?_, fun i => ?_, rfl, rfl, ⟨rfl, rfl⟩,
    rfl⟩
  · exact (congrArg (Memory.read · i) (Bufs.get_set_same _ b _)).trans (hscan.bins i hi hin)
  · exact (congrArg (Memory.read · i) (Bufs.get_set_same _ b _)).trans (hscan.others i hi)
  · exact congrArg (Memory.read · i) (Bufs.get_set_other _ _ hother)

/-- Settles O47: the registers `FINDF` answers are those of the scan over all the bins. -/
theorem peakIsTheHighestBinOfTheLargestMagnitude : Obligations.PeakIsTheHighestBinOfTheLargestMagnitude := by
  intro s t r fs v hv ht
  obtain ⟨x, hx, hscan⟩ := peakScan_scanned (pos := s.cmdPos) (s.inSel ^^^ r) hv
  obtain rfl := Host.Outcome.next.inj ((exec_findf_of_ok fs hx).symm.trans ht)
  refine ⟨fun hnum => ?_, hscan.peak.zero_of_isNaN⟩
  obtain ⟨⟨hlo, hhi, hpeak, hlargest⟩, hpkmag⟩ := hscan.peak.highestLargest hnum
  exact ⟨hlo, hhi, hpkmag, hpeak, hlargest⟩

end Sys2Proof.Machine
end

section
/-!
PROOF. A command sees the words taken only through the window and its position, and taking words moves neither; so the
unit may take words of a command early, and the command answers the same (R223).
-/

namespace Sys2Proof.Machine

/-! ## Operations that forget how many words were taken -/

/-- Completing a command forgets how many of its words had been taken. `t` is a held state in any shape, such as a
record update of `s.hold n`. -/
theorem State.retire_eq_of_eq_hold {s t : State} {k : Nat} (n : Nat) (h : t = s.hold n) : t.retire k = s.retire k := by
  subst h
  simp only [State.retire, State.hold_window, State.hold_cmdPos]
  rfl

/-- The retired state as the next state of a step. -/
theorem next_retire_eq_of_eq_hold {s t : State} {k : Nat} (n : Nat) (h : t = s.hold n) :
    (.next (t.retire k) : Host.Outcome State Fault Refusal) = .next (s.retire k) :=
  congrArg _ (State.retire_eq_of_eq_hold n h)

/-- Taking words again starts from the same words. -/
theorem State.hold_hold (s : State) (n k : Nat) : (s.hold n).hold k = s.hold k := by
  rw [State.hold, State.hold_window, State.hold_cmdPos]
  rfl

theorem ranged_hold (i : Instr) (s : State) (n : Nat) (k : Host.Outcome State Fault Refusal) :
    ranged i (s.hold n) k = ranged i s k := by
  simp only [ranged, State.hold_bw, State.hold_cmdPos]

theorem runPipeline_hold (f : Pipeline F32 → Except Fault (Pipeline F32)) (s : State) (n : Nat) :
    runPipeline f (s.hold n) = runPipeline f s := by
  have hpipeline : (s.hold n).pipeline = s.pipeline := rfl
  rw [runPipeline, runPipeline, hpipeline]
  cases f s.pipeline with
  | error e => rfl
  | ok x => exact congrArg Except.ok (State.retire_eq_of_eq_hold n rfl)

theorem runCombine_hold (kind : Combine) (bp : BitVec 5) (blk : BitVec 23) (s : State) (n : Nat) :
    runCombine kind bp blk (s.hold n) = runCombine kind bp blk s := by
  rw [runCombine, runCombine, State.hold_bw, State.hold_cmdPos, State.hold_par, State.hold_bufs]
  split
  · exact congrArg Except.ok (State.retire_eq_of_eq_hold n rfl)
  · rfl

/-! ## The statement -/

/-- Settles O16: what a command reads before it retires is the same in a held state, and to retire, to hold and to check
the range forget the words taken. -/
theorem waitingDoesNotChangeTheResult : Obligations.WaitingDoesNotChangeTheResult := by
  intro i s n
  cases i with
  | stat | bitrev nb v | pinit | rebind => exact next_retire_eq_of_eq_hold n rfl
  | load | fft | findf r fs =>
    simp only [exec, execLoad, execFft, execFindf, State.hold_hold, State.hold_cmdPos, State.hold_bw, State.hold_smp,
      State.hold_inSel, State.hold_bufs]
    split
    · exact next_retire_eq_of_eq_hold n rfl
    · rfl
  | wrb r idx re im =>
    exact (ranged_hold _ _ _ _).trans (congrArg (ranged _ s) (next_retire_eq_of_eq_hold n rfl))
  | rdb r idx =>
    simp only [exec, execRdb, ranged_hold, State.hold_inSel, State.hold_bufs]
    split
    · exact congrArg (ranged _ s) (next_retire_eq_of_eq_hold n rfl)
    · rfl
  | sdec | tdec =>
    simp only [exec, execSdec, execTdec, runPipeline_hold, State.hold_bw, State.hold_cmdPos]
  | sstg bp | tstg bp =>
    simp only [exec, execSstg, execTstg, ranged_hold, runPipeline_hold, State.hold_bw, State.hold_cmdPos]
  | scomb bp blk | tcomb bp blk =>
    simp only [exec, execScomb, execTcomb, ranged_hold, runCombine_hold]

end Sys2Proof.Machine
end
